-- ==== Sys2Proof/Word.lean ====
section
/-! DEFINITION. The words of the block: bytes of memory and of the container format, 32-bit register words,
16-bit samples of the sample port (spec 10_state.md R22, 20_memory.md R51, R62). -/

namespace Sys2Proof

/-- One byte of memory or of a container (20_memory.md R51). -/
abbrev Byte := BitVec 8

/-- One register word, a command word, a memory address (10_state.md R22, 20_memory.md R50). -/
abbrev Word := BitVec 32

/-- One word of the sample port (20_memory.md R62). -/
abbrev Sample := BitVec 16

end Sys2Proof
end

