-- ==== Sys2Proof/Config.lean ====
section
/-! DEFINITION. What is fixed when the block is built (00_scope.md R6, R7, 70_reset_and_hazards.md R215), and the
free values: constants without a body, which no proof can evaluate. -/

namespace Sys2Proof

/-- A two-byte chunk tag: a byte string, not an integer (20_memory.md R52). -/
structure Tag where
  b0 : Byte
  b1 : Byte
  deriving DecidableEq, Repr, Inhabited

/-- The four bytes at container offset 0 (30_encoding.md R80). -/
structure Magic where
  b0 : Byte
  b1 : Byte
  b2 : Byte
  b3 : Byte
  deriving DecidableEq, Repr, Inhabited

/-- The launch parameters of 70_reset_and_hazards.md R215 that are data: MAGIC, TAG_DATA, TAG_MARKER, whose values the
spec leaves OPEN, and BIT_CYCLES, the tone cycles of one bit on tape (00_scope.md R6). A machine carries them in
`State.params` and no step changes them (log entries 4 and 17); SINE, the fifth one, is `Config.sine`. -/
structure Params where
  magic     : Magic
  tagData   : Tag
  tagMarker : Tag
  bitCycles : Nat
  deriving DecidableEq, Repr, Inhabited

namespace Config

/-- Payload bytes of a full block (00_scope.md R6). -/
def blockBytes : Nat := 256
/-- Width of the name field (00_scope.md R6). -/
def nameBytes : Nat := 6
/-- Checksum seed (00_scope.md R6). -/
def cksumSeed : Byte := 0xFF
/-- The pad byte of a name (00_scope.md R7). -/
def namePad : Byte := 0xA0
/-- `maxAmplitude(8)` (00_scope.md R6). -/
def maxAmp8 : Nat := 127
/-- `maxAmplitude(16)` (00_scope.md R6). -/
def maxAmp16 : Nat := 32767
/-- The value of BIT_CYCLES in this spec (00_scope.md R6, 46_tape.md R182). -/
def bitCycles : Nat := 1

/-- FREE: the bytes the spec leaves OPEN, before `launchParams` keeps the two tags apart (log entry 4). -/
opaque rawParams : Params

/-- The launch parameters of a machine right after reset: any magic and any two DIFFERENT tags (00_scope.md R6,
`TAG_MARKER != TAG_DATA`), and BIT_CYCLES at the spec's value. Every admissible choice of the OPEN bytes is that of
`rawParams` for some value of it. -/
def launchParams : Params where
  magic     := rawParams.magic
  tagData   := rawParams.tagData
  tagMarker :=
    if rawParams.tagMarker = rawParams.tagData then { rawParams.tagData with b0 := ~~~rawParams.tagData.b0 }
    else rawParams.tagMarker
  bitCycles := bitCycles

/-- FREE: a total function of `A`, `k` and `L`, before `sine` imposes the two laws of 45_tone.md R163 (log entry 5). -/
opaque rawSine : Nat → Nat → Nat → Int

/-- `SINE(A, k, L)` of 45_tone.md R163: any function that obeys law (a) `SINE(A, 0, L) = 0` and law (b)
`-A <= SINE(A, k, L) <= A`. A function that obeys both is left as it is by the two clauses. -/
def sine (A k L : Nat) : Int :=
  if k = 0 then 0 else max (-(A : Int)) (min (A : Int) (rawSine A k L))

/-- FREE: what the host reads from a result register while BUSY = 1, at the n-th such read (10_state.md R46; log
entry 7). -/
opaque busyRead : Nat → Word

end Config

end Sys2Proof
end

