-- ==== Sys2Proof/Syntax.lean ====
section
/-! DEFINITION. What can be put to the block: the ten commands of spec/opcode_table.json, the registers of the window,
the host's accesses, and the statements of the host script syntax. -/

namespace Sys2Proof

/-- The commands, one constructor per row of spec/opcode_table.json (30_encoding.md R73). A command has no operand
fields: its operands are registers (R72). -/
inductive Instr where
  | nop
  | frameBlock
  | chunkLen
  | buildHeader
  | decodeContainer
  | reqSize
  | encodeContainer
  | renderTone
  | renderSilence
  | encodeTape
  deriving DecidableEq, Repr

/-- The registers of the window (10_state.md R22), under the spec's names. -/
inductive Reg where
  | cmd | status | err | lastErr | ctrl | toneCfg | sampleRate | freq | toneLen | duty | nameLo | nameHi
  | addr | blk | srcBase | srcLen | dstBase | dstLen | result | outLen | sampleCount | cksum | nbin
  deriving DecidableEq, Repr

/-- The error kinds of 60_exceptions.md R190. -/
inductive ErrKind where
  | invalidMagic | truncated | allocFail | writeFail | invalidFreq | checksumMismatch | invalidBinary
  | malformedChunk | unknownTag | illegalCmd | overrun
  deriving DecidableEq, Repr

/-- One access of the host: a bus transaction of 30_encoding.md R91, an access to its memory, or a reset. -/
inductive HostAct where
  /-- An aligned 32-bit register write `W(off, v)`. -/
  | regWrite (off : BitVec 8) (v : Word)
  /-- An aligned 32-bit register read `R(off)`. -/
  | regRead (off : BitVec 8)
  /-- A register access of another width, in bytes (70_reset_and_hazards.md R216). -/
  | oddAccess (off : BitVec 8) (bytes : Nat)
  /-- A host store of one byte into memory. -/
  | memWrite (a : Word) (b : Byte)
  /-- A host load of one byte from memory. -/
  | memRead (a : Word)
  /-- A reset of the block (70_reset_and_hazards.md R210, R212). -/
  | reset
  deriving DecidableEq, Repr

/-- When a host access reaches the block. While a command runs, `afterSteps n` comes after `n` more engine steps, or when
the engine can take no further step if that is sooner: at completion, or while the sink leaves a push unanswered (the
model's choice, log entries 2 and 15). `onCompletion` comes when the command has completed. While the block is idle both
come at once. -/
inductive Arrival where
  | afterSteps (n : Nat)
  | onCompletion
  deriving DecidableEq, Repr

/-- One host access with the moment it arrives. -/
structure HostEvent where
  arrival : Arrival
  act     : HostAct
  deriving DecidableEq, Repr

/-- A statement of the host script syntax, straight-line part (30_encoding.md R89, R90). Labels and branches are host
control flow, which the block does not see. -/
inductive Stmt where
  | wr (r : Reg) (v : Word)
  | rd (r : Reg)
  | cmd (i : Instr)
  | mem (a : Word) (bytes : List Byte)
  | wait
  | ack
  | clrerr
  | name (text : List Byte)
  | addr (init last : BitVec 16)
  | src (base len : Word)
  | dst (base len : Word)
  deriving DecidableEq, Repr

end Sys2Proof
end

