-- ==== Sys2Proof/WellFormed.lean ====
section
/-! DEFINITION. Well-formedness checks on what is put to the block: command words, host accesses, launch parameters. -/

namespace Sys2Proof

/-- A command has no operand fields, so every command is well formed (30_encoding.md R72). -/
def Instr.wellFormed : Instr → Bool
  | .nop | .frameBlock | .chunkLen | .buildHeader | .decodeContainer | .reqSize | .encodeContainer | .renderTone
  | .renderSilence | .encodeTape => true

/-- A command word is legal when bits 31:8 are zero and bits 7:0 hold one of the ten opcodes (30_encoding.md R71). -/
def wellFormedWord (w : Word) : Bool :=
  w.extractLsb' 8 24 == 0 && (w.extractLsb' 0 8).toNat < 10

/-- A register offset is one of the 64 word slots (10_state.md R22). -/
def alignedOffset (off : BitVec 8) : Bool := off.extractLsb' 0 2 == 0

/-- The host's register accesses are aligned and 32 bits wide (70_reset_and_hazards.md R216). -/
def HostAct.wellFormed : HostAct → Bool
  | .regWrite off _ => alignedOffset off
  | .regRead off => alignedOffset off
  | .oddAccess _ _ => false
  | .memWrite _ _ => true
  | .memRead _ => true
  | .reset => true

/-- The two tags of the launch parameters differ (00_scope.md R6). -/
def Params.wellFormed (p : Params) : Bool := p.tagMarker != p.tagData

end Sys2Proof
end

