-- ==== Sys2Proof/Decode.lean ====
section
/-! DEFINITION. The command word and the register window: the decoder, total on every word, then the encoder, and the
offsets of the registers (30_encoding.md R70 to R75, 10_state.md R22). -/

namespace Sys2Proof

/-- Why a command word is no command (30_encoding.md R74). -/
inductive DecodeReject where
  /-- A nonzero bit in 31:8. -/
  | nonzeroZ
  /-- OP is 0x0A to 0xFF. -/
  | reservedOpcode
  /-- Fewer than the four bytes of a command word. -/
  | shortWord
  deriving DecidableEq, Repr

/-- The command of an opcode (30_encoding.md R73). -/
def decodeOp : Nat → Except DecodeReject Instr
  | 0 => .ok .nop
  | 1 => .ok .frameBlock
  | 2 => .ok .chunkLen
  | 3 => .ok .buildHeader
  | 4 => .ok .decodeContainer
  | 5 => .ok .reqSize
  | 6 => .ok .encodeContainer
  | 7 => .ok .renderTone
  | 8 => .ok .renderSilence
  | 9 => .ok .encodeTape
  | _ => .error .reservedOpcode

/-- The decoder of 30_encoding.md R71: every 32-bit word is one of the ten commands or is rejected by name. -/
def decode (w : Word) : Except DecodeReject Instr :=
  if w.extractLsb' 8 24 = 0 then decodeOp (w.extractLsb' 0 8).toNat else .error .nonzeroZ

/-- The command word on the bus, bit 0 in the byte at the lowest address (10_state.md R22): the first command of a
byte string, and the rest of it. -/
def decodeBytes : List Byte → Except DecodeReject (Instr × List Byte)
  | b0 :: b1 :: b2 :: b3 :: rest =>
    match decode (b3 ++ b2 ++ b1 ++ b0) with
    | .ok i => .ok (i, rest)
    | .error e => .error e
  | _ => .error .shortWord

/-- The opcode of a command (30_encoding.md R73). -/
def opcode : Instr → Byte
  | .nop => 0x00
  | .frameBlock => 0x01
  | .chunkLen => 0x02
  | .buildHeader => 0x03
  | .decodeContainer => 0x04
  | .reqSize => 0x05
  | .encodeContainer => 0x06
  | .renderTone => 0x07
  | .renderSilence => 0x08
  | .encodeTape => 0x09

/-- The command word of a command: OP in bits 7:0, bits 31:8 zero (30_encoding.md R70). -/
def encode (i : Instr) : Word := (0 : BitVec 24) ++ opcode i

/-- The command word as the four bytes of the bus, least significant first. -/
def encodeBytes (i : Instr) : List Byte := [opcode i, 0, 0, 0]

/-- The command an `nbits`-bit table word stands for: the bits above `nbits` are zero, and the four bytes go to the
decoder in bus order. -/
def decodeTableWord (nbits w : Nat) : Option Instr :=
  let v : Word := BitVec.ofNat 32 (w % 2 ^ nbits)
  match decodeBytes [v.extractLsb' 0 8, v.extractLsb' 8 8, v.extractLsb' 16 8, v.extractLsb' 24 8] with
  | .ok (i, _) => some i
  | .error _ => none

/-- The offset of a register in the window (10_state.md R22). -/
def regOffset : Reg → BitVec 8
  | .cmd => 0x00
  | .status => 0x04
  | .err => 0x08
  | .lastErr => 0x0C
  | .ctrl => 0x10
  | .toneCfg => 0x14
  | .sampleRate => 0x18
  | .freq => 0x1C
  | .toneLen => 0x20
  | .duty => 0x24
  | .nameLo => 0x28
  | .nameHi => 0x2C
  | .addr => 0x30
  | .blk => 0x34
  | .srcBase => 0x38
  | .srcLen => 0x3C
  | .dstBase => 0x40
  | .dstLen => 0x44
  | .result => 0x48
  | .outLen => 0x4C
  | .sampleCount => 0x50
  | .cksum => 0x54
  | .nbin => 0x58

/-- The register of a word slot, by slot number; `none` for the reserved offsets 0x5C to 0xFC (10_state.md R22, R43). -/
def regOfSlot : Nat → Option Reg
  | 0 => some .cmd
  | 1 => some .status
  | 2 => some .err
  | 3 => some .lastErr
  | 4 => some .ctrl
  | 5 => some .toneCfg
  | 6 => some .sampleRate
  | 7 => some .freq
  | 8 => some .toneLen
  | 9 => some .duty
  | 10 => some .nameLo
  | 11 => some .nameHi
  | 12 => some .addr
  | 13 => some .blk
  | 14 => some .srcBase
  | 15 => some .srcLen
  | 16 => some .dstBase
  | 17 => some .dstLen
  | 18 => some .result
  | 19 => some .outLen
  | 20 => some .sampleCount
  | 21 => some .cksum
  | 22 => some .nbin
  | _ => none

/-- The register at an aligned window offset. -/
def regAt (off : BitVec 8) : Option Reg := regOfSlot (off.extractLsb' 2 6).toNat

end Sys2Proof
end

