-- ==== Sys2Proof/Machine/State.lean ====
section
/-! DEFINITION. The state of the block as plain data, the reasons a step can stop, and the state after reset. Every
register of 10_state.md, the engine state of its R44 and R45, the memory and the sample port of 20_memory.md, and the
outside world's inputs still to come. -/

namespace Sys2Proof.Machine

/-- The registers the host programs: control, tone configuration and operands (10_state.md R24, R28 to R37). No command
writes them (R49). -/
structure Regs where
  ctrl       : Word
  toneCfg    : Word
  sampleRate : Word
  freq       : Word
  toneLen    : Word
  duty       : Word
  nameLo     : Word
  nameHi     : Word
  addr       : Word
  blk        : Word
  srcBase    : Word
  srcLen     : Word
  dstBase    : Word
  dstLen     : Word
  deriving DecidableEq, Repr

/-- The result registers (10_state.md R38 to R42). -/
structure Results where
  result      : Word
  outLen      : Word
  sampleCount : Word
  cksum       : Byte
  nbin        : Word
  deriving DecidableEq, Repr

/-- The sequencer (10_state.md R44). -/
inductive Seq where
  | idle
  | run
  deriving DecidableEq, Repr

/-- The open binary of a decode: its record's output offset, its size, its write offset (10_state.md R44). -/
structure OpenRec where
  pos  : Nat
  size : Nat
  wr   : Nat
  deriving DecidableEq, Repr

/-- The scanner of DECODE_CONTAINER (10_state.md R44): scan offset, write offset, record count, open binary. -/
structure Scan where
  off  : Nat
  dptr : Nat
  nbin : Nat
  opn  : Option OpenRec
  deriving DecidableEq, Repr

/-- The phases of ENCODE_TAPE (10_state.md R45). -/
inductive TapePhase where
  | silPre | leader | pre0 | bits0 | preK | bitsK | trailer | silPost
  deriving DecidableEq, Repr

/-- The place in a tape: phase, block counter k, bit position in the frame (10_state.md R45). The values of k and of the
bit position in a phase that has none are the model's choice (log entry 9). -/
structure TapePos where
  phase : TapePhase
  k     : Nat
  bit   : Nat
  deriving DecidableEq, Repr

/-- The place in a tone: cycle counter and sample-in-cycle counter (10_state.md R45). That a silence leaves them as they
are is the model's choice (log entry 9). -/
structure TonePos where
  cycle  : Nat
  sample : Nat
  deriving DecidableEq, Repr

/-- One step of the engine (70_reset_and_hazards.md R221): a byte access, a push, a register update. -/
inductive EngineOp where
  /-- `MemRead` of one byte, and the byte it reads: the one that stood there when CMD was written (20_memory.md R60 (3);
  that it still stands there is part of `Coherent` in Safety.lean). Reading has no side effect (20_memory.md R56). -/
  | load (a : Nat) (b : Byte)
  /-- `MemWrite` of one byte. -/
  | store (a : Nat) (b : Byte)
  /-- `Push` of one sample, at a place in a tone or in a silence (45_tone.md R172). -/
  | push (pos : Option TonePos) (x : Sample)
  /-- Count the offered sample in SAMPLE_COUNT (45_tone.md R172). -/
  | countOffer
  /-- Count the sink's answer: RESULT for an accepted sample, WRITE_FAIL for a rejected one (45_tone.md R172). -/
  | countAnswer
  /-- Record an error (60_exceptions.md R191). -/
  | record (e : ErrKind)
  | setResult (v : Word)
  | setOutLen (v : Word)
  | setCksum (b : Byte)
  | setNbin (v : Word)
  /-- Update the scanner (10_state.md R44). -/
  | scan (c : Scan)
  /-- Update the place in the tape (10_state.md R45). -/
  | tape (p : TapePos)
  /-- The completion effects (40_command.md R102). -/
  | complete
  deriving DecidableEq, Repr

/-- The sink's answer to a push: ACCEPT, REJECT, or none at all (20_memory.md R62, 70_reset_and_hazards.md R221). -/
inductive SinkAnswer where
  | accept
  | reject
  | silent
  deriving DecidableEq, Repr

/-- The sink as an oracle input: the answers to the next pushes, and the answer to every push after them. -/
structure Sink where
  answers    : List SinkAnswer
  thereafter : SinkAnswer
  deriving DecidableEq, Repr

/-- One sample offered on the port and whether the sink took it (20_memory.md R62). -/
structure Push where
  sample   : Sample
  accepted : Bool
  deriving DecidableEq, Repr

/-- What a read of the host returned: MODEL observation, not state of the block (log entry 16). -/
inductive Reply where
  | reg (off : BitVec 8) (v : Word)
  | mem (a : Word) (b : Byte)
  deriving DecidableEq, Repr

/-- The byte memory, as a list of cells: addresses strictly rising, no cell that holds what an unlisted address reads
as (`Memory.wf` in Ops.lean; log entry 6). -/
abbrev Memory := List Host.Cell

/-- The machine stops with a fault. The block itself never stops: an error is a bit (60_exceptions.md R194). -/
inductive Fault where
  /-- Raised by `step` when BUSY = 1 and the engine has nothing left to perform: the spec gives no such state and no run
  reaches one (log entry 23). Safe. -/
  | busyWithoutWork
  deriving DecidableEq, Repr

/-- The model has no step for what is asked. -/
inductive Refusal where
  /-- Raised by an arm of `exec` that has no meaning yet. No arm of this model does. Safe. -/
  | notModelled (mnemonic : String)
  /-- Raised at the launch of FRAME_BLOCK, DECODE_CONTAINER or ENCODE_CONTAINER when the input and the output region
  share an address: "A launch with overlapping regions is refused by the model" (70_reset_and_hazards.md R218). Safe. -/
  | regionOverlap
  /-- Raised by a register access at an offset that is not a multiple of 4 (70_reset_and_hazards.md R216). Safe. -/
  | misalignedAccess
  /-- Raised by a register access that is not 32 bits wide (70_reset_and_hazards.md R216). Safe. -/
  | accessWidth
  /-- Raised by a host write to the input region while BUSY = 1 (70_reset_and_hazards.md R217). Safe. -/
  | inputRegionBusy
  /-- Raised by a host read or write of the output region while BUSY = 1 (70_reset_and_hazards.md R217). Safe. -/
  | outputRegionBusy
  deriving DecidableEq, Repr

/-- The machine. -/
structure State where
  /-- STATUS.BUSY (10_state.md R23). -/
  busy    : Bool
  /-- STATUS.DONE (10_state.md R23). -/
  done    : Bool
  /-- ERR (10_state.md R25). -/
  err     : Word
  /-- LAST_ERR (10_state.md R26). -/
  lastErr : Word
  regs    : Regs
  res     : Results
  /-- The sequencer (10_state.md R44). -/
  seq     : Seq
  /-- The scanner (10_state.md R44). -/
  scan    : Scan
  /-- The place in the tape (10_state.md R45). -/
  tape    : TapePos
  /-- The place in the tone (10_state.md R45). -/
  tone    : TonePos
  /-- The steps the running command has still to perform (40_command.md R100, 70_reset_and_hazards.md R212, R221). -/
  todo    : List EngineOp
  mem     : Memory
  /-- The samples offered on the port, NEWEST FIRST (20_memory.md R62). -/
  port    : List Push
  /-- INPUT: the sink's answers still to come. -/
  sink    : Sink
  /-- INPUT: the host's accesses still to come, next first. -/
  host    : List HostEvent
  /-- What the host's reads returned, NEWEST FIRST. -/
  replies : List Reply
  /-- How many free values reads while busy have drawn (10_state.md R46). -/
  draws   : Nat
  /-- The launch parameters, never changed (70_reset_and_hazards.md R215). -/
  params  : Params
  deriving DecidableEq, Repr

/-- The reset values of 10_state.md R22. -/
def Regs.reset : Regs where
  ctrl       := 0x00000001
  toneCfg    := 0x00010000
  sampleRate := 0
  freq       := 0
  toneLen    := 0
  duty       := 0x00000080
  nameLo     := 0
  nameHi     := 0
  addr       := 0
  blk        := 0
  srcBase    := 0
  srcLen     := 0
  dstBase    := 0
  dstLen     := 0

/-- The reset values of 10_state.md R22. -/
def Results.reset : Results where
  result      := 0
  outLen      := 0
  sampleCount := 0
  cksum       := 0
  nbin        := 0

/-- `open = none` (70_reset_and_hazards.md R210); the rest is unspecified there and is 0 here (log entry 8). -/
def Scan.reset : Scan where
  off  := 0
  dptr := 0
  nbin := 0
  opn  := none

/-- The initial phase (70_reset_and_hazards.md R210; log entry 9). -/
def TapePos.reset : TapePos where
  phase := .silPre
  k     := 0
  bit   := 0

/-- The tone counters at reset (log entry 9). -/
def TonePos.reset : TonePos where
  cycle  := 0
  sample := 0

/-- The machine right after reset (70_reset_and_hazards.md R210): every register at its reset value, the engine idle.
Memory lists nothing (log entry 6), nothing has been pushed, no host access is pending (log entry 2), the sink accepts
everything (log entry 3), the launch parameters are free (log entry 4). -/
def State.reset : State where
  busy    := false
  done    := false
  err     := 0
  lastErr := 0
  regs    := Regs.reset
  res     := Results.reset
  seq     := .idle
  scan    := Scan.reset
  tape    := TapePos.reset
  tone    := TonePos.reset
  todo    := []
  mem     := []
  port    := []
  sink    := { answers := [], thereafter := .accept }
  host    := []
  replies := []
  draws   := 0
  params  := Config.launchParams

end Sys2Proof.Machine
end

