-- ==== Sys2Proof/Machine/Operands.lean ====
section
/-! DEFINITION. The operands of the commands, all read from registers (30_encoding.md R72): the fields of the operand
registers, what a write stores in them, the name, the binary's size and blocks, the two memory regions. -/

namespace Sys2Proof.Machine

/-! ### What a write stores (10_state.md R22 to R37): reserved bits 0, WARL fields clamped. -/

/-- A WARL fraction over 256: a value above 256 is stored as 256 (10_state.md R28, R32). -/
def clamp256 (v : BitVec 9) : Word := BitVec.ofNat 32 (min v.toNat 256)

/-- CTRL: bits 2:0 (10_state.md R24). -/
def ctrlStored (v : Word) : Word := v &&& 0x00000007

/-- TONE_CFG: bits 2:0, and VOLUME in bits 16:8, clamped (10_state.md R28). -/
def toneCfgStored (v : Word) : Word := (v &&& 0x00000007) ||| (clamp256 (v.extractLsb' 8 9) <<< 8)

/-- DUTY: bits 8:0, clamped (10_state.md R32). -/
def dutyStored (v : Word) : Word := clamp256 (v.extractLsb' 0 9)

/-- NAME_HI: bits 19:0 (10_state.md R33). -/
def nameHiStored (v : Word) : Word := v &&& 0x000FFFFF

/-- BLK: bits 15:0 (10_state.md R35). -/
def blkStored (v : Word) : Word := v &&& 0x0000FFFF

/-! ### Tone operands (45_tone.md R160). -/

/-- TONE_CFG.WAVE: true is Sine (10_state.md R28). -/
def waveSine (r : Regs) : Bool := r.toneCfg.getLsbD 0

/-- TONE_CFG.BPS16: true is 16 bits per sample (10_state.md R28). -/
def bps16 (r : Regs) : Bool := r.toneCfg.getLsbD 1

/-- TONE_CFG.INVERT (10_state.md R28). -/
def invert (r : Regs) : Bool := r.toneCfg.getLsbD 2

/-- TONE_CFG.VOLUME, bits 16:8 (10_state.md R28). -/
def volume (r : Regs) : Nat := (r.toneCfg.extractLsb' 8 9).toNat

/-- DUTY.DUTY, bits 8:0 (10_state.md R32). -/
def dutyValue (r : Regs) : Nat := (r.duty.extractLsb' 0 9).toNat

/-! ### The name and the explicit header fields (10_state.md R33, R35, 42_block_header.md R120). -/

/-- `NAME[i]`: characters 0 to 3 in NAME_LO, 4 and 5 in NAME_HI (42_block_header.md R120). -/
def nameChar (r : Regs) (i : Nat) : Byte :=
  if i < 4 then r.nameLo.extractLsb' (8 * i) 8 else r.nameHi.extractLsb' (8 * (i - 4)) 8

/-- The effective name length `nl = min(NAME_LEN, 6)` (42_block_header.md R120). -/
def nameLen (r : Regs) : Nat := min (r.nameHi.extractLsb' 16 4).toNat Config.nameBytes

/-- BLK.BLOCK_COUNT (10_state.md R35). -/
def blkCount (r : Regs) : Nat := (r.blk.extractLsb' 0 8).toNat

/-- BLK.BLOCK_INDEX (10_state.md R35). -/
def blkIndex (r : Regs) : Nat := (r.blk.extractLsb' 8 8).toNat

/-! ### The binary (10_state.md R34, 44_container_writer.md R150 to R152). -/

/-- ADDR.INIT (10_state.md R34). -/
def addrInit (r : Regs) : Nat := (r.addr.extractLsb' 0 16).toNat

/-- ADDR.END (10_state.md R34). -/
def addrEnd (r : Regs) : Nat := (r.addr.extractLsb' 16 16).toNat

/-- The size of an address range, 1 to 65536; none when the end lies below the initial address
(44_container_writer.md R150, 43_container_reader.md R136). -/
def rangeSize (init last : Nat) : Option Nat := if last < init then none else some (last - init + 1)

/-- The number of data blocks, `ceil(size / 256)` (44_container_writer.md R150). -/
def blockCount (size : Nat) : Nat := (size + (Config.blockBytes - 1)) / Config.blockBytes

/-- `n_k`, the payload bytes of data block k (44_container_writer.md R151). -/
def blockLen (size k : Nat) : Nat :=
  if k < blockCount size then Config.blockBytes else size - Config.blockBytes * (blockCount size - 1)

/-- The exact container length for one binary of `size` bytes (44_container_writer.md R152). -/
def reqSize (size : Nat) : Nat := 25 + 17 * blockCount size + size

/-! ### The regions (10_state.md R36, R37, 20_memory.md R58). -/

/-- The address of byte i of a region, modulo 2^32 (20_memory.md R58). -/
def effAddr (base : Word) (i : Nat) : Nat := (base.toNat + i) % 2 ^ 32

/-- Is the address one of the `len` bytes from `base` on, modulo 2^32? -/
def inRegion (base len : Word) (a : Nat) : Bool := (BitVec.ofNat 32 a - base).toNat < len.toNat

/-- Do the input and the output region share an address, modulo 2^32 (70_reset_and_hazards.md R218)? Two runs of
addresses on a circle meet exactly when one of them starts inside the other. -/
def regionsOverlap (r : Regs) : Bool :=
  r.srcLen != 0 && r.dstLen != 0 &&
    (decide ((r.dstBase - r.srcBase).toNat < r.srcLen.toNat) ||
      decide ((r.srcBase - r.dstBase).toNat < r.dstLen.toNat))

end Sys2Proof.Machine
end

