-- ==== Sys2Proof/Machine/Codec.lean ====
section
/-! DEFINITION. The byte formats (30_encoding.md R80 to R88): little-endian fields, the checksum, the header record, the
frame, the container image, the decoded name. Byte strings here are values, not memory (00_scope.md R11). -/

namespace Sys2Proof.Machine

/-- `LE16(v)` (00_scope.md R9). -/
def le16 (v : Nat) : List Byte := [BitVec.ofNat 8 v, BitVec.ofNat 8 (v / 256)]

/-- `LE32(v)` (00_scope.md R9). -/
def le32 (v : Nat) : List Byte :=
  [BitVec.ofNat 8 v, BitVec.ofNat 8 (v / 256), BitVec.ofNat 8 (v / 65536), BitVec.ofNat 8 (v / 16777216)]

/-- The number two little-endian bytes hold; the OR of R9 is a sum, since the bits are disjoint. -/
def le16Value (lo hi : Byte) : Nat := lo.toNat + 256 * hi.toNat

/-- The bytes of a tag, in order (20_memory.md R52). -/
def tagBytes (t : Tag) : List Byte := [t.b0, t.b1]

/-- The bytes of the magic, in order (20_memory.md R52). -/
def magicBytes (m : Magic) : List Byte := [m.b0, m.b1, m.b2, m.b3]

/-- `fold(seed, s)`: the XOR of the seed and every byte (00_scope.md R10). -/
def fold (seed : Byte) (s : List Byte) : Byte := s.foldl (fun acc b => acc ^^^ b) seed

/-- `checksum(s) = fold(0xFF, s)` (41_chunk_codec.md R110). -/
def checksum (s : List Byte) : Byte := fold Config.cksumSeed s

/-- The name field of a header record: each character with bit 7 set, then the pad (42_block_header.md R121). -/
def nameField (r : Regs) : List Byte :=
  (List.range Config.nameBytes).map fun i => if i < nameLen r then nameChar r i ||| 0x80 else Config.namePad

/-- `hdr(NAME, bc, bi)`, the 8-byte header record (42_block_header.md R121). -/
def hdr (r : Regs) (bc bi : Nat) : List Byte := nameField r ++ [BitVec.ofNat 8 bc, BitVec.ofNat 8 bi]

/-- `frame(h, p)` (41_chunk_codec.md R111). -/
def frame (h p : List Byte) : List Byte := h ++ p ++ [checksum (h ++ p)]

/-- `chunkPayloadLength(n)` (41_chunk_codec.md R112). -/
def chunkPayloadLength (n : Nat) : Nat := 8 + n + 1

/-- The payload of data block k (44_container_writer.md R151). -/
def blockPayload (size : Nat) (data : List Byte) (k : Nat) : List Byte :=
  (data.drop (Config.blockBytes * (k - 1))).take (blockLen size k)

/-- Frame 0 of a binary, with the address record (44_container_writer.md R154, 30_encoding.md R85). -/
def frame0 (r : Regs) (size : Nat) : List Byte :=
  frame (hdr r (blockCount size) 0) (le16 (addrInit r) ++ le16 (addrEnd r))

/-- Frame k of a binary, k from 1 to B (44_container_writer.md R154). -/
def frameK (r : Regs) (size : Nat) (data : List Byte) (k : Nat) : List Byte :=
  frame (hdr r (blockCount size) k) (blockPayload size data k)

/-- A marker chunk and then the DATA chunk that carries the frame f (30_encoding.md R82, R83). -/
def markedChunk (p : Params) (f : List Byte) : List Byte :=
  tagBytes p.tagMarker ++ le16 0 ++ tagBytes p.tagData ++ le16 f.length ++ f

/-- `image(NAME, INIT, END, data)`, the container of one binary (44_container_writer.md R154). -/
def image (p : Params) (r : Regs) (size : Nat) (data : List Byte) : List Byte :=
  magicBytes p.magic ++ markedChunk p (frame0 r size) ++
    (List.range (blockCount size)).flatMap fun j => markedChunk p (frameK r size data (j + 1))

/-- The checksum byte of a frame: its last byte (30_encoding.md R87). -/
def frameCksum (f : List Byte) : Byte := f.getLastD 0

/-- The stripped name bytes (43_container_reader.md R137). -/
def decodedName (raw : List Byte) : List Byte := raw.map fun b => b &&& 0x7F

/-- The decoded name length: 6 minus the number of trailing 0x20 bytes (43_container_reader.md R137). -/
def decodedNameLen (raw : List Byte) : Nat :=
  Config.nameBytes - ((decodedName raw).reverse.takeWhile fun b => b == 0x20).length

end Sys2Proof.Machine
end

