-- ==== Sys2Proof/Machine/Flags.lean ====
section
/-! DEFINITION. The flags of the block: error bits, control bits, the STATUS word, the interrupt level, write-one-to-clear
(10_state.md R23 to R26, R47, 60_exceptions.md R190, R196). -/

namespace Sys2Proof.Machine

/-- The code of an error: its bit position in ERR and LAST_ERR (60_exceptions.md R190). -/
def errCode : ErrKind → Nat
  | .invalidMagic => 0
  | .truncated => 1
  | .allocFail => 2
  | .writeFail => 3
  | .invalidFreq => 4
  | .checksumMismatch => 5
  | .invalidBinary => 6
  | .malformedChunk => 7
  | .unknownTag => 8
  | .illegalCmd => 9
  | .overrun => 10

/-- The error's bit as a register word. -/
def errBit (e : ErrKind) : Word := 1#32 <<< errCode e

/-- The error bits ERR defines; bits 31:11 are reserved (10_state.md R25). -/
def errMask : Word := 0x000007FF

/-- The error bits LAST_ERR can hold: bit 10 is always 0 there (10_state.md R26). -/
def lastErrMask : Word := 0x000003FF

/-- Clear the bits written as 1 (10_state.md R22, 40_command.md R107). -/
def w1c (old v : Word) : Word := old &&& ~~~v

/-- CTRL.VERIFY_CKSUM (10_state.md R24). -/
def verifyCksum (r : Regs) : Bool := r.ctrl.getLsbD 0

/-- CTRL.STRICT_TAGS (10_state.md R24). -/
def strictTags (r : Regs) : Bool := r.ctrl.getLsbD 1

/-- CTRL.IRQ_EN (10_state.md R24). -/
def irqEn (r : Regs) : Bool := r.ctrl.getLsbD 2

/-- The interrupt output, and STATUS.IRQ: DONE AND CTRL.IRQ_EN (60_exceptions.md R196). -/
def irq (s : State) : Bool := s.done && irqEn s.regs

/-- The word STATUS reads as: BUSY, DONE, IRQ in bits 0, 1, 2, the rest 0 (10_state.md R23). -/
def statusWord (s : State) : Word :=
  (0 : BitVec 29) ++ BitVec.ofBool (irq s) ++ BitVec.ofBool s.done ++ BitVec.ofBool s.busy

end Sys2Proof.Machine
end

