-- ==== Sys2Proof/Machine/Ops.lean ====
section
/-! DEFINITION. The named operations every command goes through: memory, the sample port, recording an error and
acknowledging it, the start and the completion of a command, the engine's steps, register reads and writes, reset. -/

namespace Sys2Proof.Machine

/-! ### Memory (20_memory.md R50 to R58) -/

/-- What an address reads as that no cell lists (log entry 6). -/
def Memory.unlisted : Byte := 0x00

/-- One byte of memory. Reading has no side effect (20_memory.md R56). -/
def Memory.read : Memory → Nat → Byte
  | [], _ => Memory.unlisted
  | (k, b) :: m, a => if k = a then b else Memory.read m a

/-- Put a byte at an address of a canonical memory, keeping the addresses rising and listing no unlisted value. -/
def Memory.write : Memory → Nat → Byte → Memory
  | [], a, b => if b = Memory.unlisted then [] else [(a, b)]
  | (k, c) :: m, a, b =>
    if a < k then (if b = Memory.unlisted then (k, c) :: m else (a, b) :: (k, c) :: m)
    else if a = k then (if b = Memory.unlisted then m else (a, b) :: m)
    else (k, c) :: Memory.write m a b

/-- The canonical form: addresses strictly rising and inside the 2^32-byte space, no cell with the unlisted value. -/
abbrev Memory.wf (m : Memory) : Prop :=
  m.Pairwise (fun x y => x.1 < y.1) ∧ ∀ c ∈ m, c.1 < 2 ^ 32 ∧ c.2 ≠ Memory.unlisted

/-- `MemRead(base + off, n)` (00_scope.md R10): n consecutive bytes, each address modulo 2^32. -/
def memRead (m : Memory) (base : Word) (off n : Nat) : List Byte :=
  (List.range n).map fun i => Memory.read m (effAddr base (off + i))

/-- `MemRead(base + off, n)` as engine steps, one byte each, ascending (20_memory.md R55; log entry 10). -/
def loadOps (m : Memory) (base : Word) (off n : Nat) : List EngineOp :=
  (List.range n).map fun i => .load (effAddr base (off + i)) (Memory.read m (effAddr base (off + i)))

/-- `MemWrite(base + off, n, bs)` (00_scope.md R10) as engine steps, one byte each, ascending (20_memory.md R55). -/
def storeOps (base : Word) (off : Nat) : List Byte → List EngineOp
  | [] => []
  | b :: bs => .store (effAddr base off) b :: storeOps base (off + 1) bs

/-! ### Errors: recording one, and the host's acknowledgement (60_exceptions.md R191, R194, R195) -/

/-- Record an error: its bit in LAST_ERR and in ERR (60_exceptions.md R191). There is no other entry: no mode, no
vector, no saved program counter (R194). A `raise` is this step with nothing of the command after it but completion. -/
def recordErr (e : ErrKind) (s : State) : State :=
  { s with lastErr := s.lastErr ||| errBit e, err := s.err ||| errBit e }

/-- A register write while BUSY = 1 is dropped and sets ERR.OVERRUN, not LAST_ERR (40_command.md R103). -/
def overrun (s : State) : State := { s with err := s.err ||| errBit .overrun }

/-- The host's acknowledgement of completion: a write of v to STATUS clears DONE when v[1] = 1 (40_command.md R107). -/
def ackStatus (v : Word) (s : State) : State := { s with done := s.done && !v.getLsbD 1 }

/-- The host's acknowledgement of errors: a write of v to ERR clears every bit written 1 (40_command.md R107). -/
def ackErr (v : Word) (s : State) : State := { s with err := w1c s.err v }

/-! ### The sample port (20_memory.md R62, 45_tone.md R172) -/

/-- The sink's next answer. -/
def sinkAnswer (k : Sink) : SinkAnswer := k.answers.headD k.thereafter

/-- The sink after it has given its next answer. -/
def sinkRest (k : Sink) : Sink := { k with answers := k.answers.tail }

/-- `Push(x)` once the sink has answered: the sample is on the port with the answer (20_memory.md R62). The place in the
tone moves with the push; a silence has none and leaves it as it is (log entry 9). -/
def answerPush (pos : Option TonePos) (x : Sample) (accepted : Bool) (s : State) : State :=
  { s with tone := pos.getD s.tone, sink := sinkRest s.sink, port := ⟨x, accepted⟩ :: s.port }

/-- `SAMPLE_COUNT <- (SAMPLE_COUNT + 1) mod 2^32` (45_tone.md R172). -/
def countOffer (s : State) : State := { s with res := { s.res with sampleCount := s.res.sampleCount + 1 } }

/-- What `emit` does with the answer r of its push, which the newest entry of the port keeps: RESULT counts an
acceptance, a rejection flags WRITE_FAIL (45_tone.md R172). -/
def countAnswer (s : State) : State :=
  match s.port with
  | [] => s
  | p :: _ =>
    if p.accepted then { s with res := { s.res with result := s.res.result + 1 } } else recordErr .writeFail s

/-- `emit(x)`: a push and the two register updates after it, a step each (45_tone.md R172, 70_reset_and_hazards.md
R221). -/
def emitOps (pos : Option TonePos) (x : Sample) : List EngineOp := [.push pos x, .countOffer, .countAnswer]

/-! ### Start and completion of a command (40_command.md R101, R102) -/

/-- The start effects. CKSUM and ERR are not changed (40_command.md R101). -/
def startCmd (s : State) : State :=
  { s with
    busy := true
    done := false
    lastErr := 0
    res := { s.res with result := 0, outLen := 0, sampleCount := 0, nbin := 0 }
    seq := .run }

/-- The completion effects (40_command.md R102). -/
def completeCmd (s : State) : State := { s with seq := .idle, busy := false, done := true }

/-! ### The engine (70_reset_and_hazards.md R221) -/

/-- One engine step; none when it is a push the sink does not answer (70_reset_and_hazards.md R221). -/
def applyOp : EngineOp → State → Option State
  | .load _ _, s => some s
  | .store a b, s => some { s with mem := Memory.write s.mem a b }
  | .push pos x, s =>
    match sinkAnswer s.sink with
    | .accept => some (answerPush pos x true s)
    | .reject => some (answerPush pos x false s)
    | .silent => none
  | .countOffer, s => some (countOffer s)
  | .countAnswer, s => some (countAnswer s)
  | .record e, s => some (recordErr e s)
  | .setResult v, s => some { s with res := { s.res with result := v } }
  | .setOutLen v, s => some { s with res := { s.res with outLen := v } }
  | .setCksum b, s => some { s with res := { s.res with cksum := b } }
  | .setNbin v, s => some { s with res := { s.res with nbin := v } }
  | .scan c, s => some { s with scan := c }
  | .tape p, s => some { s with tape := p }
  | .complete, s => some (completeCmd s)

/-- Perform engine steps: all of them, or at most `n` of them, or as far as the sink answers. What is left stays in
`todo`. -/
def runOps (limit : Option Nat) : List EngineOp → State → State
  | [], s => { s with todo := [] }
  | op :: ops, s =>
    if limit = some 0 then { s with todo := op :: ops }
    else
      match applyOp op s with
      | none => { s with todo := op :: ops }
      | some s' => runOps (limit.map (· - 1)) ops s'

/-- How many engine steps come before the host's next access: no limit when the host waits for completion or has
nothing more to do (log entry 2). -/
def stepLimit : List HostEvent → Option Nat
  | ⟨.afterSteps n, _⟩ :: _ => some n
  | _ => none

/-- The host's next access is due: the engine has used its steps up, or can take no more of them (log entries 2 and
15). -/
def spendLimit : List HostEvent → List HostEvent
  | ⟨.afterSteps _, act⟩ :: rest => ⟨.afterSteps 0, act⟩ :: rest
  | evs => evs

/-- The engine goes on until the command completes, the host's next access is due, or the sink does not answer. In the
last case an access that waits for engine steps is due as well, since no further step comes before it: the model's choice
(log entry 15), for the spec is untimed and does not say when a host access falls while a push is unanswered. -/
def engineRun (s : State) : State :=
  match s.seq with
  | .idle => s
  | .run =>
    let s1 := runOps (stepLimit s.host) s.todo s
    { s1 with host := spendLimit s1.host }

/-- A write to CMD: dropped with OVERRUN while BUSY = 1 (40_command.md R103); else the command starts and the engine
performs the steps `plan` and then completes (R100). `plan` is computed from the state at the CMD write: the command's
reads see the memory as it was then (20_memory.md R60 (3); log entry 1), and each of them is a step of the plan. -/
def runCommand (plan : State → List EngineOp) (s : State) : Host.Outcome State Fault Refusal :=
  if s.busy then .next (engineRun (overrun s))
  else .next (engineRun { startCmd s with todo := plan s ++ [.complete] })

/-- `runCommand` for the three commands that read one region and write the other: a launch with overlapping regions is
refused (70_reset_and_hazards.md R218; log entry 13). -/
def runDisjoint (plan : State → List EngineOp) (s : State) : Host.Outcome State Fault Refusal :=
  if !s.busy && regionsOverlap s.regs then .refused .regionOverlap else runCommand plan s

/-! ### Register writes and reads (10_state.md R22, 40_command.md R103, R106, R107) -/

/-- A write to a register other than CMD while idle. Read-only registers and reserved offsets ignore it. -/
def writeReg (r : Option Reg) (v : Word) (s : State) : State :=
  match r with
  | some .status => ackStatus v s
  | some .err => ackErr v s
  | some .ctrl => { s with regs := { s.regs with ctrl := ctrlStored v } }
  | some .toneCfg => { s with regs := { s.regs with toneCfg := toneCfgStored v } }
  | some .sampleRate => { s with regs := { s.regs with sampleRate := v } }
  | some .freq => { s with regs := { s.regs with freq := v } }
  | some .toneLen => { s with regs := { s.regs with toneLen := v } }
  | some .duty => { s with regs := { s.regs with duty := dutyStored v } }
  | some .nameLo => { s with regs := { s.regs with nameLo := v } }
  | some .nameHi => { s with regs := { s.regs with nameHi := nameHiStored v } }
  | some .addr => { s with regs := { s.regs with addr := v } }
  | some .blk => { s with regs := { s.regs with blk := blkStored v } }
  | some .srcBase => { s with regs := { s.regs with srcBase := v } }
  | some .srcLen => { s with regs := { s.regs with srcLen := v } }
  | some .dstBase => { s with regs := { s.regs with dstBase := v } }
  | some .dstLen => { s with regs := { s.regs with dstLen := v } }
  | some .cmd | some .lastErr | some .result | some .outLen | some .sampleCount | some .cksum | some .nbin => s
  | none => s

/-- The word a register holds; CMD and the reserved offsets read 0 (10_state.md R22, R27, R43). -/
def regWord (r : Option Reg) (s : State) : Word :=
  match r with
  | some .cmd => 0
  | some .status => statusWord s
  | some .err => s.err
  | some .lastErr => s.lastErr
  | some .ctrl => s.regs.ctrl
  | some .toneCfg => s.regs.toneCfg
  | some .sampleRate => s.regs.sampleRate
  | some .freq => s.regs.freq
  | some .toneLen => s.regs.toneLen
  | some .duty => s.regs.duty
  | some .nameLo => s.regs.nameLo
  | some .nameHi => s.regs.nameHi
  | some .addr => s.regs.addr
  | some .blk => s.regs.blk
  | some .srcBase => s.regs.srcBase
  | some .srcLen => s.regs.srcLen
  | some .dstBase => s.regs.dstBase
  | some .dstLen => s.regs.dstLen
  | some .result => s.res.result
  | some .outLen => s.res.outLen
  | some .sampleCount => s.res.sampleCount
  | some .cksum => (0 : BitVec 24) ++ s.res.cksum
  | some .nbin => s.res.nbin
  | none => 0

/-- The registers whose value is free while BUSY = 1 (10_state.md R46). -/
def isProgress : Option Reg → Bool
  | some .result | some .outLen | some .sampleCount | some .nbin | some .cksum => true
  | _ => false

/-- A host read of a register: the value goes to the host, the block does not change (40_command.md R106). While
BUSY = 1 a progress register returns a free value (10_state.md R46). -/
def hostReadReg (off : BitVec 8) (s : State) : State :=
  if s.busy && isProgress (regAt off) then
    { s with replies := .reg off (Config.busyRead s.draws) :: s.replies, draws := s.draws + 1 }
  else { s with replies := .reg off (regWord (regAt off) s) :: s.replies }

/-- A host write to a register other than CMD: dropped with OVERRUN while BUSY = 1 (40_command.md R103). -/
def hostWriteReg (off : BitVec 8) (v : Word) (s : State) : State :=
  if s.busy then engineRun (overrun s) else writeReg (regAt off) v s

/-! ### Reset (70_reset_and_hazards.md R210 to R212) -/

/-- Is the engine waiting for the sink to answer a push? -/
def stalled (s : State) : Bool :=
  match s.todo with
  | .push _ _ :: _ => sinkAnswer s.sink == .silent
  | _ => false

/-- A reset: every register takes its reset value and a running command ends at once, without completion
(70_reset_and_hazards.md R210, R212). Memory and the pushed samples stay (R211); so do the outside world's inputs and
the launch parameters. A push the sink has left unanswered is given up (log entry 12). -/
def resetBlock (s : State) : State :=
  { State.reset with
    mem := s.mem
    port := s.port
    sink := if s.busy && stalled s then sinkRest s.sink else s.sink
    host := s.host
    replies := s.replies
    draws := s.draws
    params := s.params }

end Sys2Proof.Machine
end

