-- ==== Sys2Proof/Machine/Chunk.lean ====
section
/-! DEFINITION. The chunk codec (41_chunk_codec.md): FRAME_BLOCK and CHUNK_LEN. -/

namespace Sys2Proof.Machine

/-- The frame FRAME_BLOCK builds: the header from the registers, the SRC_LEN bytes at SRC_BASE, the checksum. -/
def frameBlockBytes (s : State) : List Byte :=
  frame (hdr s.regs (blkCount s.regs) (blkIndex s.regs)) (memRead s.mem s.regs.srcBase 0 s.regs.srcLen.toNat)

/-- The pseudocode of 41_chunk_codec.md R113. -/
def planFrameBlock (s : State) : List EngineOp :=
  let n := s.regs.srcLen.toNat
  if s.regs.dstLen.toNat < 9 + n then [.record .allocFail]
  else
    loadOps s.mem s.regs.srcBase 0 n ++ storeOps s.regs.dstBase 0 (frameBlockBytes s) ++
      [.setOutLen (BitVec.ofNat 32 (9 + n)), .setResult (BitVec.ofNat 32 (chunkPayloadLength n)),
        .setCksum (frameCksum (frameBlockBytes s))]

/-- FRAME_BLOCK (41_chunk_codec.md R113). -/
def execFrameBlock (s : State) : Host.Outcome State Fault Refusal := runDisjoint planFrameBlock s

/-- The pseudocode of 41_chunk_codec.md R114. -/
def planChunkLen (s : State) : List EngineOp :=
  [.setResult (BitVec.ofNat 32 (chunkPayloadLength s.regs.srcLen.toNat))]

/-- CHUNK_LEN (41_chunk_codec.md R114). -/
def execChunkLen (s : State) : Host.Outcome State Fault Refusal := runCommand planChunkLen s

end Sys2Proof.Machine
end

