-- ==== Sys2Proof/Machine/Control.lean ====
section
/-! DEFINITION. Control operations (40_command.md): NOP, and the illegal command word. -/

namespace Sys2Proof.Machine

/-- NOP (40_command.md R104): only the start and completion effects. -/
def execNop (s : State) : Host.Outcome State Fault Refusal := runCommand (fun _ => []) s

/-- A command word that is not legal: `raise ILLEGAL_CMD` and nothing else (40_command.md R108). -/
def execIllegal (s : State) : Host.Outcome State Fault Refusal := runCommand (fun _ => [.record .illegalCmd]) s

end Sys2Proof.Machine
end

