-- ==== Sys2Proof/Machine/Header.lean ====
section
/-! DEFINITION. The block header builder (42_block_header.md): BUILD_HEADER. -/

namespace Sys2Proof.Machine

/-- The pseudocode of 42_block_header.md R122. -/
def planBuildHeader (s : State) : List EngineOp :=
  if s.regs.dstLen.toNat < 8 then [.record .allocFail]
  else storeOps s.regs.dstBase 0 (hdr s.regs (blkCount s.regs) (blkIndex s.regs)) ++ [.setOutLen 8]

/-- BUILD_HEADER (42_block_header.md R122). -/
def execBuildHeader (s : State) : Host.Outcome State Fault Refusal := runCommand planBuildHeader s

end Sys2Proof.Machine
end

