-- ==== Sys2Proof/Machine/Reader.lean ====
section
/-! DEFINITION. The container reader (43_container_reader.md): DECODE_CONTAINER. -/

namespace Sys2Proof.Machine

/-- What one chunk comes to: an error that ends the command, or engine steps and the scanner after the chunk. -/
inductive ChunkResult where
  | stop (e : ErrKind)
  | go (ops : List EngineOp) (c : Scan)
  deriving DecidableEq, Repr

/-- The output record of a binary with no data received yet (30_encoding.md R86, 43_container_reader.md R138). -/
def newRecord (raw : List Byte) (bc : Byte) (init last size : Nat) : List Byte :=
  decodedName raw ++ [BitVec.ofNat 8 (decodedNameLen raw), bc] ++ le16 init ++ le16 last ++ le32 size ++ le32 0 ++
    List.replicate size 0

/-- A block 0 with a body of 13 bytes: it opens a binary (43_container_reader.md R136, R138). -/
def openBinary (r : Regs) (body : List Byte) (c : Scan) : ChunkResult :=
  let init := le16Value (body.getD 8 0) (body.getD 9 0)
  let last := le16Value (body.getD 10 0) (body.getD 11 0)
  match rangeSize init last with
  | none => .stop .invalidBinary
  | some size =>
    if r.dstLen.toNat - c.dptr < 20 + size then .stop .allocFail
    else
      let c' : Scan :=
        { c with
          dptr := c.dptr + 20 + size
          nbin := c.nbin + 1
          opn := some { pos := c.dptr, size := size, wr := 0 } }
      .go
        (storeOps r.dstBase c.dptr (newRecord (body.take 6) (body.getD 6 0) init last size) ++
          [.scan c', .setNbin (BitVec.ofNat 32 c'.nbin), .setOutLen (BitVec.ofNat 32 c'.dptr)])
        c'

/-- A block with a nonzero index: it appends to the open binary (43_container_reader.md R139). -/
def appendBlock (r : Regs) (body : List Byte) (c : Scan) : ChunkResult :=
  match c.opn with
  | none => .stop .malformedChunk
  | some o =>
    let n := body.length - 9
    if o.size < o.wr + n then .stop .malformedChunk
    else
      let c' : Scan := { c with opn := some { o with wr := o.wr + n } }
      .go
        (storeOps r.dstBase (o.pos + 20 + o.wr) ((body.drop 8).take n) ++
          [.scan c'] ++ storeOps r.dstBase (o.pos + 16) (le32 (o.wr + n)))
        c'

/-- A DATA chunk (43_container_reader.md R134 to R139). -/
def dataChunk (r : Regs) (body : List Byte) (c : Scan) : ChunkResult :=
  if body.length < 9 then .stop .malformedChunk
  else if verifyCksum r && checksum body != 0 then .stop .checksumMismatch
  else if body.getD 7 0 = 0 then
    if body.length ≠ 13 then .stop .malformedChunk else openBinary r body c
  else appendBlock r body c

/-- Advance the scan over a chunk (43_container_reader.md R133). -/
def advance (next : Nat) : ChunkResult → ChunkResult
  | .stop e => .stop e
  | .go ops c => .go (ops ++ [.scan { c with off := next }]) { c with off := next }

/-- What one iteration of the scan loop decides and does, its reads apart, at an offset below SRC_LEN
(43_container_reader.md R130, R132, R133). -/
def scanChunk (s : State) (c : Scan) : ChunkResult :=
  let r := s.regs
  if r.srcLen.toNat - c.off < 4 then .stop .truncated
  else
    let tag := memRead s.mem r.srcBase c.off 2
    let len := le16Value (Memory.read s.mem (effAddr r.srcBase (c.off + 2)))
      (Memory.read s.mem (effAddr r.srcBase (c.off + 3)))
    if r.srcLen.toNat - c.off - 4 < len then .stop .truncated
    else
      advance (c.off + 4 + len)
        (if tag = tagBytes s.params.tagData then dataChunk r (memRead s.mem r.srcBase (c.off + 4) len) c
        else if tag = tagBytes s.params.tagMarker then .go [] c
        else if strictTags r then .stop .unknownTag
        else .go [] c)

/-- The reads of one iteration of the scan loop, in the order of the pseudocode of 43_container_reader.md R130: the chunk
header when 4 bytes remain, then the body of a DATA chunk that lies in the input and has at least 9 bytes. All of them
come before the chunk's writes. How often and in which order a byte is read is the model's choice (20_memory.md R56; log
entry 10). -/
def chunkLoads (s : State) (c : Scan) : List EngineOp :=
  let r := s.regs
  if r.srcLen.toNat - c.off < 4 then []
  else
    let len := le16Value (Memory.read s.mem (effAddr r.srcBase (c.off + 2)))
      (Memory.read s.mem (effAddr r.srcBase (c.off + 3)))
    loadOps s.mem r.srcBase c.off 4 ++
      (if len ≤ r.srcLen.toNat - c.off - 4 ∧ memRead s.mem r.srcBase c.off 2 = tagBytes s.params.tagData ∧ 9 ≤ len then
        loadOps s.mem r.srcBase (c.off + 4) len
      else [])

/-- The scan loop (43_container_reader.md R130, R140). The first argument bounds the iterations: each one advances by at
least 4, so SRC_LEN of them are more than enough (`scanLoop_fuel` in Laws/Reader.lean). -/
def scanLoop (s : State) : Nat → Scan → List EngineOp
  | 0, _ => []
  | fuel + 1, c =>
    if c.off < s.regs.srcLen.toNat then
      chunkLoads s c ++
        match scanChunk s c with
        | .stop e => [.record e]
        | .go ops c' => ops ++ scanLoop s fuel c'
    else []

/-- The scanner at the start of a decode (43_container_reader.md R130). -/
def scanStart : Scan where
  off  := 4
  dptr := 0
  nbin := 0
  opn  := none

/-- The pseudocode of 43_container_reader.md R130. -/
def planDecodeContainer (s : State) : List EngineOp :=
  if s.regs.srcLen.toNat < 4 then [.record .invalidMagic]
  else
    loadOps s.mem s.regs.srcBase 0 4 ++
      (if memRead s.mem s.regs.srcBase 0 4 ≠ magicBytes s.params.magic then [.record .invalidMagic]
      else .scan scanStart :: scanLoop s s.regs.srcLen.toNat scanStart)

/-- DECODE_CONTAINER (43_container_reader.md R130). -/
def execDecodeContainer (s : State) : Host.Outcome State Fault Refusal := runDisjoint planDecodeContainer s

end Sys2Proof.Machine
end

