-- ==== Sys2Proof/Machine/Tone.lean ====
section
/-! DEFINITION. The tone generator (45_tone.md): the sample arithmetic, RENDER_TONE and RENDER_SILENCE. -/

namespace Sys2Proof.Machine

/-- The amplitude `A = (VOL * MAXAMP) div 256` (45_tone.md R164). -/
def amplitude (r : Regs) : Nat := volume r * (if bps16 r then Config.maxAmp16 else Config.maxAmp8) / 256

/-- The high length `H = (L * D + 128) div 256` (45_tone.md R162). -/
def highLength (len duty : Nat) : Nat := (len * duty + 128) / 256

/-- `enc(v)`: 8-bit samples are unsigned and centred at 128, in bits 7:0; 16-bit samples are two's complement
(45_tone.md R165, 20_memory.md R62). -/
def encSample (r : Regs) (v : Int) : Sample :=
  if bps16 r then BitVec.ofInt 16 v else (BitVec.ofInt 8 (128 + v)).setWidth 16

/-- The level of sample k of a square cycle, before inversion (45_tone.md R166). -/
def squareLevel (amp high k : Nat) : Int := if k < high then (amp : Int) else -(amp : Int)

/-- The level of sample k of a cycle of L samples, inverted when INVERT = 1 (45_tone.md R166, R167). -/
def level (r : Regs) (len duty k : Nat) : Int :=
  let v := if waveSine r then Config.sine (amplitude r) k len else squareLevel (amplitude r) (highLength len duty) k
  if invert r then -v else v

/-- The cycle length `L = SR div f`, 0 for a tone that has none (45_tone.md R161). -/
def cycleLen (r : Regs) (f : Nat) : Nat := r.sampleRate.toNat / f

/-- Cycle c of a tone, its L samples in order (45_tone.md R168). That cycles count from 1 and samples from 0 is the
numbering of R168's loops (log entry 9). -/
def cycleOps (r : Regs) (len duty c : Nat) : List EngineOp :=
  (List.range len).flatMap fun k => emitOps (some { cycle := c, sample := k }) (encSample r (level r len duty k))

/-- `tone(f, N, D)` (45_tone.md R168). `SR div 0` is 0 here, so a zero frequency takes the same branch. -/
def toneOps (r : Regs) (f n duty : Nat) : List EngineOp :=
  if cycleLen r f = 0 then [.record .invalidFreq]
  else (List.range n).flatMap fun c => cycleOps r (cycleLen r f) duty (c + 1)

/-- The number of samples of a silence (45_tone.md R169). -/
def silenceLen (r : Regs) (ms : Nat) : Nat := r.sampleRate.toNat * ms / 1000

/-- `silence(ms)` (45_tone.md R169). -/
def silenceOps (r : Regs) (ms : Nat) : List EngineOp :=
  (List.replicate (silenceLen r ms) (emitOps none (encSample r 0))).flatten

/-- The pseudocode of 45_tone.md R170. -/
def planRenderTone (s : State) : List EngineOp :=
  toneOps s.regs s.regs.freq.toNat s.regs.toneLen.toNat (dutyValue s.regs)

/-- RENDER_TONE (45_tone.md R170). -/
def execRenderTone (s : State) : Host.Outcome State Fault Refusal := runCommand planRenderTone s

/-- The pseudocode of 45_tone.md R171. -/
def planRenderSilence (s : State) : List EngineOp := silenceOps s.regs s.regs.toneLen.toNat

/-- RENDER_SILENCE (45_tone.md R171). -/
def execRenderSilence (s : State) : Host.Outcome State Fault Refusal := runCommand planRenderSilence s

end Sys2Proof.Machine
end

