-- ==== Sys2Proof/Machine/Writer.lean ====
section
/-! DEFINITION. The container writer (44_container_writer.md): REQ_SIZE and ENCODE_CONTAINER. -/

namespace Sys2Proof.Machine

/-- The size of the binary ADDR describes (44_container_writer.md R150). -/
def binarySize (r : Regs) : Option Nat := rangeSize (addrInit r) (addrEnd r)

/-- The size of a binary that is whole: the payload has exactly that many bytes (44_container_writer.md R155,
46_tape.md R180). -/
def validSize (r : Regs) : Option Nat :=
  match binarySize r with
  | none => none
  | some size => if r.srcLen.toNat = size then some size else none

/-- The pseudocode of 44_container_writer.md R153. -/
def planReqSize (s : State) : List EngineOp :=
  match binarySize s.regs with
  | none => [.record .invalidBinary]
  | some size => [.setResult (BitVec.ofNat 32 (reqSize size))]

/-- REQ_SIZE (44_container_writer.md R153). -/
def execReqSize (s : State) : Host.Outcome State Fault Refusal := runCommand planReqSize s

/-- The payload of the binary: the SRC_LEN bytes at SRC_BASE. -/
def payload (s : State) : List Byte := memRead s.mem s.regs.srcBase 0 s.regs.srcLen.toNat

/-- The pseudocode of 44_container_writer.md R155. -/
def planEncodeContainer (s : State) : List EngineOp :=
  match validSize s.regs with
  | none => [.record .invalidBinary]
  | some size =>
    if s.regs.dstLen.toNat < reqSize size then [.record .allocFail]
    else
      loadOps s.mem s.regs.srcBase 0 size ++ storeOps s.regs.dstBase 0 (image s.params s.regs size (payload s)) ++
        [.setOutLen (BitVec.ofNat 32 (reqSize size)), .setResult (BitVec.ofNat 32 (reqSize size)),
          .setCksum (frameCksum (frameK s.regs size (payload s) (blockCount size)))]

/-- ENCODE_CONTAINER (44_container_writer.md R155). -/
def execEncodeContainer (s : State) : Host.Outcome State Fault Refusal := runDisjoint planEncodeContainer s

end Sys2Proof.Machine
end

