-- ==== Sys2Proof/Machine/Tape.lean ====
section
/-! DEFINITION. The tape encoder (46_tape.md): ENCODE_TAPE. -/

namespace Sys2Proof.Machine

/-- Every tape tone has duty 128 (46_tape.md R183). -/
def tapeDuty : Nat := 128

/-- The tone of one bit, BIT_CYCLES = `cyc` cycles long: 1000 Hz for a 1, 2000 Hz for a 0 (46_tape.md R182). -/
def bitTone (cyc : Nat) (r : Regs) (b : Bool) : List EngineOp := toneOps r (if b then 1000 else 2000) cyc tapeDuty

/-- The bits of a frame in the order they are modulated: bytes ascending, each most significant bit first
(46_tape.md R182, 20_memory.md R53). -/
def frameBits (f : List Byte) : List Bool := f.flatMap fun b => (List.range 8).map fun i => b.getLsbD (7 - i)

/-- `bits(f)` (46_tape.md R182). That the bit position counts from 0 in modulation order is the model's choice (log
entry 9). -/
def bitsOps (cyc : Nat) (r : Regs) (phase : TapePhase) (k : Nat) (f : List Byte) : List EngineOp :=
  (frameBits f).zipIdx.flatMap fun x => .tape { phase := phase, k := k, bit := x.2 } :: bitTone cyc r x.1

/-- `preamble()`: the marker tone and one bit-0 sync tone (46_tape.md R183). -/
def preambleOps (r : Regs) : List EngineOp := toneOps r 720 30 tapeDuty ++ toneOps r 2000 1 tapeDuty

/-- A block on tape: the preamble, then the bits of its frame (46_tape.md R184). The bit position 0 during the preamble is
the model's choice (log entry 9). -/
def blockOps (cyc : Nat) (r : Regs) (pre bits : TapePhase) (k : Nat) (f : List Byte) : List EngineOp :=
  .tape { phase := pre, k := k, bit := 0 } :: preambleOps r ++ bitsOps cyc r bits k f

/-- The sequence of 46_tape.md R184. 10_state.md R45 gives the block counter and the bit position no value in the phases
that have no block or no bit: k = 0 in SIL_PRE, LEADER, PRE_0 and BITS_0, k = B in TRAILER and SIL_POST, and bit = 0
outside the BITS phases are the model's choice (log entry 9). -/
def tapeOps (cyc : Nat) (r : Regs) (size : Nat) (data : List Byte) : List EngineOp :=
  .tape { phase := .silPre, k := 0, bit := 0 } :: silenceOps r 100 ++
    .tape { phase := .leader, k := 0, bit := 0 } :: toneOps r 1000 1000 tapeDuty ++
    blockOps cyc r .pre0 .bits0 0 (frame0 r size) ++
    ((List.range (blockCount size)).flatMap fun j => blockOps cyc r .preK .bitsK (j + 1) (frameK r size data (j + 1))) ++
    .tape { phase := .trailer, k := blockCount size, bit := 0 } :: toneOps r 100 2 tapeDuty ++
    .tape { phase := .silPost, k := blockCount size, bit := 0 } :: silenceOps r 200

/-- The pseudocode of 46_tape.md R185. -/
def planEncodeTape (s : State) : List EngineOp :=
  match validSize s.regs with
  | none => [.record .invalidBinary]
  | some size =>
    loadOps s.mem s.regs.srcBase 0 size ++ tapeOps s.params.bitCycles s.regs size (payload s) ++
      [.setCksum (frameCksum (frameK s.regs size (payload s) (blockCount size)))]

/-- ENCODE_TAPE (46_tape.md R185). -/
def execEncodeTape (s : State) : Host.Outcome State Fault Refusal := runCommand planEncodeTape s

end Sys2Proof.Machine
end

