-- ==== Sys2Proof/Machine/Dispatch.lean ====
section
/-! DEFINITION. The meaning of every command, one arm per constructor. -/

namespace Sys2Proof.Machine

def exec (i : Instr) (s : State) : Host.Outcome State Fault Refusal :=
  match i with
  | .nop => Sys2Proof.Machine.execNop s
  | .frameBlock => Sys2Proof.Machine.execFrameBlock s
  | .chunkLen => Sys2Proof.Machine.execChunkLen s
  | .buildHeader => Sys2Proof.Machine.execBuildHeader s
  | .decodeContainer => Sys2Proof.Machine.execDecodeContainer s
  | .reqSize => Sys2Proof.Machine.execReqSize s
  | .encodeContainer => Sys2Proof.Machine.execEncodeContainer s
  | .renderTone => Sys2Proof.Machine.execRenderTone s
  | .renderSilence => Sys2Proof.Machine.execRenderSilence s
  | .encodeTape => Sys2Proof.Machine.execEncodeTape s

end Sys2Proof.Machine
end

