-- ==== Sys2Proof/Machine/Bus.lean ====
section
/-! DEFINITION. The host's accesses (40_command.md R100 to R108, 70_reset_and_hazards.md R212, R216, R217). -/

namespace Sys2Proof.Machine

/-- A write of w to CMD: the command it encodes, or the illegal command (40_command.md R100, R108). -/
def issue (w : Word) (s : State) : Host.Outcome State Fault Refusal :=
  match decode w with
  | .ok i => exec i s
  | .error _ => execIllegal s

/-- Does memory address a lie in the input region the registers describe (10_state.md R36)? -/
def inInput (s : State) (a : Word) : Bool := inRegion s.regs.srcBase s.regs.srcLen a.toNat

/-- Does memory address a lie in the output region the registers describe (10_state.md R37)? -/
def inOutput (s : State) (a : Word) : Bool := inRegion s.regs.dstBase s.regs.dstLen a.toNat

/-- The effect of one host access; where a command runs, the engine then goes on until the next one is due. -/
def hostAct (act : HostAct) (s : State) : Host.Outcome State Fault Refusal :=
  match act with
  | .regWrite off v =>
    if alignedOffset off then
      if regAt off = some .cmd then issue v s else .next (hostWriteReg off v s)
    else .refused .misalignedAccess
  | .regRead off => if alignedOffset off then .next (engineRun (hostReadReg off s)) else .refused .misalignedAccess
  | .oddAccess _ _ => .refused .accessWidth
  | .memWrite a b =>
    if s.busy && inInput s a then .refused .inputRegionBusy
    else if s.busy && inOutput s a then .refused .outputRegionBusy
    else .next (engineRun { s with mem := Memory.write s.mem a.toNat b })
  | .memRead a =>
    if s.busy && inOutput s a then .refused .outputRegionBusy
    else .next (engineRun { s with replies := .mem a (Memory.read s.mem a.toNat) :: s.replies })
  | .reset => .next (resetBlock s)

/-- Has the host's next access arrived? While idle, at once; while busy, when it has no engine steps left to wait for
(log entry 2). -/
def arrived (s : State) (e : HostEvent) : Bool := !s.busy || e.arrival == .afterSteps 0

/-- One step of the machine: the host's next access when it has arrived, else the engine goes on (an idle block stays as
it is, 60_exceptions.md R203; a busy one that the sink does not answer waits, 70_reset_and_hazards.md R221). -/
def machineStep (s : State) : Host.Outcome State Fault Refusal :=
  if s.busy && s.todo.isEmpty then .fault .busyWithoutWork
  else
    match s.host with
    | [] => .next (engineRun s)
    | e :: rest => if arrived s e then hostAct e.act { s with host := rest } else .next (engineRun s)

/-- The block idle, with one host write still to come: that of the command word (log entry 11). -/
def withCommandWord (s : State) (w : Word) : State :=
  { s with
    busy := false
    seq := .idle
    todo := []
    host := [{ arrival := .onCompletion, act := .regWrite (regOffset .cmd) w }] }

end Sys2Proof.Machine
end

