-- ==== Sys2Proof/Machine/Step.lean ====
section
/-! DEFINITION. One step of the machine, and where it takes its next command from. -/

namespace Sys2Proof.Machine

/-- One step: `machineStep` of Bus.lean. -/
def step (s : State) : Host.Outcome State Fault Refusal := machineStep s

/-- The state with a command word, `nbits` bits of the opcode table, as the host's next access (log entry 11). -/
def State.withFetchWord (s : State) (nbits w : Nat) : State := withCommandWord s (BitVec.ofNat 32 (w % 2 ^ nbits))

end Sys2Proof.Machine
end

