-- ==== Sys2Proof/Machine/Script.lean ====
section
/-! DEFINITION. The host script assembler (30_encoding.md R89 to R91): a statement becomes the host accesses the block
sees. Labels and branches are host control flow and stay outside the block. -/

namespace Sys2Proof.Machine

/-- The register write of `wr REG, value` (30_encoding.md R91). -/
def writeOf (r : Reg) (v : Word) : HostAct := .regWrite (regOffset r) v

/-- NAME_LO of a text: characters 0 to 3 (10_state.md R33). -/
def nameLoOf (text : List Byte) : Word := text.getD 3 0 ++ text.getD 2 0 ++ text.getD 1 0 ++ text.getD 0 0

/-- NAME_HI of a text: characters 4 and 5, and the length, at most 15 (10_state.md R33; log entry 21). -/
def nameHiOf (text : List Byte) : Word :=
  (0 : BitVec 12) ++ BitVec.ofNat 4 (min text.length 15) ++ text.getD 5 0 ++ text.getD 4 0

/-- The CTRL word of a `FIELD=value` list (30_encoding.md R89, 10_state.md R24). -/
def ctrlOf (verify strict irq : Bool) : Word :=
  (0 : BitVec 29) ++ BitVec.ofBool irq ++ BitVec.ofBool strict ++ BitVec.ofBool verify

/-- The TONE_CFG word of a `FIELD=value` list (30_encoding.md R89, 10_state.md R28). -/
def toneCfgOf (sine bits16 inv : Bool) (vol : BitVec 9) : Word :=
  (0 : BitVec 15) ++ vol ++ (0 : BitVec 5) ++ BitVec.ofBool inv ++ BitVec.ofBool bits16 ++ BitVec.ofBool sine

/-- The stores of a `mem` line. -/
def memActs (a : Word) : List Byte → List HostAct
  | [] => []
  | b :: bs => .memWrite a b :: memActs (a + 1) bs

/-- The accesses of a statement (30_encoding.md R89, R90). `wait` is its last read of STATUS, the one that sees DONE
(log entry 21). -/
def stmtActs : Stmt → List HostAct
  | .wr r v => [writeOf r v]
  | .rd r => [.regRead (regOffset r)]
  | .cmd i => [writeOf .cmd (encode i)]
  | .mem a bs => memActs a bs
  | .wait => [.regRead (regOffset .status)]
  | .ack => [writeOf .status 0x2]
  | .clrerr => [writeOf .err 0x7FF]
  | .name text => [writeOf .nameLo (nameLoOf text), writeOf .nameHi (nameHiOf text)]
  | .addr init last => [writeOf .addr (last ++ init)]
  | .src base len => [writeOf .srcBase base, writeOf .srcLen len]
  | .dst base len => [writeOf .dstBase base, writeOf .dstLen len]

/-- The host events of a statement: `wait` comes at completion, the accesses of any other statement as `arrival` says. -/
def assembleStmt (arrival : Arrival) (st : Stmt) : List HostEvent :=
  (stmtActs st).map fun act => { arrival := if st = .wait then .onCompletion else arrival, act := act }

/-- The host events of a straight-line script (30_encoding.md R91). -/
def assemble (arrival : Arrival) (script : List Stmt) : List HostEvent := script.flatMap (assembleStmt arrival)

end Sys2Proof.Machine
end

