-- ==== Sys2Proof/Safety.lean ====
section
/-! DEFINITION. The terms claims are stated in: the invariant of the machine, an idle block with a host that waits, a sink
that answers, and the states a completed command leaves. -/

namespace Sys2Proof.Machine

/-! ### The invariant -/

/-- Reserved bits of the control and operand registers are 0, VOLUME and DUTY are at most 256 (10_state.md R22, R24, R28,
R32, R33, R35). -/
abbrev regsLegal (r : Regs) : Prop :=
  r.ctrl &&& 0xFFFFFFF8 = 0 ∧ r.toneCfg &&& 0xFFFE00F8 = 0 ∧ volume r ≤ 256 ∧ r.duty.toNat ≤ 256 ∧
    r.nameHi &&& 0xFFF00000 = 0 ∧ r.blk &&& 0xFFFF0000 = 0

/-- Reserved bits of ERR are 0, and so are bit 10 and the reserved bits of LAST_ERR (10_state.md R25, R26). -/
abbrev errsLegal (s : State) : Prop := s.err &&& ~~~errMask = 0 ∧ s.lastErr &&& ~~~lastErrMask = 0

/-- An engine step a command may still have to perform before it completes: a read inside the input region (10_state.md
R36), a store inside the output region (R37), an error other than OVERRUN (R26), no completion. -/
def opLegal (r : Regs) : EngineOp → Bool
  | .load a _ => decide (a < 2 ^ 32) && inRegion r.srcBase r.srcLen a
  | .store a _ => decide (a < 2 ^ 32) && inRegion r.dstBase r.dstLen a
  | .record e => e != .overrun
  | .complete => false
  | .push _ _ | .countOffer | .countAnswer | .setResult _ | .setOutLen _ | .setCksum _ | .setNbin _ | .scan _
  | .tape _ => true

/-- The work of a running command: legal steps, then its completion, once (40_command.md R100, R102). -/
def todoLegal (r : Regs) : List EngineOp → Bool
  | [] => false
  | [.complete] => true
  | op :: ops => opLegal r op && todoLegal r ops

/-- The sequencer, BUSY, DONE and the work left agree (40_command.md R101, R102): idle means not busy and nothing left,
running means busy, not done, and work left. -/
abbrev seqLegal (s : State) : Prop :=
  (s.seq = .idle → s.busy = false ∧ s.todo = []) ∧
    (s.seq = .run → s.busy = true ∧ s.done = false ∧ todoLegal s.regs s.todo = true)

/-- Does the engine step read memory? -/
def isLoad : EngineOp → Bool
  | .load _ _ => true
  | .store _ _ | .push _ _ | .countOffer | .countAnswer | .record _ | .setResult _ | .setOutLen _ | .setCksum _
  | .setNbin _ | .scan _ | .tape _ | .complete => false

/-- Does the engine step write memory? -/
def isStore : EngineOp → Bool
  | .store _ _ => true
  | .load _ _ | .push _ _ | .countOffer | .countAnswer | .record _ | .setResult _ | .setOutLen _ | .setCksum _
  | .setNbin _ | .scan _ | .tape _ | .complete => false

/-- A read that is still to come finds in memory the byte it is said to read: the byte of the CMD write (20_memory.md R60
(3)). -/
def loadFresh (m : Memory) : EngineOp → Bool
  | .load a b => Memory.read m a == b
  | .store _ _ | .push _ _ | .countOffer | .countAnswer | .record _ | .setResult _ | .setOutLen _ | .setCksum _
  | .setNbin _ | .scan _ | .tape _ | .complete => true

/-- Every read still to come is fresh, and a command with reads and stores still to come has regions that share no
address, so that its stores keep it so (20_memory.md R56, R60 (3), 70_reset_and_hazards.md R217, R218). -/
abbrev readsFresh (s : State) : Prop :=
  s.todo.all (loadFresh s.mem) = true ∧
    (s.todo.any isLoad = true → s.todo.any isStore = true → regionsOverlap s.regs = false)

/-- The invariant of the machine. -/
abbrev Coherent (s : State) : Prop :=
  Memory.wf s.mem ∧ regsLegal s.regs ∧ errsLegal s ∧ seqLegal s ∧ readsFresh s ∧ s.params.wellFormed = true

/-! ### Conditions of completion -/

/-- The block is idle and the host's next access, if there is one, waits for completion (40_command.md R100). -/
abbrev Ready (s : State) : Prop := s.busy = false ∧ stepLimit s.host = none

/-- The sink answers every push (70_reset_and_hazards.md R221). -/
def sinkLive (k : Sink) : Bool := k.answers.all (fun a => a != .silent) && k.thereafter != .silent

/-- The sink's next n answers (20_memory.md R62). -/
def sinkAnswers : Nat → Sink → List SinkAnswer
  | 0, _ => []
  | n + 1, k => sinkAnswer k :: sinkAnswers n (sinkRest k)

/-- The sink after n answers. -/
def sinkAfter : Nat → Sink → Sink
  | 0, k => k
  | n + 1, k => sinkAfter n (sinkRest k)

/-- How many of the next n pushes the sink accepts. -/
def acceptedOf (n : Nat) (k : Sink) : Nat := (sinkAnswers n k).count .accept

/-- The pushes of the samples `xs`, in order, each with the sink's answer to it (20_memory.md R62). -/
def pushesOf (xs : List Sample) (k : Sink) : List Push :=
  List.zipWith (fun x a => ⟨x, a == .accept⟩) xs (sinkAnswers xs.length k)

/-- Those of the samples `xs` that the sink accepts, in order: a rejected sample is not delivered (20_memory.md R62). -/
def acceptedSamples (xs : List Sample) (k : Sink) : List Sample :=
  ((xs.zip (sinkAnswers xs.length k)).filter fun x => x.2 == .accept).map (·.1)

/-- The host access e is the next one, it has arrived, and the block is not in a state no run reaches (log entry 23):
the machine's next step is this access. -/
abbrev Due (s : State) (e : HostEvent) (rest : List HostEvent) : Prop :=
  s.host = e :: rest ∧ arrived s e = true ∧ (s.busy = true → s.todo ≠ [])

/-! ### Samples -/

/-- The samples of `tone(f, N, D)`, in order; none for a tone without a cycle length (45_tone.md R161, R168). -/
def toneSamples (r : Regs) (f n duty : Nat) : List Sample :=
  (List.range n).flatMap fun _ =>
    (List.range (cycleLen r f)).map fun k => encSample r (level r (cycleLen r f) duty k)

/-- The samples of `silence(ms)`: the centre level (45_tone.md R165, R169). -/
def silenceSamples (r : Regs) (ms : Nat) : List Sample :=
  List.replicate (r.sampleRate.toNat * ms / 1000) (if bps16 r then 0x0000 else 0x0080)

/-- The samples of a frame on tape, bit by bit, each bit BIT_CYCLES = `cyc` cycles long (46_tape.md R182). -/
def frameSamples (cyc : Nat) (r : Regs) (f : List Byte) : List Sample :=
  (frameBits f).flatMap fun b => if b then toneSamples r 1000 cyc 128 else toneSamples r 2000 cyc 128

/-- The samples of the preamble (46_tape.md R183). -/
def preambleSamples (r : Regs) : List Sample := toneSamples r 720 30 128 ++ toneSamples r 2000 1 128

/-- The frames of a binary in tape order: the header frame, then one per block (46_tape.md R181). -/
def tapeFrames (r : Regs) (size : Nat) (data : List Byte) : List (List Byte) :=
  frame0 r size :: (List.range (blockCount size)).map fun j => frameK r size data (j + 1)

/-- The samples of a tape (46_tape.md R184). -/
def tapeSamples (cyc : Nat) (r : Regs) (size : Nat) (data : List Byte) : List Sample :=
  silenceSamples r 100 ++ toneSamples r 1000 1000 128 ++
    ((tapeFrames r size data).flatMap fun f => preambleSamples r ++ frameSamples cyc r f) ++
    toneSamples r 100 2 128 ++ silenceSamples r 200

/-- The bits of all frames of a binary on tape (46_tape.md R187). -/
def tapeBits (r : Regs) (size : Nat) (data : List Byte) : List Bool := (tapeFrames r size data).flatMap frameBits

/-! ### Decoding, chunk by chunk -/

/-- `ScanTo s c t`: DECODE_CONTAINER, launched at s, has gone through some number of whole chunks without an error; its
scanner is c and its state t (43_container_reader.md R130, R140). The reads of the chunks leave no trace in the state
(20_memory.md R56). -/
inductive ScanTo (s : State) : Scan → State → Prop where
  /-- Before the first chunk, with the magic in place (R131). -/
  | start (hlen : 4 ≤ s.regs.srcLen.toNat) (hmagic : memRead s.mem s.regs.srcBase 0 4 = magicBytes s.params.magic) :
      ScanTo s scanStart { startCmd s with scan := scanStart, todo := [] }
  /-- One more chunk, which raises nothing. -/
  | chunk {c c' : Scan} {t : State} {ops : List EngineOp} (h : ScanTo s c t) (hoff : c.off < s.regs.srcLen.toNat)
      (hgo : scanChunk s c = .go ops c') : ScanTo s c' (runOps none ops t)

/-! ### What a completed command leaves -/

/-- The state of a completed command that did nothing else: the start and the completion effects (40_command.md R101,
R102). The scanner as it was is the model's choice (log entry 8), the places in tape and tone too (log entry 9). -/
def finished (s : State) : State :=
  { s with
    busy := false
    done := true
    lastErr := 0
    seq := .idle
    todo := []
    res := { s.res with result := 0, outLen := 0, sampleCount := 0, nbin := 0 } }

/-- The state of a command that raised e before any other effect (60_exceptions.md R191, R194). -/
def failed (e : ErrKind) (s : State) : State :=
  { finished s with lastErr := errBit e, err := s.err ||| errBit e }

/-- The host-visible samples delivered to the sink, oldest first (20_memory.md R62). -/
def delivered (s : State) : List Sample := (s.port.reverse.filter (·.accepted)).map (·.sample)

/-- The samples offered on the port, oldest first. -/
def offered (s : State) : List Sample := s.port.reverse.map (·.sample)

end Sys2Proof.Machine
end

