-- ==== Sys2Proof/Certificates/Slice0/Obligations.lean ====
section
/-! DEFINITION. The statements for the provers, rule by rule of the spec. Nothing is proved here. -/

open Sys2Proof Sys2Proof.Machine

/-! ### Encodings -/

/-- 30_encoding.md R73, R74: command words written out bit by bit from the opcode map, and words of no command. -/
def Obligations.SampleWordsDecode : Prop :=
  decode 0b00000000000000000000000000000000 = .ok .nop ∧
    decode 0b00000000000000000000000000000001 = .ok .frameBlock ∧
    decode 0b00000000000000000000000000000011 = .ok .buildHeader ∧
    decode 0b00000000000000000000000000000100 = .ok .decodeContainer ∧
    decode 0b00000000000000000000000000000110 = .ok .encodeContainer ∧
    decode 0b00000000000000000000000000000111 = .ok .renderTone ∧
    decode 0b00000000000000000000000000001001 = .ok .encodeTape ∧
    decode 0b00000000000000000000000000001010 = .error .reservedOpcode ∧
    decode 0b00000000000000000000000011111111 = .error .reservedOpcode ∧
    decode 0b00000000000000000000000100000000 = .error .nonzeroZ

/-- 30_encoding.md R70, R73, R75: decoding a command's word, its bus bytes or its table word gives the command back, for
every well-formed command. -/
def Obligations.DecodeInvertsEncode : Prop :=
  ∀ i : Instr, i.wellFormed = true →
    decode (encode i) = .ok i ∧ (∀ rest, decodeBytes (encodeBytes i ++ rest) = .ok (i, rest)) ∧
      decodeTableWord 32 (encode i).toNat = some i

/-- 30_encoding.md R71: of all 2^32 words exactly the ten encodings are commands; a word is legal exactly when bits 31:8
are 0 and bits 7:0 are one of the ten opcodes; any other word executes as the illegal command. -/
def Obligations.DecoderIsTotalAndExact : Prop :=
  ∀ w : Word,
    (∀ i, decode w = .ok i ↔ w = encode i) ∧
      ((∃ i, decode w = .ok i) ↔ w.extractLsb' 8 24 = 0 ∧ (w.extractLsb' 0 8).toNat < 10) ∧
      ((¬ ∃ i, decode w = .ok i) → ∀ s, issue w s = execIllegal s)

/-- 10_state.md R22, R43: the 23 registers at the offsets of the register map, by name; no other register, and the aligned
offsets from 0x5C on are reserved. -/
def Obligations.RegisterMapOffsets : Prop :=
  (∀ x ∈ (
      [(.cmd, 0x00), (.status, 0x04), (.err, 0x08), (.lastErr, 0x0C), (.ctrl, 0x10), (.toneCfg, 0x14),
        (.sampleRate, 0x18), (.freq, 0x1C), (.toneLen, 0x20), (.duty, 0x24), (.nameLo, 0x28), (.nameHi, 0x2C),
        (.addr, 0x30), (.blk, 0x34), (.srcBase, 0x38), (.srcLen, 0x3C), (.dstBase, 0x40), (.dstLen, 0x44),
        (.result, 0x48), (.outLen, 0x4C), (.sampleCount, 0x50), (.cksum, 0x54), (.nbin, 0x58)] : List (Reg × BitVec 8)),
    regOffset x.1 = x.2 ∧ regAt x.2 = some x.1) ∧
  (∀ r : Reg, alignedOffset (regOffset r) = true ∧ regAt (regOffset r) = some r) ∧
    (∀ off : BitVec 8, alignedOffset off = true →
      (∀ r, regAt off = some r → off = regOffset r) ∧ (regAt off = none ↔ 0x5C ≤ off.toNat))

/-- 30_encoding.md R90, R91: the pseudo-instructions of the host script syntax, as register transactions. -/
def Obligations.ScriptPseudoInstructions : Prop :=
  stmtActs (.name [0x54, 0x45, 0x53, 0x54]) = [.regWrite 0x28 0x54534554, .regWrite 0x2C 0x00040000] ∧
    stmtActs .ack = [.regWrite 0x04 0x2] ∧ stmtActs .clrerr = [.regWrite 0x08 0x7FF] ∧
    (∀ init last : BitVec 16, stmtActs (.addr init last) = [.regWrite 0x30 (last.setWidth 32 <<< 16 ||| init.setWidth 32)]) ∧
    (∀ b l : Word, stmtActs (.src b l) = [.regWrite 0x38 b, .regWrite 0x3C l] ∧
      stmtActs (.dst b l) = [.regWrite 0x40 b, .regWrite 0x44 l]) ∧
    (∀ i : Instr, stmtActs (.cmd i) = [.regWrite 0x00 ((opcode i).setWidth 32)])

/-! ### The step -/

/-- 40_command.md R100: when the host's next access has arrived at an idle block and writes to CMD a word that decodes to
i, the step is exec of i, with that access taken off the host's queue. The block has no program counter to advance. -/
def Obligations.StepRunsDecodedCommand : Prop :=
  ∀ (s : State) (arr : Arrival) (w : Word) (rest : List HostEvent) (i : Instr),
    s.busy = false → s.host = { arrival := arr, act := .regWrite 0x00 w } :: rest → decode w = .ok i →
      step s = exec i { s with host := rest }

/-- The model's command placement (log entry 11): the step after `withFetchWord` runs exactly the command of the table
word. -/
def Obligations.FetchWordRunsItsCommand : Prop :=
  ∀ (s : State) (nbits w : Nat) (i : Instr), decodeTableWord nbits w = some i →
    step (s.withFetchWord nbits w) = exec i { s with busy := false, seq := .idle, todo := [], host := [] }

/-- 40_command.md R108: an illegal command word records ILLEGAL_CMD in LAST_ERR and ERR, completes, and does nothing
else. -/
def Obligations.IllegalWordRaisesIllegalCmd : Prop :=
  ∀ (s : State) (arr : Arrival) (w : Word) (rest : List HostEvent) (e : DecodeReject),
    s.busy = false → s.host = { arrival := arr, act := .regWrite 0x00 w } :: rest → stepLimit rest = none →
      decode w = .error e →
      step s =
        .next
          { s with
            host := rest
            busy := false
            done := true
            seq := .idle
            todo := []
            lastErr := 0x200
            err := s.err ||| 0x200
            res := { s.res with result := 0, outLen := 0, sampleCount := 0, nbin := 0 } }

/-- 40_command.md R103: while BUSY = 1 a write to any register, CMD included, is dropped and sets ERR.OVERRUN; the
running command goes on. Where the host acts again before the engine does, nothing else changes at all. The third clause is
the model's reading (log entry 22, DEDUCED), not a sentence of R103: `exec` of any command at a BUSY block is that dropped
write, because a command is issued by a write to CMD and by nothing else. -/
def Obligations.WriteWhileBusyIsDropped : Prop :=
  ∀ (s : State) (off : BitVec 8) (v : Word) (rest : List HostEvent),
    s.busy = true → Due s { arrival := .afterSteps 0, act := .regWrite off v } rest → alignedOffset off = true →
      step s = .next (engineRun { s with host := rest, err := s.err ||| 0x400 }) ∧
        (stepLimit rest = some 0 → step s = .next { s with host := rest, err := s.err ||| 0x400 }) ∧
        ∀ i, exec i s = .next (engineRun { s with err := s.err ||| 0x400 })

/-- 10_state.md R22, R24, R28, R32, R33, R35, R43 and 40_command.md R105, R107: what a write to a register other than CMD
does on an idle block. The register written holds the legal value of what was written, every other register keeps its
value (STATUS.IRQ follows CTRL.IRQ_EN), read-only registers and reserved offsets ignore the write, and nothing else
changes. -/
def Obligations.IdleRegisterWrite : Prop :=
  ∀ (s : State) (e : HostEvent) (rest : List HostEvent) (off : BitVec 8) (v : Word),
    s.busy = false → Due s e rest → e.act = .regWrite off v → alignedOffset off = true → off ≠ 0x00 →
      ∃ t : State,
        step s = .next t ∧ t = { s with host := rest, regs := t.regs, err := t.err, done := t.done } ∧
          (∀ r, r ≠ .status → regAt off ≠ some r → regWord (some r) t = regWord (some r) s) ∧
          t.done = (s.done && !(off == 0x04 && v.getLsbD 1)) ∧
          match regAt off with
          | none => t = { s with host := rest }
          | some .cmd | some .lastErr | some .result | some .outLen | some .sampleCount | some .cksum | some .nbin =>
            t = { s with host := rest }
          | some .status => t = { s with host := rest, done := t.done }
          | some .err => t.err = s.err &&& ~~~v
          | some .ctrl => regWord (some .ctrl) t = v &&& 0x00000007
          | some .toneCfg =>
            regWord (some .toneCfg) t &&& 0xFFFE00FF = v &&& 0x00000007 ∧
              volume t.regs = min (v.extractLsb' 8 9).toNat 256
          | some .duty => (regWord (some .duty) t).toNat = min (v.extractLsb' 0 9).toNat 256
          | some .nameHi => regWord (some .nameHi) t = v &&& 0x000FFFFF
          | some .blk => regWord (some .blk) t = v &&& 0x0000FFFF
          | some r => regWord (some r) t = v

/-- 40_command.md R107: "Nothing else clears ERR": an error bit goes from 1 to 0 only by a reset or by an idle write of 1
to it. -/
def Obligations.ErrorBitsAreSticky : Prop :=
  ∀ (s t : State) (i : Nat), step s = .next t → s.err.getLsbD i = true → t.err.getLsbD i = false →
    ∃ arr act rest, s.host = { arrival := arr, act := act } :: rest ∧
      (act = .reset ∨ ∃ v : Word, act = .regWrite 0x08 v ∧ v.getLsbD i = true ∧ s.busy = false)

/-- 40_command.md R106: a read of an idle block returns the register's value to the host and changes nothing. -/
def Obligations.IdleReadHasNoSideEffect : Prop :=
  ∀ (s : State) (e : HostEvent) (rest : List HostEvent) (off : BitVec 8),
    s.busy = false → s.seq = .idle → Due s e rest → e.act = .regRead off → alignedOffset off = true →
      step s = .next { s with host := rest, replies := .reg off (regWord (regAt off) s) :: s.replies }

/-- 10_state.md R46, 40_command.md R106: while BUSY = 1 a read of RESULT, OUT_LEN, SAMPLE_COUNT, CKSUM or NBIN returns a
free value, whatever it is; a read of any other register returns its present value; the running command goes on. -/
def Obligations.BusyReadOfProgressIsFree : Prop :=
  ∀ (s : State) (rest : List HostEvent) (off : BitVec 8),
    s.busy = true → Due s { arrival := .afterSteps 0, act := .regRead off } rest → alignedOffset off = true →
      (off ∈ ([0x48, 0x4C, 0x50, 0x54, 0x58] : List (BitVec 8)) →
        step s =
          .next
            (engineRun
              { s with
                host := rest
                replies := .reg off (Config.busyRead s.draws) :: s.replies
                draws := s.draws + 1 })) ∧
        (off ∉ ([0x48, 0x4C, 0x50, 0x54, 0x58] : List (BitVec 8)) →
          step s = .next (engineRun { s with host := rest, replies := .reg off (regWord (regAt off) s) :: s.replies }))

/-- 10_state.md R23, R43, 60_exceptions.md R196: the STATUS word is BUSY, DONE and IRQ = DONE AND CTRL.IRQ_EN, the
interrupt output is that level, CMD and the reserved offsets read 0, CKSUM reads its byte. -/
def Obligations.StatusWordAndInterruptLevel : Prop :=
  ∀ s : State,
    (regWord (some .status) s).getLsbD 0 = s.busy ∧ (regWord (some .status) s).getLsbD 1 = s.done ∧
      (regWord (some .status) s).getLsbD 2 = (s.done && s.regs.ctrl.getLsbD 2) ∧
      irq s = (regWord (some .status) s).getLsbD 2 ∧
      (∀ i, 3 ≤ i → (regWord (some .status) s).getLsbD i = false) ∧ regWord (some .cmd) s = 0 ∧ regWord none s = 0 ∧
      (regWord (some .cksum) s).toNat = s.res.cksum.toNat

/-- 70_reset_and_hazards.md R216: an access to the register window that is narrower, wider or misaligned is refused. -/
def Obligations.OddRegisterAccessIsRefused : Prop :=
  ∀ (s : State) (e : HostEvent) (rest : List HostEvent), Due s e rest →
    (∀ off bytes, e.act = .oddAccess off bytes → step s = .refused .accessWidth) ∧
      ∀ off : BitVec 8, off.toNat % 4 ≠ 0 →
        (e.act = .regRead off → step s = .refused .misalignedAccess) ∧
          ∀ v, e.act = .regWrite off v → step s = .refused .misalignedAccess

/-- 70_reset_and_hazards.md R217: while a command runs, a host write to a byte of the input region and a host read or
write of a byte of the output region is refused. -/
def Obligations.RegionAccessWhileBusyIsRefused : Prop :=
  ∀ (s : State) (e : HostEvent) (rest : List HostEvent) (a : Word), s.busy = true → Due s e rest →
    (∀ b, e.act = .memWrite a b →
      (∃ i < s.regs.srcLen.toNat, a.toNat = effAddr s.regs.srcBase i) → step s = .refused .inputRegionBusy) ∧
      ((∃ i < s.regs.dstLen.toNat, a.toNat = effAddr s.regs.dstBase i) →
        (e.act = .memRead a → step s = .refused .outputRegionBusy) ∧
          ∀ b, e.act = .memWrite a b → ∃ r, step s = .refused r)

/-- 70_reset_and_hazards.md R218: FRAME_BLOCK, DECODE_CONTAINER and ENCODE_CONTAINER are refused when the input and the
output region share an address, modulo 2^32; no command is refused otherwise, the other seven never. -/
def Obligations.OverlappingLaunchIsRefused : Prop :=
  ∀ s : State, s.busy = false →
    ((∃ i j, i < s.regs.srcLen.toNat ∧ j < s.regs.dstLen.toNat ∧ effAddr s.regs.srcBase i = effAddr s.regs.dstBase j) →
      exec .frameBlock s = .refused .regionOverlap ∧ exec .decodeContainer s = .refused .regionOverlap ∧
        exec .encodeContainer s = .refused .regionOverlap) ∧
      ∀ i r, exec i s = .refused r →
        (i = .frameBlock ∨ i = .decodeContainer ∨ i = .encodeContainer) ∧
          ∃ i j, i < s.regs.srcLen.toNat ∧ j < s.regs.dstLen.toNat ∧
            effAddr s.regs.srcBase i = effAddr s.regs.dstBase j

/-- 20_memory.md R50, R51, R56: on an idle block a host store changes the one byte it stores to, a host load returns the
byte and changes nothing. -/
def Obligations.IdleMemoryAccess : Prop :=
  ∀ (s : State) (e : HostEvent) (rest : List HostEvent) (a : Word),
    s.busy = false → s.seq = .idle → Memory.wf s.mem → Due s e rest →
      (∀ b, e.act = .memWrite a b →
        ∃ m, step s = .next { s with host := rest, mem := m } ∧ Memory.wf m ∧ Memory.read m a.toNat = b ∧
          ∀ x, x ≠ a.toNat → Memory.read m x = Memory.read s.mem x) ∧
        (e.act = .memRead a →
          step s = .next { s with host := rest, replies := .mem a (Memory.read s.mem a.toNat) :: s.replies })

/-- 70_reset_and_hazards.md R210, R211, R212: a reset gives every register its reset value and ends a running command at
once without completion; memory, the pushed samples and what the outside world holds stay. That the initial phase of a
tape is SIL_PRE is the model's reading (log entry 9). -/
def Obligations.ResetReturnsEveryRegister : Prop :=
  ∀ (s : State) (e : HostEvent) (rest : List HostEvent), Due s e rest → e.act = .reset →
    ∃ t : State,
      step s = .next t ∧ t.busy = false ∧ t.done = false ∧ irq t = false ∧ t.err = 0 ∧ t.lastErr = 0 ∧
        t.regs.ctrl = 0x00000001 ∧ t.regs.toneCfg = 0x00010000 ∧ t.regs.duty = 0x00000080 ∧ t.regs.sampleRate = 0 ∧
        t.regs.freq = 0 ∧ t.regs.toneLen = 0 ∧ t.regs.nameLo = 0 ∧ t.regs.nameHi = 0 ∧ t.regs.addr = 0 ∧
        t.regs.blk = 0 ∧ t.regs.srcBase = 0 ∧ t.regs.srcLen = 0 ∧ t.regs.dstBase = 0 ∧ t.regs.dstLen = 0 ∧
        t.res.result = 0 ∧ t.res.outLen = 0 ∧ t.res.sampleCount = 0 ∧ t.res.cksum = 0 ∧ t.res.nbin = 0 ∧
        t.seq = .idle ∧ t.scan.opn = none ∧ t.tape.phase = .silPre ∧ t.todo = [] ∧ t.mem = s.mem ∧ t.port = s.port ∧
        t.host = rest ∧ t.replies = s.replies ∧ t.params = s.params

/-! ### Invariants and whole-machine rules -/

/-- The state after reset meets the invariant (70_reset_and_hazards.md R210). -/
def Obligations.ResetMeetsTheInvariant : Prop := Coherent State.reset

/-- Every step keeps the invariant: memory canonical, reserved bits 0, VOLUME and DUTY at most 256, LAST_ERR without
OVERRUN, the sequencer, BUSY and DONE in step with the work left, that work inside the two regions, every read still to
come finding the byte of the CMD write, the two tags different (10_state.md R22 to R37, 20_memory.md R60 (3),
40_command.md R101, R102). -/
def Obligations.StepKeepsTheInvariant : Prop := ∀ s t : State, Coherent s → step s = .next t → Coherent t

/-- 60_exceptions.md R194: an error never stops the machine. From a state whose sequencer, BUSY and work left agree (a
part of the invariant) no step faults. -/
def Obligations.NoStepFaults : Prop := ∀ (s : State) (r : Fault), seqLegal s → step s ≠ .fault r

/-- 10_state.md R49, 70_reset_and_hazards.md R215: no command writes a register the host programs or a launch parameter,
and none touches what the host has read. -/
def Obligations.CommandsKeepTheConfiguration : Prop :=
  ∀ (i : Instr) (s t : State), exec i s = .next t →
    t.regs = s.regs ∧ t.params = s.params ∧ t.replies = s.replies ∧ t.draws = s.draws

/-- 10_state.md R49, 70_reset_and_hazards.md R215: over any step the launch parameters stay, and a control or operand
register changes only by a host write to an idle block or by a reset. -/
def Obligations.ConfigurationChangesOnlyByTheHost : Prop :=
  ∀ s t : State, step s = .next t →
    t.params = s.params ∧
      (t.regs ≠ s.regs →
        ∃ arr act rest, s.host = { arrival := arr, act := act } :: rest ∧
          (act = .reset ∨ (s.busy = false ∧ ∃ off v, act = .regWrite off v)))

/-- 10_state.md R37, 20_memory.md R51: a command issued to an idle block changes no byte of memory outside the output
region, however far it has got. -/
def Obligations.CommandsWriteOnlyTheOutputRegion : Prop :=
  ∀ (i : Instr) (s t : State), s.busy = false → exec i s = .next t →
    ∀ a, (¬ ∃ k < s.regs.dstLen.toNat, a = effAddr s.regs.dstBase k) → Memory.read t.mem a = Memory.read s.mem a

/-- The frame of the commands that store nothing (30_encoding.md R73: no DST memory among their writes): every byte of
memory reads as before, however far the command has got. -/
def Obligations.NonStoringCommandsKeepMemory : Prop :=
  ∀ (i : Instr) (s t : State), s.busy = false →
    i ∈ [Instr.nop, .chunkLen, .reqSize, .renderTone, .renderSilence, .encodeTape] → exec i s = .next t →
      ∀ a, Memory.read t.mem a = Memory.read s.mem a

/-- The frame of the commands that push nothing (30_encoding.md R73: no sample port among their writes): the port, the
sink and the tone and tape positions stay (that the positions keep their values between commands is the model's choice,
log entry 9). -/
def Obligations.SilentCommandsKeepThePort : Prop :=
  ∀ (i : Instr) (s t : State), s.busy = false →
    i ∈ [Instr.nop, .frameBlock, .chunkLen, .buildHeader, .decodeContainer, .reqSize, .encodeContainer] →
      exec i s = .next t → t.port = s.port ∧ t.sink = s.sink ∧ t.tone = s.tone ∧ t.tape = s.tape ∧ t.res.sampleCount = 0

/-- 10_state.md R41: commands that build no frame leave CKSUM unchanged. -/
def Obligations.CksumOnlyByFrameBuilders : Prop :=
  ∀ (i : Instr) (s t : State), s.busy = false →
    i ∉ [Instr.frameBlock, .encodeContainer, .encodeTape] → exec i s = .next t → t.res.cksum = s.res.cksum

/-- 70_reset_and_hazards.md R212, R221: a run of engine steps can be cut after any number of them; what is left to do,
done afterwards, comes to the same state. -/
def Obligations.EngineRunSplitsAnywhere : Prop :=
  ∀ (n : Nat) (ops : List EngineOp) (s : State),
    runOps none (runOps (some n) ops s).todo (runOps (some n) ops s) = runOps none ops s

/-- 40_command.md R106, 70_reset_and_hazards.md R221: a register read that arrives at any moment of a command does not
disturb it. The command, cut by the read and resumed, ends as it does uncut, but for what the host has read. -/
def Obligations.ReadsDoNotDisturbACommand : Prop :=
  ∀ (i : Instr) (s t u : State) (n : Nat) (off : BitVec 8), s.busy = false → alignedOffset off = true →
    exec i { s with host := [{ arrival := .afterSteps n, act := .regRead off }] } = .next t →
    exec i { s with host := [] } = .next u →
      ∃ v, step t = .next v ∧ v = { u with replies := v.replies, draws := v.draws }

/-! ### NOP, the chunk codec, the header -/

/-- 40_command.md R104. -/
def Obligations.NopOnlyStartsAndCompletes : Prop :=
  ∀ s : State, Ready s →
    exec .nop s =
      .next
        { s with
          busy := false
          done := true
          lastErr := 0
          seq := .idle
          todo := []
          res := { s.res with result := 0, outLen := 0, sampleCount := 0, nbin := 0 } }

/-- 41_chunk_codec.md R114. -/
def Obligations.ChunkLenResult : Prop :=
  ∀ s : State, Ready s →
    exec .chunkLen s = .next { finished s with res := { (finished s).res with result := 8 + s.regs.srcLen + 1 } }

/-- 42_block_header.md R120, R121: the eight bytes of a header record. -/
def Obligations.HeaderRecordBytes : Prop :=
  ∀ (r : Regs) (bc bi : Nat),
    (hdr r bc bi).length = 8 ∧
      (∀ i, i < 6 →
        (hdr r bc bi)[i]? =
          some
            (if i < min (r.nameHi.extractLsb' 16 4).toNat 6 then
              (if i < 4 then r.nameLo.extractLsb' (8 * i) 8 else r.nameHi.extractLsb' (8 * (i - 4)) 8) ||| 0x80
            else 0xA0)) ∧
      (hdr r bc bi)[6]? = some (BitVec.ofNat 8 (bc % 256)) ∧ (hdr r bc bi)[7]? = some (BitVec.ofNat 8 (bi % 256))

/-- 41_chunk_codec.md R111, R115: a frame is the header, the payload and one byte, and folds to 0 from seed 0xFF. -/
def Obligations.FrameFoldsToZero : Prop :=
  ∀ h p : List Byte,
    (∃ c, frame h p = h ++ p ++ [c]) ∧ fold 0xFF (frame h p) = 0

/-- 41_chunk_codec.md R113: FRAME_BLOCK raises ALLOC_FAIL with no other effect when the frame does not fit, else writes
header ++ payload ++ checksum at DST_BASE and sets OUT_LEN, RESULT and CKSUM; no other byte of memory and no other
register changes. -/
def Obligations.FrameBlockFramesThePayload : Prop :=
  ∀ s : State, Ready s → regionsOverlap s.regs = false → Memory.wf s.mem →
    (s.regs.dstLen.toNat < 9 + s.regs.srcLen.toNat → exec .frameBlock s = .next (failed .allocFail s)) ∧
      (9 + s.regs.srcLen.toNat ≤ s.regs.dstLen.toNat →
        let h := hdr s.regs (s.regs.blk.extractLsb' 0 8).toNat (s.regs.blk.extractLsb' 8 8).toNat
        let p := memRead s.mem s.regs.srcBase 0 s.regs.srcLen.toNat
        ∃ m,
          exec .frameBlock s =
              .next
                { finished s with
                  mem := m
                  res :=
                    { (finished s).res with
                      outLen := 9 + s.regs.srcLen
                      result := 9 + s.regs.srcLen
                      cksum := fold 0xFF (h ++ p) } } ∧
            memRead m s.regs.dstBase 0 (9 + s.regs.srcLen.toNat) = h ++ p ++ [fold 0xFF (h ++ p)] ∧
            ∀ a, (¬ ∃ i < 9 + s.regs.srcLen.toNat, a = effAddr s.regs.dstBase i) →
              Memory.read m a = Memory.read s.mem a)

/-- 42_block_header.md R122: BUILD_HEADER raises ALLOC_FAIL when the region is shorter than 8, else writes the header
record at DST_BASE and sets OUT_LEN to 8. -/
def Obligations.BuildHeaderWritesTheRecord : Prop :=
  ∀ s : State, Ready s → Memory.wf s.mem →
    (s.regs.dstLen.toNat < 8 → exec .buildHeader s = .next (failed .allocFail s)) ∧
      (8 ≤ s.regs.dstLen.toNat →
        ∃ m,
          exec .buildHeader s =
              .next { finished s with mem := m, res := { (finished s).res with outLen := 8 } } ∧
            memRead m s.regs.dstBase 0 8 =
              hdr s.regs (s.regs.blk.extractLsb' 0 8).toNat (s.regs.blk.extractLsb' 8 8).toNat ∧
            ∀ a, (¬ ∃ i < 8, a = effAddr s.regs.dstBase i) → Memory.read m a = Memory.read s.mem a)

/-! ### The container writer -/

/-- 44_container_writer.md R150, R152, R153: REQ_SIZE raises INVALID_BINARY when END < INIT, else gives
25 + 17 * ceil(size / 256) + size. -/
def Obligations.ReqSizeResult : Prop :=
  ∀ s : State, Ready s →
    let init := (s.regs.addr.extractLsb' 0 16).toNat
    let last := (s.regs.addr.extractLsb' 16 16).toNat
    (last < init → exec .reqSize s = .next (failed .invalidBinary s)) ∧
      (init ≤ last →
        ∃ v : Word, exec .reqSize s = .next { finished s with res := { (finished s).res with result := v } } ∧
          v.toNat = 25 + 17 * ((last - init + 1 + 255) / 256) + (last - init + 1))

/-- 44_container_writer.md R151, R154, R157, 30_encoding.md R82: the image has the required size, for every size from 1 to
65536, and this layout: the magic; the marker chunk, the DATA chunk header and the 13 bytes of frame 0, which carries the
addresses; then for every block k from 1 to B, at offset 25 + 273 * (k - 1), the marker chunk, the DATA chunk header and
the frame of the `n_k` payload bytes from offset 256 * (k - 1) on. -/
def Obligations.ImageHasTheRequiredSize : Prop :=
  ∀ (p : Params) (r : Regs) (size : Nat) (data : List Byte), 1 ≤ size → size ≤ 65536 → data.length = size →
    let img := image p r size data
    let blocks := (size + 255) / 256
    let len := fun k => if k < blocks then 256 else size - 256 * (blocks - 1)
    let heads := fun n => [p.tagMarker.b0, p.tagMarker.b1, 0, 0, p.tagData.b0, p.tagData.b1, BitVec.ofNat 8 n,
      BitVec.ofNat 8 (n / 256)]
    let framed := fun (h q : List Byte) => h ++ q ++ [fold 0xFF (h ++ q)]
    let addrs := [r.addr.extractLsb' 0 8, r.addr.extractLsb' 8 8, r.addr.extractLsb' 16 8, r.addr.extractLsb' 24 8]
    img.length = 25 + 17 * blocks + size ∧
      img.take 25 =
        [p.magic.b0, p.magic.b1, p.magic.b2, p.magic.b3] ++ heads 13 ++ framed (hdr r blocks 0) addrs ∧
      ∀ k, 1 ≤ k → k ≤ blocks →
        ((data.drop (256 * (k - 1))).take (len k)).length = len k ∧
          (img.drop (25 + 273 * (k - 1))).take (17 + len k) =
            heads (9 + len k) ++ framed (hdr r blocks k) ((data.drop (256 * (k - 1))).take (len k))

/-- 44_container_writer.md R151, R154, R155: ENCODE_CONTAINER checks the range, the length and the region, in this order,
and else writes the image at DST_BASE and sets OUT_LEN, RESULT and CKSUM; no other byte of memory changes. The image in
memory is the magic, the marker and DATA chunk headers with frame 0, and for every block k the marker and DATA chunk
headers with the frame of its payload bytes; CKSUM is the checksum of the last of them. -/
def Obligations.EncodeContainerWritesTheImage : Prop :=
  ∀ s : State, Ready s → regionsOverlap s.regs = false → Memory.wf s.mem →
    let init := (s.regs.addr.extractLsb' 0 16).toNat
    let last := (s.regs.addr.extractLsb' 16 16).toNat
    let size := last - init + 1
    (last < init → exec .encodeContainer s = .next (failed .invalidBinary s)) ∧
      (init ≤ last → s.regs.srcLen.toNat ≠ size → exec .encodeContainer s = .next (failed .invalidBinary s)) ∧
      (init ≤ last → s.regs.srcLen.toNat = size → s.regs.dstLen.toNat < reqSize size →
        exec .encodeContainer s = .next (failed .allocFail s)) ∧
      (init ≤ last → s.regs.srcLen.toNat = size → reqSize size ≤ s.regs.dstLen.toNat →
        let blocks := (size + 255) / 256
        let len := fun k => if k < blocks then 256 else size - 256 * (blocks - 1)
        let p := s.params
        let heads := fun n => [p.tagMarker.b0, p.tagMarker.b1, 0, 0, p.tagData.b0, p.tagData.b1, BitVec.ofNat 8 n,
          BitVec.ofNat 8 (n / 256)]
        let framed := fun (h q : List Byte) => h ++ q ++ [fold 0xFF (h ++ q)]
        let block := fun k => memRead s.mem s.regs.srcBase (256 * (k - 1)) (len k)
        let addrs := [s.regs.addr.extractLsb' 0 8, s.regs.addr.extractLsb' 8 8, s.regs.addr.extractLsb' 16 8,
          s.regs.addr.extractLsb' 24 8]
        ∃ m,
          exec .encodeContainer s =
              .next
                { finished s with
                  mem := m
                  res :=
                    { (finished s).res with
                      outLen := BitVec.ofNat 32 (reqSize size)
                      result := BitVec.ofNat 32 (reqSize size)
                      cksum := fold 0xFF (hdr s.regs blocks blocks ++ block blocks) } } ∧
            memRead m s.regs.dstBase 0 (reqSize size) =
              image s.params s.regs size (memRead s.mem s.regs.srcBase 0 size) ∧
            memRead m s.regs.dstBase 0 25 =
              [p.magic.b0, p.magic.b1, p.magic.b2, p.magic.b3] ++ heads 13 ++ framed (hdr s.regs blocks 0) addrs ∧
            (∀ k, 1 ≤ k → k ≤ blocks →
              memRead m s.regs.dstBase (25 + 273 * (k - 1)) (17 + len k) =
                heads (9 + len k) ++ framed (hdr s.regs blocks k) (block k)) ∧
            ∀ a, (¬ ∃ i < reqSize size, a = effAddr s.regs.dstBase i) → Memory.read m a = Memory.read s.mem a)

/-! ### The container reader -/

/-- 43_container_reader.md R131. -/
def Obligations.DecodeChecksTheMagic : Prop :=
  ∀ s : State, Ready s → regionsOverlap s.regs = false →
    (s.regs.srcLen.toNat < 4 ∨ memRead s.mem s.regs.srcBase 0 4 ≠ magicBytes s.params.magic) →
      exec .decodeContainer s = .next (failed .invalidMagic s)

/-- 43_container_reader.md R130, R140, R141, 60_exceptions.md R193: DECODE_CONTAINER always completes. It records no
error or exactly one of its seven, keeps everything but the first OUT_LEN bytes of the output region, the scanner, OUT_LEN,
NBIN and the error bits, never fills more than the region, and on success has scanned the whole input: that the scanner still shows this after
completion is the model's choice (log entry 8). -/
def Obligations.DecodeContainerCompletes : Prop :=
  ∀ s : State, Ready s → regionsOverlap s.regs = false →
    ∃ t : State,
      exec .decodeContainer s = .next t ∧
        t =
          { finished s with
            mem := t.mem
            scan := t.scan
            lastErr := t.lastErr
            err := s.err ||| t.lastErr
            res := { (finished s).res with outLen := t.res.outLen, nbin := t.res.nbin } } ∧
        t.lastErr ∈ ([0x000, 0x001, 0x002, 0x004, 0x020, 0x040, 0x080, 0x100] : List Word) ∧
        t.res.outLen.toNat ≤ s.regs.dstLen.toNat ∧
        (t.lastErr = 0 →
          t.scan.off = s.regs.srcLen.toNat ∧ t.scan.dptr = t.res.outLen.toNat ∧ t.scan.nbin = t.res.nbin.toNat) ∧
        ∀ a, (¬ ∃ k < t.res.outLen.toNat, a = effAddr s.regs.dstBase k) → Memory.read t.mem a = Memory.read s.mem a

/-- 43_container_reader.md R132 to R136, R138, R139: the errors of the first chunk, each where the checks before it
pass. -/
def Obligations.DecodeFirstChunkErrors : Prop :=
  ∀ s : State, Ready s → regionsOverlap s.regs = false → 4 < s.regs.srcLen.toNat →
    memRead s.mem s.regs.srcBase 0 4 = magicBytes s.params.magic →
      let n := s.regs.srcLen.toNat
      let tag := memRead s.mem s.regs.srcBase 4 2
      let len := (Memory.read s.mem (effAddr s.regs.srcBase 6)).toNat +
        256 * (Memory.read s.mem (effAddr s.regs.srcBase 7)).toNat
      let body := memRead s.mem s.regs.srcBase 8 len
      let stops := fun e => ∃ c : Scan, exec .decodeContainer s = .next { failed e s with scan := c }
      (n < 8 → stops .truncated) ∧
        (8 ≤ n → n < 8 + len → stops .truncated) ∧
        (8 + len ≤ n → tag = tagBytes s.params.tagData → len < 9 → stops .malformedChunk) ∧
        (8 + len ≤ n → tag = tagBytes s.params.tagData → 9 ≤ len → s.regs.ctrl.getLsbD 0 = true → fold 0xFF body ≠ 0 →
          stops .checksumMismatch) ∧
        (8 + len ≤ n → tag = tagBytes s.params.tagData → 9 ≤ len →
          (s.regs.ctrl.getLsbD 0 = true → fold 0xFF body = 0) → body[7]? ≠ some 0 → stops .malformedChunk) ∧
        (8 + len ≤ n → tag = tagBytes s.params.tagData → 9 ≤ len →
          (s.regs.ctrl.getLsbD 0 = true → fold 0xFF body = 0) → body[7]? = some 0 → len ≠ 13 → stops .malformedChunk) ∧
        (21 ≤ n → tag = tagBytes s.params.tagData → len = 13 →
          (s.regs.ctrl.getLsbD 0 = true → fold 0xFF body = 0) → body[7]? = some 0 →
            let init := (body.getD 8 0).toNat + 256 * (body.getD 9 0).toNat
            let last := (body.getD 10 0).toNat + 256 * (body.getD 11 0).toNat
            (last < init → stops .invalidBinary) ∧
              (init ≤ last → s.regs.dstLen.toNat < 20 + (last - init + 1) → stops .allocFail)) ∧
        (8 ≤ n → 8 + len ≤ n → tag ≠ tagBytes s.params.tagData → tag ≠ tagBytes s.params.tagMarker →
          s.regs.ctrl.getLsbD 1 = true → stops .unknownTag)

/-- 43_container_reader.md R136, R138, 30_encoding.md R86: an input whose first chunk is a 13-byte block 0:
INVALID_BINARY when the end address lies below the initial one, ALLOC_FAIL when the record does not fit, else the record,
with its data zero and nothing received; where that chunk is the whole input, the command completes so. That the scanner
still shows the end of the scan in that completed state is the model's choice (log entry 8): 10_state.md R44 and
70_reset_and_hazards.md R211 leave it unspecified while idle. -/
def Obligations.DecodeOpensABinary : Prop :=
  ∀ s : State, Ready s → regionsOverlap s.regs = false → Memory.wf s.mem → 21 ≤ s.regs.srcLen.toNat →
    memRead s.mem s.regs.srcBase 0 8 = magicBytes s.params.magic ++ tagBytes s.params.tagData ++ [13, 0] →
      let body := memRead s.mem s.regs.srcBase 8 13
      (s.regs.ctrl.getLsbD 0 = true → fold 0xFF body = 0) → body[7]? = some 0 →
      let init := (body.getD 8 0).toNat + 256 * (body.getD 9 0).toNat
      let last := (body.getD 10 0).toNat + 256 * (body.getD 11 0).toNat
      let size := last - init + 1
      (last < init → ∃ c : Scan, exec .decodeContainer s = .next { failed .invalidBinary s with scan := c }) ∧
        (init ≤ last → s.regs.dstLen.toNat < 20 + size →
          ∃ c : Scan, exec .decodeContainer s = .next { failed .allocFail s with scan := c }) ∧
        (init ≤ last → 20 + size ≤ s.regs.dstLen.toNat →
          ∃ m,
            let c : Scan := { off := 21, dptr := 20 + size, nbin := 1, opn := some { pos := 0, size := size, wr := 0 } }
            let res := { (finished s).res with outLen := BitVec.ofNat 32 (20 + size), nbin := 1 }
            ScanTo s c { startCmd s with mem := m, scan := c, todo := [], res := res } ∧
              (s.regs.srcLen = 21 →
                exec .decodeContainer s = .next { finished s with mem := m, scan := c, res := res }) ∧
              memRead m s.regs.dstBase 0 (20 + size) =
                (body.take 6).map (fun b => b &&& 0x7F) ++ [BitVec.ofNat 8 (decodedNameLen (body.take 6))] ++
                  [body.getD 6 0] ++ (body.drop 8).take 4 ++ le32 size ++ [0, 0, 0, 0] ++ List.replicate size 0 ∧
              ∀ a, (¬ ∃ i < 20 + size, a = effAddr s.regs.dstBase i) → Memory.read m a = Memory.read s.mem a)

/-- 43_container_reader.md R130, R140, R141: the scan, chunk by chunk. After any number of whole chunks, DECODE_CONTAINER
completes as it stands when the input is used up; and when the next chunk raises an error, it completes with that error
and everything else as the chunks before left it: memory, OUT_LEN and NBIN. That the scanner, too, is still as they left it
in the completed state is the model's choice (log entry 8): 10_state.md R44 and 70_reset_and_hazards.md R211 leave it
unspecified while idle. -/
def Obligations.DecodeRunsChunkByChunk : Prop :=
  ∀ (s : State) (c : Scan) (t : State), Ready s → regionsOverlap s.regs = false → ScanTo s c t →
    (s.regs.srcLen.toNat ≤ c.off →
      exec .decodeContainer s = .next { t with busy := false, done := true, seq := .idle, todo := [] }) ∧
      ∀ e, c.off < s.regs.srcLen.toNat → scanChunk s c = .stop e →
        exec .decodeContainer s =
          .next
            { t with
              busy := false
              done := true
              seq := .idle
              todo := []
              lastErr := t.lastErr ||| errBit e
              err := t.err ||| errBit e }

/-- 10_state.md R39, R42, R44, 43_container_reader.md R138 to R141: what every decode keeps from chunk to chunk. Nothing but
the output region's bytes below the write offset, the scanner, OUT_LEN and NBIN changes; OUT_LEN and NBIN are the write
offset and the record count; the open record is the last one written, it is inside the region, it has received no more
than its size, and its received field says how much. -/
def Obligations.ScannedStatesAreSound : Prop :=
  ∀ (s : State) (c : Scan) (t : State), Memory.wf s.mem → ScanTo s c t →
    t =
        { startCmd s with
          mem := t.mem
          scan := c
          todo := []
          res := { (startCmd s).res with outLen := BitVec.ofNat 32 c.dptr, nbin := BitVec.ofNat 32 c.nbin } } ∧
      4 ≤ c.off ∧ c.off ≤ s.regs.srcLen.toNat ∧ c.dptr ≤ s.regs.dstLen.toNat ∧ (c.opn = none ↔ c.nbin = 0) ∧
      (∀ o, c.opn = some o →
        o.wr ≤ o.size ∧ o.pos + 20 + o.size = c.dptr ∧ memRead t.mem s.regs.dstBase (o.pos + 16) 4 = le32 o.wr) ∧
      Memory.wf t.mem ∧
      ∀ a, (¬ ∃ i < c.dptr, a = effAddr s.regs.dstBase i) → Memory.read t.mem a = Memory.read s.mem a

/-- 43_container_reader.md R132 to R136, R138, R139, 60_exceptions.md R193: the error a chunk raises, at any place of the
scan, each where the checks before it pass; an orphan and an overflowing continuation among them. -/
def Obligations.ChunkErrors : Prop :=
  ∀ (s : State) (c : Scan), c.off < s.regs.srcLen.toNat →
    let left := s.regs.srcLen.toNat - c.off
    let tag := memRead s.mem s.regs.srcBase c.off 2
    let len := (Memory.read s.mem (effAddr s.regs.srcBase (c.off + 2))).toNat +
      256 * (Memory.read s.mem (effAddr s.regs.srcBase (c.off + 3))).toNat
    let body := memRead s.mem s.regs.srcBase (c.off + 4) len
    let sound := s.regs.ctrl.getLsbD 0 = true → fold 0xFF body = 0
    let init := (body.getD 8 0).toNat + 256 * (body.getD 9 0).toNat
    let last := (body.getD 10 0).toNat + 256 * (body.getD 11 0).toNat
    let stops := fun e => scanChunk s c = .stop e
    (left < 4 → stops .truncated) ∧
      (4 ≤ left → left < 4 + len → stops .truncated) ∧
      (4 + len ≤ left → tag = tagBytes s.params.tagData →
        (len < 9 → stops .malformedChunk) ∧
          (9 ≤ len → s.regs.ctrl.getLsbD 0 = true → fold 0xFF body ≠ 0 → stops .checksumMismatch) ∧
          (9 ≤ len → sound → body[7]? = some 0 → len ≠ 13 → stops .malformedChunk) ∧
          (len = 13 → sound → body[7]? = some 0 → last < init → stops .invalidBinary) ∧
          (len = 13 → sound → body[7]? = some 0 → init ≤ last →
            s.regs.dstLen.toNat < c.dptr + 20 + (last - init + 1) → stops .allocFail) ∧
          (9 ≤ len → sound → body[7]? ≠ some 0 → c.opn = none → stops .malformedChunk) ∧
          ∀ o, 9 ≤ len → sound → body[7]? ≠ some 0 → c.opn = some o → o.size < o.wr + (len - 9) →
            stops .malformedChunk) ∧
      (4 + len ≤ left → tag ≠ tagBytes s.params.tagData → tag ≠ tagBytes s.params.tagMarker →
        s.regs.ctrl.getLsbD 1 = true → stops .unknownTag)

/-- 43_container_reader.md R133, R136 to R139, 30_encoding.md R86: what a chunk that raises nothing does, at any place of
the scan. A TAG_MARKER chunk of any length, and a chunk of an unknown tag when STRICT_TAGS = 0, only move the scan past
themselves; a block 0 writes a record behind those already there and opens its binary; a continuation appends its payload
to the open record and counts it in the received field. Nothing else changes. -/
def Obligations.ChunkEffects : Prop :=
  ∀ (s : State) (c : Scan), c.off < s.regs.srcLen.toNat →
    let tag := memRead s.mem s.regs.srcBase c.off 2
    let len := (Memory.read s.mem (effAddr s.regs.srcBase (c.off + 2))).toNat +
      256 * (Memory.read s.mem (effAddr s.regs.srcBase (c.off + 3))).toNat
    let body := memRead s.mem s.regs.srcBase (c.off + 4) len
    let base := s.regs.dstBase
    let init := (body.getD 8 0).toNat + 256 * (body.getD 9 0).toNat
    let last := (body.getD 10 0).toNat + 256 * (body.getD 11 0).toNat
    let size := last - init + 1
    let n := len - 9
    4 + len ≤ s.regs.srcLen.toNat - c.off →
      (tag ≠ tagBytes s.params.tagData → (tag = tagBytes s.params.tagMarker ∨ s.regs.ctrl.getLsbD 1 = false) →
        ∃ ops, scanChunk s c = .go ops { c with off := c.off + 4 + len } ∧
          ∀ t, runOps none ops t = { t with scan := { c with off := c.off + 4 + len }, todo := [] }) ∧
        (tag = tagBytes s.params.tagData → (s.regs.ctrl.getLsbD 0 = true → fold 0xFF body = 0) →
          (len = 13 → body[7]? = some 0 → init ≤ last → c.dptr + 20 + size ≤ s.regs.dstLen.toNat →
            let c' : Scan :=
              { off := c.off + 17
                dptr := c.dptr + 20 + size
                nbin := c.nbin + 1
                opn := some { pos := c.dptr, size := size, wr := 0 } }
            ∃ ops, scanChunk s c = .go ops c' ∧
              ∀ t, Memory.wf t.mem → ∃ m,
                runOps none ops t =
                    { t with
                      mem := m
                      scan := c'
                      todo := []
                      res := { t.res with outLen := BitVec.ofNat 32 c'.dptr, nbin := BitVec.ofNat 32 c'.nbin } } ∧
                  memRead m base c.dptr (20 + size) =
                    (body.take 6).map (fun b => b &&& 0x7F) ++ [BitVec.ofNat 8 (decodedNameLen (body.take 6))] ++
                      [body.getD 6 0] ++ (body.drop 8).take 4 ++ le32 size ++ [0, 0, 0, 0] ++ List.replicate size 0 ∧
                  ∀ a, (¬ ∃ i < 20 + size, a = effAddr base (c.dptr + i)) → Memory.read m a = Memory.read t.mem a) ∧
            ∀ o, 9 ≤ len → body[7]? ≠ some 0 → c.opn = some o → o.wr + n ≤ o.size →
              o.pos + 20 + o.size ≤ s.regs.dstLen.toNat →
                let c' : Scan := { c with off := c.off + 4 + len, opn := some { o with wr := o.wr + n } }
                ∃ ops, scanChunk s c = .go ops c' ∧
                  ∀ t, Memory.wf t.mem → ∃ m,
                    runOps none ops t = { t with mem := m, scan := c', todo := [] } ∧
                      memRead m base (o.pos + 20 + o.wr) n = memRead s.mem s.regs.srcBase (c.off + 12) n ∧
                      memRead m base (o.pos + 16) 4 = le32 (o.wr + n) ∧
                      ∀ a, (¬ ∃ i < n, a = effAddr base (o.pos + 20 + o.wr + i)) →
                        (¬ ∃ i < 4, a = effAddr base (o.pos + 16 + i)) → Memory.read m a = Memory.read t.mem a)

/-- 42_block_header.md R121, 43_container_reader.md R137: a name whose characters are below 0x80 and whose last one is
not a space comes back from its header record, with its length. -/
def Obligations.NameSurvivesTheHeader : Prop :=
  ∀ r : Regs, (∀ i, i < nameLen r → nameChar r i < 0x80) → (0 < nameLen r → nameChar r (nameLen r - 1) ≠ 0x20) →
    decodedName (nameField r) = (List.range 6).map (fun i => if i < nameLen r then nameChar r i else 0x20) ∧
      decodedNameLen (nameField r) = nameLen r

/-- 43_container_reader.md R142: the round trip. ENCODE_CONTAINER of a binary of 1 to 65280 bytes with a name of
characters below 0x80 that does not end in a space, then DECODE_CONTAINER of the image into any region that holds the
record and does not overlap it, in any mode of CTRL, gives one record: name and length, block count, addresses, size,
received = size, and the data. -/
def Obligations.DecodeInvertsEncodeContainer : Prop :=
  ∀ s : State, Ready s → regionsOverlap s.regs = false → Memory.wf s.mem → s.params.wellFormed = true →
    addrInit s.regs ≤ addrEnd s.regs →
    let size := addrEnd s.regs - addrInit s.regs + 1
    size ≤ 65280 → s.regs.srcLen.toNat = size → reqSize size ≤ s.regs.dstLen.toNat →
    (∀ i, i < nameLen s.regs → nameChar s.regs i < 0x80) →
    (0 < nameLen s.regs → nameChar s.regs (nameLen s.regs - 1) ≠ 0x20) →
      ∃ t, exec .encodeContainer s = .next t ∧
        ∀ base len ctrl : Word,
          let u : State :=
            { t with
              regs :=
                { t.regs with
                  srcBase := t.regs.dstBase
                  srcLen := BitVec.ofNat 32 (reqSize size)
                  dstBase := base
                  dstLen := len
                  ctrl := ctrl } }
          regionsOverlap u.regs = false → 20 + size ≤ len.toNat →
            ∃ v, exec .decodeContainer u = .next v ∧ v.lastErr = 0 ∧ v.res.nbin = 1 ∧ v.res.outLen.toNat = 20 + size ∧
              memRead v.mem base 0 (20 + size) =
                (List.range 6).map (fun i => if i < nameLen s.regs then nameChar s.regs i else 0x20) ++
                  [BitVec.ofNat 8 (nameLen s.regs), BitVec.ofNat 8 (blockCount size)] ++ le16 (addrInit s.regs) ++
                  le16 (addrEnd s.regs) ++ le32 size ++ le32 size ++ memRead s.mem s.regs.srcBase 0 size

/-! ### Tones and tapes -/

/-- 45_tone.md R162: the high length is L * D / 256 rounded to nearest, halves up; it lies in 0 to L, is 0 for duty 0 and
L for duty 256. -/
def Obligations.HighLengthRoundsHalfUp : Prop :=
  ∀ len duty : Nat, duty ≤ 256 →
    highLength len duty ≤ len ∧ highLength len 0 = 0 ∧ highLength len 256 = len ∧
      256 * highLength len duty ≤ len * duty + 128 ∧ len * duty + 128 < 256 * highLength len duty + 256

/-- 45_tone.md R163, R164, R165, R167: the sine function obeys laws (a) and (b), and so a sine sample, inverted or not,
lies between the centre minus A and the centre plus A and is the centre at k = 0. -/
def Obligations.SineObeysItsLaws : Prop :=
  (∀ amp len : Nat, Config.sine amp 0 len = 0) ∧
    (∀ amp k len : Nat, -(amp : Int) ≤ Config.sine amp k len ∧ Config.sine amp k len ≤ amp) ∧
    ∀ (r : Regs) (len duty k : Nat), volume r ≤ 256 → waveSine r = true →
      let amp := volume r * (if bps16 r then 32767 else 127) / 256
      let x := encSample r (level r len duty k)
      let x0 := encSample r (level r len duty 0)
      (bps16 r = false → 128 - amp ≤ x.toNat ∧ x.toNat ≤ 128 + amp ∧ x0.toNat = 128) ∧
        (bps16 r = true → -(amp : Int) ≤ x.toInt ∧ x.toInt ≤ amp ∧ x0.toInt = 0)

/-- 45_tone.md R165, R167: sample k of a sine cycle is the centre plus SINE(A, k, L), or minus it when INVERT = 1, whatever
the duty and whatever function SINE is. -/
def Obligations.SineSampleLevels : Prop :=
  ∀ (r : Regs) (len duty k : Nat), volume r ≤ 256 → waveSine r = true →
    let amp := volume r * (if bps16 r then 32767 else 127) / 256
    let v := if invert r then -Config.sine amp k len else Config.sine amp k len
    let x := encSample r (level r len duty k)
    (bps16 r = false → (x.toNat : Int) = 128 + v) ∧ (bps16 r = true → x.toInt = v)

/-- 45_tone.md R164, R165, R166: sample k of a square cycle is the centre plus A for k < H and the centre minus A from H
on, the two swapped by INVERT; 8-bit samples are unsigned around 128, 16-bit samples signed around 0. -/
def Obligations.SquareSampleLevels : Prop :=
  ∀ (r : Regs) (len duty k : Nat), volume r ≤ 256 → waveSine r = false →
    let high := decide (k < (len * duty + 128) / 256) != invert r
    let x := encSample r (level r len duty k)
    (bps16 r = false →
      x.toNat = (if high then 128 + volume r * 127 / 256 else 128 - volume r * 127 / 256) ∧ 1 ≤ x.toNat ∧ x.toNat ≤ 255) ∧
      (bps16 r = true →
        x.toInt = (if high then ((volume r * 32767 / 256 : Nat) : Int) else -((volume r * 32767 / 256 : Nat) : Int)))

/-- 45_tone.md R161, R168, R170, R172: a tone with f = 0 or f > SR flags INVALID_FREQ and pushes nothing. -/
def Obligations.RenderToneInvalidFrequency : Prop :=
  ∀ s : State, Ready s → (s.regs.freq = 0 ∨ s.regs.sampleRate.toNat < s.regs.freq.toNat) →
    exec .renderTone s = .next (failed .invalidFreq s)

/-- 45_tone.md R168, R170, R172, 20_memory.md R62: any other tone offers its L * N samples, in order, accepted or not, each
on the port with the sink's answer; the accepted ones are delivered and no others; SAMPLE_COUNT counts the offers, RESULT
the acceptances, WRITE_FAIL is set exactly when one was rejected; nothing else changes. -/
def Obligations.RenderToneOffersEverySample : Prop :=
  ∀ s : State, Ready s → sinkLive s.sink = true → s.regs.freq ≠ 0 →
    s.regs.freq.toNat ≤ s.regs.sampleRate.toNat →
    let samples := toneSamples s.regs s.regs.freq.toNat s.regs.toneLen.toNat (s.regs.duty.extractLsb' 0 9).toNat
    let n := s.regs.sampleRate.toNat / s.regs.freq.toNat * s.regs.toneLen.toNat
    let fail : Word := if acceptedOf n s.sink < n then 0x008 else 0x000
    ∃ t : State,
      exec .renderTone s = .next t ∧
        t =
          { finished s with
            port := (pushesOf samples s.sink).reverse ++ s.port
            sink := sinkAfter n s.sink
            tone := t.tone
            lastErr := fail
            err := s.err ||| fail
            res :=
              { (finished s).res with
                sampleCount := BitVec.ofNat 32 n
                result := BitVec.ofNat 32 (acceptedOf n s.sink) } } ∧
        offered t = offered s ++ samples ∧ samples.length = n ∧
        delivered t = delivered s ++ acceptedSamples samples s.sink

/-- 45_tone.md R169, R171, R172, 20_memory.md R62: a silence offers (SR * ms) div 1000 centre samples, each on the port with
the sink's answer, and the accepted ones are delivered. That the place in a tone stays is the model's choice (log entry
9). -/
def Obligations.RenderSilenceOffersTheCentre : Prop :=
  ∀ s : State, Ready s → sinkLive s.sink = true →
    let n := s.regs.sampleRate.toNat * s.regs.toneLen.toNat / 1000
    let samples : List Sample := List.replicate n (if bps16 s.regs then 0x0000 else 0x0080)
    let fail : Word := if acceptedOf n s.sink < n then 0x008 else 0x000
    ∃ t : State,
      exec .renderSilence s = .next t ∧
        t =
          { finished s with
            port := (pushesOf samples s.sink).reverse ++ s.port
            sink := sinkAfter n s.sink
            lastErr := fail
            err := s.err ||| fail
            res :=
              { (finished s).res with
                sampleCount := BitVec.ofNat 32 n
                result := BitVec.ofNat 32 (acceptedOf n s.sink) } } ∧
        offered t = offered s ++ samples ∧ delivered t = delivered s ++ acceptedSamples samples s.sink

/-- 70_reset_and_hazards.md R221, for each of the three commands that push: a sink that answers the first m pushes of the
command and never the next leaves it BUSY, with exactly those m samples offered and counted. The last clause, that a
further step answers the same state while the host waits for completion, is the model's choice on the form of a stuck run
(log entry 15, DESIGN CHOICE). -/
def Obligations.SilentSinkLeavesTheCommandBusy : Prop :=
  ∀ (s : State) (m : Nat), Ready s →
    (sinkAnswers m s.sink).all (fun a => a != .silent) = true → sinkAnswer (sinkAfter m s.sink) = .silent →
    let stuck := fun (i : Instr) (samples : List Sample) =>
      m < samples.length →
        ∃ t : State, exec i s = .next t ∧ t.busy = true ∧ t.done = false ∧
          t.port = (pushesOf (samples.take m) s.sink).reverse ++ s.port ∧ t.res.sampleCount = BitVec.ofNat 32 m ∧
          t.res.result = BitVec.ofNat 32 (acceptedOf m s.sink) ∧ step t = .next t
    stuck .renderTone
        (toneSamples s.regs s.regs.freq.toNat s.regs.toneLen.toNat (s.regs.duty.extractLsb' 0 9).toNat) ∧
      stuck .renderSilence (silenceSamples s.regs s.regs.toneLen.toNat) ∧
      (addrInit s.regs ≤ addrEnd s.regs →
        let size := addrEnd s.regs - addrInit s.regs + 1
        s.regs.srcLen.toNat = size →
          stuck .encodeTape
            (tapeSamples s.params.bitCycles s.regs size (memRead s.mem s.regs.srcBase 0 size)))

/-- 46_tape.md R180: a binary that fails validation raises INVALID_BINARY before the first sample. -/
def Obligations.EncodeTapeValidatesFirst : Prop :=
  ∀ s : State, Ready s →
    let init := (s.regs.addr.extractLsb' 0 16).toNat
    let last := (s.regs.addr.extractLsb' 16 16).toNat
    (last < init ∨ s.regs.srcLen.toNat ≠ last - init + 1) → exec .encodeTape s = .next (failed .invalidBinary s)

/-- 46_tape.md R184, R185, R186, 20_memory.md R62: a valid binary is played as the sequence of R184, for every BIT_CYCLES,
every sample offered whatever the sink answers and whatever tone is invalid, the accepted ones delivered; only INVALID_FREQ (exactly when SR < 2000) and WRITE_FAIL (exactly when a sample was
rejected) can be recorded; CKSUM is the last frame's; memory stays. -/
def Obligations.EncodeTapePlaysTheSequence : Prop :=
  ∀ s : State, Ready s → sinkLive s.sink = true → addrInit s.regs ≤ addrEnd s.regs →
    let size := addrEnd s.regs - addrInit s.regs + 1
    s.regs.srcLen.toNat = size →
    let data := memRead s.mem s.regs.srcBase 0 size
    let samples := tapeSamples s.params.bitCycles s.regs size data
    let blocks := (size + 255) / 256
    let n := samples.length
    let errs : Word :=
      (if s.regs.sampleRate.toNat < 2000 then 0x010 else 0x000) ||| (if acceptedOf n s.sink < n then 0x008 else 0x000)
    ∃ t : State,
      exec .encodeTape s = .next t ∧
        t =
          { finished s with
            port := (pushesOf samples s.sink).reverse ++ s.port
            sink := sinkAfter n s.sink
            tone := t.tone
            tape := t.tape
            lastErr := errs
            err := s.err ||| errs
            res :=
              { (finished s).res with
                sampleCount := BitVec.ofNat 32 n
                result := BitVec.ofNat 32 (acceptedOf n s.sink)
                cksum := fold 0xFF (hdr s.regs blocks blocks ++ data.drop (256 * (blocks - 1))) } } ∧
        offered t = offered s ++ samples ∧ delivered t = delivered s ++ acceptedSamples samples s.sink

/-- 46_tape.md R187: the exact number of samples ENCODE_TAPE offers, from the cycle lengths and the ones and zeros of its
frames. -/
def Obligations.TapeSampleCount : Prop :=
  ∀ s : State, Ready s → sinkLive s.sink = true → addrInit s.regs ≤ addrEnd s.regs →
    let size := addrEnd s.regs - addrInit s.regs + 1
    s.regs.srcLen.toNat = size →
    let data := memRead s.mem s.regs.srcBase 0 size
    let rate := s.regs.sampleRate.toNat
    let blocks := (size + 255) / 256
    let ones := (tapeBits s.regs size data).count true
    let zeros := (tapeBits s.regs size data).count false
    let n := rate * 100 / 1000 + 1000 * (rate / 1000) + (blocks + 1) * (30 * (rate / 720) + rate / 2000) +
      s.params.bitCycles * (ones * (rate / 1000) + zeros * (rate / 2000)) + 2 * (rate / 100) + rate * 200 / 1000
    ones + zeros = 8 * (13 + ((List.range blocks).map fun j => 9 + blockLen size (j + 1)).sum) ∧
      ∃ t : State, exec .encodeTape s = .next t ∧ (offered t).length = (offered s).length + n ∧
        t.res.sampleCount = BitVec.ofNat 32 n ∧ t.res.result = BitVec.ofNat 32 (acceptedOf n s.sink)
end

