-- ==== Sys2Proof/Laws/Codec.lean ====
section
/-! SUPPORT. The byte formats: lengths, and the fold. -/

namespace Sys2Proof.Machine

@[simp] theorem le16_length (v : Nat) : (le16 v).length = 2 := rfl
@[simp] theorem le32_length (v : Nat) : (le32 v).length = 4 := rfl
@[simp] theorem tagBytes_length (t : Tag) : (tagBytes t).length = 2 := rfl
@[simp] theorem magicBytes_length (m : Magic) : (magicBytes m).length = 4 := rfl
@[simp] theorem nameField_length (r : Regs) : (nameField r).length = 6 := by simp [nameField, Config.nameBytes]
@[simp] theorem hdr_length (r : Regs) (bc bi : Nat) : (hdr r bc bi).length = 8 := by simp [hdr]
@[simp] theorem frame_length (h p : List Byte) : (frame h p).length = h.length + p.length + 1 := by
  simp [frame, Nat.add_assoc]
@[simp] theorem frame0_length (r : Regs) (size : Nat) : (frame0 r size).length = 13 := by simp [frame0]
@[simp] theorem markedChunk_length (p : Params) (f : List Byte) : (markedChunk p f).length = 8 + f.length := by
  simp [markedChunk]; omega
@[simp] theorem decodedName_length (raw : List Byte) : (decodedName raw).length = raw.length := by simp [decodedName]

theorem fold_append (seed : Byte) (as bs : List Byte) : fold seed (as ++ bs) = fold (fold seed as) bs := by
  simp [fold]

/-- The number of blocks covers the size, and one block less does not (44_container_writer.md R150). -/
theorem blockCount_spec {size : Nat} (h : 1 ≤ size) :
    256 * (blockCount size - 1) < size ∧ size ≤ 256 * blockCount size ∧ 1 ≤ blockCount size := by
  simp only [blockCount, Config.blockBytes]
  omega

/-- Block k carries `n_k` bytes of a payload of `size` bytes (44_container_writer.md R151). -/
theorem blockPayload_length {size : Nat} {data : List Byte} (h : 1 ≤ size) (hd : data.length = size) {k : Nat}
    (h1 : 1 ≤ k) (hk : k ≤ blockCount size) : (blockPayload size data k).length = blockLen size k := by
  have hs := blockCount_spec h
  simp only [blockPayload, blockLen, List.length_take, List.length_drop, hd, Config.blockBytes]
  split <;> rename_i hlt
  · have : 256 * k ≤ 256 * (blockCount size - 1) := Nat.mul_le_mul_left _ (by omega)
    have : 256 * (k - 1) + 256 = 256 * k := by omega
    omega
  · have hkB : k = blockCount size := by omega
    subst hkB
    omega

/-- The frame of block k (44_container_writer.md R154). -/
theorem frameK_length {r : Regs} {size : Nat} {data : List Byte} (h : 1 ≤ size) (hd : data.length = size) {k : Nat}
    (h1 : 1 ≤ k) (hk : k ≤ blockCount size) : (frameK r size data k).length = 9 + blockLen size k := by
  rw [frameK, frame_length, hdr_length, blockPayload_length h hd h1 hk]
  omega

end Sys2Proof.Machine
end

