-- ==== Sys2Proof/Laws/Memory.lean ====
section
/-! SUPPORT. The laws of memory: a read after a write, the canonical form, and writes of byte strings. -/

namespace Sys2Proof.Machine

theorem read_eq_unlisted_of_lt {m : Memory} {a : Nat} (h : ∀ c ∈ m, a < c.1) : Memory.read m a = Memory.unlisted := by
  induction m with
  | nil => rfl
  | cons c m ih =>
    obtain ⟨k, b⟩ := c
    have hk : a < k := h (k, b) (by simp)
    simp only [Memory.read]
    rw [if_neg (by omega)]
    exact ih fun c hc => h c (by simp [hc])

/-- A write leaves every other address alone. -/
theorem read_write_other (m : Memory) {a x : Nat} (b : Byte) (h : x ≠ a) :
    Memory.read (Memory.write m a b) x = Memory.read m x := by
  induction m with
  | nil =>
    simp only [Memory.write]
    split <;> simp [Memory.read, Ne.symm h]
  | cons c m ih =>
    obtain ⟨k, c⟩ := c
    simp only [Memory.write]
    split
    · split <;> simp [Memory.read, Ne.symm h]
    · split
      · subst_vars
        split <;> simp [Memory.read, Ne.symm h]
      · simp only [Memory.read, ih]

/-- A read after a write to the same address gives the byte written. -/
theorem read_write_same {m : Memory} (hm : Memory.wf m) (a : Nat) (b : Byte) :
    Memory.read (Memory.write m a b) a = b := by
  induction m with
  | nil =>
    simp only [Memory.write]
    split <;> simp_all [Memory.read]
  | cons c m ih =>
    obtain ⟨k, c⟩ := c
    obtain ⟨hp, hv⟩ := hm
    rw [List.pairwise_cons] at hp
    have htail : Memory.wf m := ⟨hp.2, fun c hc => hv c (by simp [hc])⟩
    simp only [Memory.write]
    split
    · rename_i hlt
      split
      · rename_i hb
        rw [hb]
        refine read_eq_unlisted_of_lt fun c hc => ?_
        rcases List.mem_cons.1 hc with rfl | hc
        · exact hlt
        · exact Nat.lt_trans hlt (hp.1 c hc)
      · simp [Memory.read]
    · split
      · subst_vars
        split
        · rename_i hb
          rw [hb]
          exact read_eq_unlisted_of_lt hp.1
        · simp [Memory.read]
      · rename_i h1 h2
        simp only [Memory.read]
        rw [if_neg (Ne.symm h2)]
        exact ih htail

theorem mem_write {m : Memory} {a : Nat} {b : Byte} {c : Host.Cell} (h : c ∈ Memory.write m a b) :
    c ∈ m ∨ (c = (a, b) ∧ b ≠ Memory.unlisted) := by
  induction m with
  | nil =>
    simp only [Memory.write] at h
    split at h <;> simp_all
  | cons d m ih =>
    obtain ⟨k, d⟩ := d
    simp only [Memory.write] at h
    split at h
    · split at h <;> simp_all
      tauto
    · split at h
      · split at h <;> simp_all
        tauto
      · rcases List.mem_cons.1 h with h | h
        · simp [h]
        · rcases ih h with h | h <;> simp [h]

/-- A write keeps the canonical form. -/
theorem write_wf {m : Memory} (hm : Memory.wf m) {a : Nat} (ha : a < 2 ^ 32) (b : Byte) :
    Memory.wf (Memory.write m a b) := by
  refine ⟨?_, fun c hc => ?_⟩
  · induction m with
    | nil => simp only [Memory.write]; split <;> simp
    | cons c m ih =>
      obtain ⟨k, c⟩ := c
      obtain ⟨hp, hv⟩ := hm
      have hp' := List.pairwise_cons.1 hp
      have htail : Memory.wf m := ⟨hp'.2, fun c hc => hv c (by simp [hc])⟩
      simp only [Memory.write]
      split
      · rename_i hlt
        split
        · exact hp
        · refine List.pairwise_cons.2 ⟨fun d hd => ?_, hp⟩
          rcases List.mem_cons.1 hd with rfl | hd
          · exact hlt
          · exact Nat.lt_trans hlt (hp'.1 d hd)
      · split
        · subst_vars
          split
          · exact hp'.2
          · exact List.pairwise_cons.2 ⟨hp'.1, hp'.2⟩
        · rename_i h1 h2
          refine List.pairwise_cons.2 ⟨fun d hd => ?_, ih htail⟩
          rcases mem_write hd with hd | ⟨rfl, _⟩
          · exact hp'.1 d hd
          · show k < a
            omega
  · rcases mem_write hc with hc | ⟨rfl, hb⟩
    · exact hm.2 c hc
    · exact ⟨ha, hb⟩

theorem effAddr_lt (base : Word) (i : Nat) : effAddr base i < 2 ^ 32 := Nat.mod_lt _ (by decide)

/-- The memory after a byte string is written at `base + off`. -/
def writeBytes (m : Memory) (base : Word) (off : Nat) : List Byte → Memory
  | [] => m
  | b :: bs => writeBytes (Memory.write m (effAddr base off) b) base (off + 1) bs

theorem writeBytes_append (m : Memory) (base : Word) (off : Nat) (as bs : List Byte) :
    writeBytes m base off (as ++ bs) = writeBytes (writeBytes m base off as) base (off + as.length) bs := by
  induction as generalizing m off with
  | nil => rfl
  | cons a as ih => simp only [List.cons_append, writeBytes, ih, List.length_cons, Nat.add_assoc, Nat.add_comm 1]

theorem writeBytes_wf {m : Memory} (hm : Memory.wf m) (base : Word) (off : Nat) (bs : List Byte) :
    Memory.wf (writeBytes m base off bs) := by
  induction bs generalizing m off with
  | nil => exact hm
  | cons b bs ih => exact ih (write_wf hm (effAddr_lt ..) b) _

/-- Writing a byte string changes only the addresses of its bytes. -/
theorem read_writeBytes_other (m : Memory) (base : Word) (off : Nat) (bs : List Byte) {x : Nat}
    (h : ∀ i < bs.length, x ≠ effAddr base (off + i)) :
    Memory.read (writeBytes m base off bs) x = Memory.read m x := by
  induction bs generalizing m off with
  | nil => rfl
  | cons b bs ih =>
    simp only [writeBytes]
    rw [ih, read_write_other _ _ (by simpa using h 0 (by simp))]
    intro i hi
    have := h (i + 1) (by simpa using hi)
    rwa [show off + 1 + i = off + (i + 1) by omega]

theorem effAddr_inj {base : Word} {i j : Nat} (hi : i < 2 ^ 32) (hj : j < 2 ^ 32)
    (h : effAddr base i = effAddr base j) : i = j := by
  simp only [effAddr] at h
  omega

/-- Each byte of a written byte string reads back, where the string does not wrap onto itself. -/
theorem read_writeBytes_same {m : Memory} (hm : Memory.wf m) (base : Word) (off : Nat) (bs : List Byte)
    (hlen : off + bs.length ≤ 2 ^ 32) {i : Nat} (hi : i < bs.length) :
    Memory.read (writeBytes m base off bs) (effAddr base (off + i)) = bs[i] := by
  induction bs generalizing m off i with
  | nil => simp at hi
  | cons b bs ih =>
    simp only [writeBytes]
    simp only [List.length_cons] at hlen hi
    cases i with
    | zero =>
      rw [read_writeBytes_other, List.getElem_cons_zero]
      · exact read_write_same hm _ _
      · intro j hj he
        have := effAddr_inj (by omega) (by omega) he
        omega
    | succ i =>
      rw [List.getElem_cons_succ, show off + (i + 1) = off + 1 + i by omega]
      exact ih (write_wf hm (effAddr_lt ..) b) _ (by omega) (by omega)

/-- A byte string written to memory reads back whole. -/
theorem memRead_writeBytes {m : Memory} (hm : Memory.wf m) (base : Word) (off : Nat) (bs : List Byte)
    (hlen : off + bs.length ≤ 2 ^ 32) : memRead (writeBytes m base off bs) base off bs.length = bs := by
  apply List.ext_getElem
  · simp [memRead]
  · intro i h1 h2
    simp only [memRead, List.getElem_map, List.getElem_range]
    exact read_writeBytes_same hm base off bs hlen h2

theorem memRead_length (m : Memory) (base : Word) (off n : Nat) : (memRead m base off n).length = n := by
  simp [memRead]

/-- An offset below the length of a region lies inside it. -/
theorem inRegion_effAddr {base len : Word} {i : Nat} (h : i < len.toNat) : inRegion base len (effAddr base i) = true := by
  have := len.isLt
  have := base.isLt
  simp only [inRegion, effAddr, BitVec.toNat_sub, BitVec.toNat_ofNat, decide_eq_true_eq]
  omega

/-- An address inside a region is that of one of its offsets. -/
theorem exists_effAddr_of_inRegion {base len : Word} {a : Nat} (ha : a < 2 ^ 32) (h : inRegion base len a = true) :
    ∃ i < len.toNat, a = effAddr base i := by
  have := len.isLt
  have := base.isLt
  simp only [inRegion, BitVec.toNat_sub, BitVec.toNat_ofNat, decide_eq_true_eq] at h
  refine ⟨_, h, ?_⟩
  simp only [effAddr]
  omega

end Sys2Proof.Machine
end

