-- ==== Sys2Proof/Laws/State.lean ====
section
/-! SUPPORT. One lemma per field for every named update of the state: which fields it writes, and that it keeps the rest. -/

namespace Sys2Proof.Machine

/-! ### recordErr -/

@[simp] theorem recordErr_busy (e : ErrKind) (s : State) : (recordErr e s).busy = s.busy := rfl
@[simp] theorem recordErr_done (e : ErrKind) (s : State) : (recordErr e s).done = s.done := rfl
@[simp] theorem recordErr_err (e : ErrKind) (s : State) : (recordErr e s).err = s.err ||| errBit e := rfl
@[simp] theorem recordErr_lastErr (e : ErrKind) (s : State) : (recordErr e s).lastErr = s.lastErr ||| errBit e := rfl
@[simp] theorem recordErr_regs (e : ErrKind) (s : State) : (recordErr e s).regs = s.regs := rfl
@[simp] theorem recordErr_res (e : ErrKind) (s : State) : (recordErr e s).res = s.res := rfl
@[simp] theorem recordErr_seq (e : ErrKind) (s : State) : (recordErr e s).seq = s.seq := rfl
@[simp] theorem recordErr_scan (e : ErrKind) (s : State) : (recordErr e s).scan = s.scan := rfl
@[simp] theorem recordErr_tape (e : ErrKind) (s : State) : (recordErr e s).tape = s.tape := rfl
@[simp] theorem recordErr_tone (e : ErrKind) (s : State) : (recordErr e s).tone = s.tone := rfl
@[simp] theorem recordErr_todo (e : ErrKind) (s : State) : (recordErr e s).todo = s.todo := rfl
@[simp] theorem recordErr_mem (e : ErrKind) (s : State) : (recordErr e s).mem = s.mem := rfl
@[simp] theorem recordErr_port (e : ErrKind) (s : State) : (recordErr e s).port = s.port := rfl
@[simp] theorem recordErr_sink (e : ErrKind) (s : State) : (recordErr e s).sink = s.sink := rfl
@[simp] theorem recordErr_host (e : ErrKind) (s : State) : (recordErr e s).host = s.host := rfl
@[simp] theorem recordErr_replies (e : ErrKind) (s : State) : (recordErr e s).replies = s.replies := rfl
@[simp] theorem recordErr_draws (e : ErrKind) (s : State) : (recordErr e s).draws = s.draws := rfl
@[simp] theorem recordErr_params (e : ErrKind) (s : State) : (recordErr e s).params = s.params := rfl

/-! ### overrun -/

@[simp] theorem overrun_busy (s : State) : (overrun s).busy = s.busy := rfl
@[simp] theorem overrun_done (s : State) : (overrun s).done = s.done := rfl
@[simp] theorem overrun_err (s : State) : (overrun s).err = s.err ||| errBit .overrun := rfl
@[simp] theorem overrun_lastErr (s : State) : (overrun s).lastErr = s.lastErr := rfl
@[simp] theorem overrun_regs (s : State) : (overrun s).regs = s.regs := rfl
@[simp] theorem overrun_res (s : State) : (overrun s).res = s.res := rfl
@[simp] theorem overrun_seq (s : State) : (overrun s).seq = s.seq := rfl
@[simp] theorem overrun_scan (s : State) : (overrun s).scan = s.scan := rfl
@[simp] theorem overrun_tape (s : State) : (overrun s).tape = s.tape := rfl
@[simp] theorem overrun_tone (s : State) : (overrun s).tone = s.tone := rfl
@[simp] theorem overrun_todo (s : State) : (overrun s).todo = s.todo := rfl
@[simp] theorem overrun_mem (s : State) : (overrun s).mem = s.mem := rfl
@[simp] theorem overrun_port (s : State) : (overrun s).port = s.port := rfl
@[simp] theorem overrun_sink (s : State) : (overrun s).sink = s.sink := rfl
@[simp] theorem overrun_host (s : State) : (overrun s).host = s.host := rfl
@[simp] theorem overrun_replies (s : State) : (overrun s).replies = s.replies := rfl
@[simp] theorem overrun_draws (s : State) : (overrun s).draws = s.draws := rfl
@[simp] theorem overrun_params (s : State) : (overrun s).params = s.params := rfl

/-! ### ackStatus -/

@[simp] theorem ackStatus_busy (v : Word) (s : State) : (ackStatus v s).busy = s.busy := rfl
@[simp] theorem ackStatus_done (v : Word) (s : State) : (ackStatus v s).done = (s.done && !v.getLsbD 1) := rfl
@[simp] theorem ackStatus_err (v : Word) (s : State) : (ackStatus v s).err = s.err := rfl
@[simp] theorem ackStatus_lastErr (v : Word) (s : State) : (ackStatus v s).lastErr = s.lastErr := rfl
@[simp] theorem ackStatus_regs (v : Word) (s : State) : (ackStatus v s).regs = s.regs := rfl
@[simp] theorem ackStatus_res (v : Word) (s : State) : (ackStatus v s).res = s.res := rfl
@[simp] theorem ackStatus_seq (v : Word) (s : State) : (ackStatus v s).seq = s.seq := rfl
@[simp] theorem ackStatus_scan (v : Word) (s : State) : (ackStatus v s).scan = s.scan := rfl
@[simp] theorem ackStatus_tape (v : Word) (s : State) : (ackStatus v s).tape = s.tape := rfl
@[simp] theorem ackStatus_tone (v : Word) (s : State) : (ackStatus v s).tone = s.tone := rfl
@[simp] theorem ackStatus_todo (v : Word) (s : State) : (ackStatus v s).todo = s.todo := rfl
@[simp] theorem ackStatus_mem (v : Word) (s : State) : (ackStatus v s).mem = s.mem := rfl
@[simp] theorem ackStatus_port (v : Word) (s : State) : (ackStatus v s).port = s.port := rfl
@[simp] theorem ackStatus_sink (v : Word) (s : State) : (ackStatus v s).sink = s.sink := rfl
@[simp] theorem ackStatus_host (v : Word) (s : State) : (ackStatus v s).host = s.host := rfl
@[simp] theorem ackStatus_replies (v : Word) (s : State) : (ackStatus v s).replies = s.replies := rfl
@[simp] theorem ackStatus_draws (v : Word) (s : State) : (ackStatus v s).draws = s.draws := rfl
@[simp] theorem ackStatus_params (v : Word) (s : State) : (ackStatus v s).params = s.params := rfl

/-! ### ackErr -/

@[simp] theorem ackErr_busy (v : Word) (s : State) : (ackErr v s).busy = s.busy := rfl
@[simp] theorem ackErr_done (v : Word) (s : State) : (ackErr v s).done = s.done := rfl
@[simp] theorem ackErr_err (v : Word) (s : State) : (ackErr v s).err = w1c s.err v := rfl
@[simp] theorem ackErr_lastErr (v : Word) (s : State) : (ackErr v s).lastErr = s.lastErr := rfl
@[simp] theorem ackErr_regs (v : Word) (s : State) : (ackErr v s).regs = s.regs := rfl
@[simp] theorem ackErr_res (v : Word) (s : State) : (ackErr v s).res = s.res := rfl
@[simp] theorem ackErr_seq (v : Word) (s : State) : (ackErr v s).seq = s.seq := rfl
@[simp] theorem ackErr_scan (v : Word) (s : State) : (ackErr v s).scan = s.scan := rfl
@[simp] theorem ackErr_tape (v : Word) (s : State) : (ackErr v s).tape = s.tape := rfl
@[simp] theorem ackErr_tone (v : Word) (s : State) : (ackErr v s).tone = s.tone := rfl
@[simp] theorem ackErr_todo (v : Word) (s : State) : (ackErr v s).todo = s.todo := rfl
@[simp] theorem ackErr_mem (v : Word) (s : State) : (ackErr v s).mem = s.mem := rfl
@[simp] theorem ackErr_port (v : Word) (s : State) : (ackErr v s).port = s.port := rfl
@[simp] theorem ackErr_sink (v : Word) (s : State) : (ackErr v s).sink = s.sink := rfl
@[simp] theorem ackErr_host (v : Word) (s : State) : (ackErr v s).host = s.host := rfl
@[simp] theorem ackErr_replies (v : Word) (s : State) : (ackErr v s).replies = s.replies := rfl
@[simp] theorem ackErr_draws (v : Word) (s : State) : (ackErr v s).draws = s.draws := rfl
@[simp] theorem ackErr_params (v : Word) (s : State) : (ackErr v s).params = s.params := rfl

/-! ### startCmd -/

@[simp] theorem startCmd_busy (s : State) : (startCmd s).busy = true := rfl
@[simp] theorem startCmd_done (s : State) : (startCmd s).done = false := rfl
@[simp] theorem startCmd_err (s : State) : (startCmd s).err = s.err := rfl
@[simp] theorem startCmd_lastErr (s : State) : (startCmd s).lastErr = 0 := rfl
@[simp] theorem startCmd_regs (s : State) : (startCmd s).regs = s.regs := rfl
@[simp] theorem startCmd_res (s : State) : (startCmd s).res = { s.res with result := 0, outLen := 0, sampleCount := 0, nbin := 0 } := rfl
@[simp] theorem startCmd_seq (s : State) : (startCmd s).seq = .run := rfl
@[simp] theorem startCmd_scan (s : State) : (startCmd s).scan = s.scan := rfl
@[simp] theorem startCmd_tape (s : State) : (startCmd s).tape = s.tape := rfl
@[simp] theorem startCmd_tone (s : State) : (startCmd s).tone = s.tone := rfl
@[simp] theorem startCmd_todo (s : State) : (startCmd s).todo = s.todo := rfl
@[simp] theorem startCmd_mem (s : State) : (startCmd s).mem = s.mem := rfl
@[simp] theorem startCmd_port (s : State) : (startCmd s).port = s.port := rfl
@[simp] theorem startCmd_sink (s : State) : (startCmd s).sink = s.sink := rfl
@[simp] theorem startCmd_host (s : State) : (startCmd s).host = s.host := rfl
@[simp] theorem startCmd_replies (s : State) : (startCmd s).replies = s.replies := rfl
@[simp] theorem startCmd_draws (s : State) : (startCmd s).draws = s.draws := rfl
@[simp] theorem startCmd_params (s : State) : (startCmd s).params = s.params := rfl

/-! ### completeCmd -/

@[simp] theorem completeCmd_busy (s : State) : (completeCmd s).busy = false := rfl
@[simp] theorem completeCmd_done (s : State) : (completeCmd s).done = true := rfl
@[simp] theorem completeCmd_err (s : State) : (completeCmd s).err = s.err := rfl
@[simp] theorem completeCmd_lastErr (s : State) : (completeCmd s).lastErr = s.lastErr := rfl
@[simp] theorem completeCmd_regs (s : State) : (completeCmd s).regs = s.regs := rfl
@[simp] theorem completeCmd_res (s : State) : (completeCmd s).res = s.res := rfl
@[simp] theorem completeCmd_seq (s : State) : (completeCmd s).seq = .idle := rfl
@[simp] theorem completeCmd_scan (s : State) : (completeCmd s).scan = s.scan := rfl
@[simp] theorem completeCmd_tape (s : State) : (completeCmd s).tape = s.tape := rfl
@[simp] theorem completeCmd_tone (s : State) : (completeCmd s).tone = s.tone := rfl
@[simp] theorem completeCmd_todo (s : State) : (completeCmd s).todo = s.todo := rfl
@[simp] theorem completeCmd_mem (s : State) : (completeCmd s).mem = s.mem := rfl
@[simp] theorem completeCmd_port (s : State) : (completeCmd s).port = s.port := rfl
@[simp] theorem completeCmd_sink (s : State) : (completeCmd s).sink = s.sink := rfl
@[simp] theorem completeCmd_host (s : State) : (completeCmd s).host = s.host := rfl
@[simp] theorem completeCmd_replies (s : State) : (completeCmd s).replies = s.replies := rfl
@[simp] theorem completeCmd_draws (s : State) : (completeCmd s).draws = s.draws := rfl
@[simp] theorem completeCmd_params (s : State) : (completeCmd s).params = s.params := rfl

/-! ### finished -/

@[simp] theorem finished_busy (s : State) : (finished s).busy = false := rfl
@[simp] theorem finished_done (s : State) : (finished s).done = true := rfl
@[simp] theorem finished_err (s : State) : (finished s).err = s.err := rfl
@[simp] theorem finished_lastErr (s : State) : (finished s).lastErr = 0 := rfl
@[simp] theorem finished_regs (s : State) : (finished s).regs = s.regs := rfl
@[simp] theorem finished_res (s : State) : (finished s).res = { s.res with result := 0, outLen := 0, sampleCount := 0, nbin := 0 } := rfl
@[simp] theorem finished_seq (s : State) : (finished s).seq = .idle := rfl
@[simp] theorem finished_scan (s : State) : (finished s).scan = s.scan := rfl
@[simp] theorem finished_tape (s : State) : (finished s).tape = s.tape := rfl
@[simp] theorem finished_tone (s : State) : (finished s).tone = s.tone := rfl
@[simp] theorem finished_todo (s : State) : (finished s).todo = [] := rfl
@[simp] theorem finished_mem (s : State) : (finished s).mem = s.mem := rfl
@[simp] theorem finished_port (s : State) : (finished s).port = s.port := rfl
@[simp] theorem finished_sink (s : State) : (finished s).sink = s.sink := rfl
@[simp] theorem finished_host (s : State) : (finished s).host = s.host := rfl
@[simp] theorem finished_replies (s : State) : (finished s).replies = s.replies := rfl
@[simp] theorem finished_draws (s : State) : (finished s).draws = s.draws := rfl
@[simp] theorem finished_params (s : State) : (finished s).params = s.params := rfl

/-! ### failed -/

@[simp] theorem failed_busy (e : ErrKind) (s : State) : (failed e s).busy = false := rfl
@[simp] theorem failed_done (e : ErrKind) (s : State) : (failed e s).done = true := rfl
@[simp] theorem failed_err (e : ErrKind) (s : State) : (failed e s).err = s.err ||| errBit e := rfl
@[simp] theorem failed_lastErr (e : ErrKind) (s : State) : (failed e s).lastErr = errBit e := rfl
@[simp] theorem failed_regs (e : ErrKind) (s : State) : (failed e s).regs = s.regs := rfl
@[simp] theorem failed_res (e : ErrKind) (s : State) : (failed e s).res = { s.res with result := 0, outLen := 0, sampleCount := 0, nbin := 0 } := rfl
@[simp] theorem failed_seq (e : ErrKind) (s : State) : (failed e s).seq = .idle := rfl
@[simp] theorem failed_scan (e : ErrKind) (s : State) : (failed e s).scan = s.scan := rfl
@[simp] theorem failed_tape (e : ErrKind) (s : State) : (failed e s).tape = s.tape := rfl
@[simp] theorem failed_tone (e : ErrKind) (s : State) : (failed e s).tone = s.tone := rfl
@[simp] theorem failed_todo (e : ErrKind) (s : State) : (failed e s).todo = [] := rfl
@[simp] theorem failed_mem (e : ErrKind) (s : State) : (failed e s).mem = s.mem := rfl
@[simp] theorem failed_port (e : ErrKind) (s : State) : (failed e s).port = s.port := rfl
@[simp] theorem failed_sink (e : ErrKind) (s : State) : (failed e s).sink = s.sink := rfl
@[simp] theorem failed_host (e : ErrKind) (s : State) : (failed e s).host = s.host := rfl
@[simp] theorem failed_replies (e : ErrKind) (s : State) : (failed e s).replies = s.replies := rfl
@[simp] theorem failed_draws (e : ErrKind) (s : State) : (failed e s).draws = s.draws := rfl
@[simp] theorem failed_params (e : ErrKind) (s : State) : (failed e s).params = s.params := rfl

/-! ### answerPush -/

@[simp] theorem answerPush_busy (p : Option TonePos) (x : Sample) (b : Bool) (s : State) :
    (answerPush p x b s).busy = s.busy := rfl
@[simp] theorem answerPush_done (p : Option TonePos) (x : Sample) (b : Bool) (s : State) :
    (answerPush p x b s).done = s.done := rfl
@[simp] theorem answerPush_err (p : Option TonePos) (x : Sample) (b : Bool) (s : State) :
    (answerPush p x b s).err = s.err := rfl
@[simp] theorem answerPush_lastErr (p : Option TonePos) (x : Sample) (b : Bool) (s : State) :
    (answerPush p x b s).lastErr = s.lastErr := rfl
@[simp] theorem answerPush_regs (p : Option TonePos) (x : Sample) (b : Bool) (s : State) :
    (answerPush p x b s).regs = s.regs := rfl
@[simp] theorem answerPush_res (p : Option TonePos) (x : Sample) (b : Bool) (s : State) :
    (answerPush p x b s).res = s.res := rfl
@[simp] theorem answerPush_seq (p : Option TonePos) (x : Sample) (b : Bool) (s : State) :
    (answerPush p x b s).seq = s.seq := rfl
@[simp] theorem answerPush_scan (p : Option TonePos) (x : Sample) (b : Bool) (s : State) :
    (answerPush p x b s).scan = s.scan := rfl
@[simp] theorem answerPush_tape (p : Option TonePos) (x : Sample) (b : Bool) (s : State) :
    (answerPush p x b s).tape = s.tape := rfl
@[simp] theorem answerPush_tone (p : Option TonePos) (x : Sample) (b : Bool) (s : State) :
    (answerPush p x b s).tone = p.getD s.tone := rfl
@[simp] theorem answerPush_todo (p : Option TonePos) (x : Sample) (b : Bool) (s : State) :
    (answerPush p x b s).todo = s.todo := rfl
@[simp] theorem answerPush_mem (p : Option TonePos) (x : Sample) (b : Bool) (s : State) :
    (answerPush p x b s).mem = s.mem := rfl
@[simp] theorem answerPush_port (p : Option TonePos) (x : Sample) (b : Bool) (s : State) :
    (answerPush p x b s).port = ⟨x, b⟩ :: s.port := rfl
@[simp] theorem answerPush_sink (p : Option TonePos) (x : Sample) (b : Bool) (s : State) :
    (answerPush p x b s).sink = sinkRest s.sink := rfl
@[simp] theorem answerPush_host (p : Option TonePos) (x : Sample) (b : Bool) (s : State) :
    (answerPush p x b s).host = s.host := rfl
@[simp] theorem answerPush_replies (p : Option TonePos) (x : Sample) (b : Bool) (s : State) :
    (answerPush p x b s).replies = s.replies := rfl
@[simp] theorem answerPush_draws (p : Option TonePos) (x : Sample) (b : Bool) (s : State) :
    (answerPush p x b s).draws = s.draws := rfl
@[simp] theorem answerPush_params (p : Option TonePos) (x : Sample) (b : Bool) (s : State) :
    (answerPush p x b s).params = s.params := rfl

/-! ### countOffer -/

@[simp] theorem countOffer_busy (s : State) : (countOffer s).busy = s.busy := rfl
@[simp] theorem countOffer_done (s : State) : (countOffer s).done = s.done := rfl
@[simp] theorem countOffer_err (s : State) : (countOffer s).err = s.err := rfl
@[simp] theorem countOffer_lastErr (s : State) : (countOffer s).lastErr = s.lastErr := rfl
@[simp] theorem countOffer_regs (s : State) : (countOffer s).regs = s.regs := rfl
@[simp] theorem countOffer_res (s : State) : (countOffer s).res = { s.res with sampleCount := s.res.sampleCount + 1 } := rfl
@[simp] theorem countOffer_seq (s : State) : (countOffer s).seq = s.seq := rfl
@[simp] theorem countOffer_scan (s : State) : (countOffer s).scan = s.scan := rfl
@[simp] theorem countOffer_tape (s : State) : (countOffer s).tape = s.tape := rfl
@[simp] theorem countOffer_tone (s : State) : (countOffer s).tone = s.tone := rfl
@[simp] theorem countOffer_todo (s : State) : (countOffer s).todo = s.todo := rfl
@[simp] theorem countOffer_mem (s : State) : (countOffer s).mem = s.mem := rfl
@[simp] theorem countOffer_port (s : State) : (countOffer s).port = s.port := rfl
@[simp] theorem countOffer_sink (s : State) : (countOffer s).sink = s.sink := rfl
@[simp] theorem countOffer_host (s : State) : (countOffer s).host = s.host := rfl
@[simp] theorem countOffer_replies (s : State) : (countOffer s).replies = s.replies := rfl
@[simp] theorem countOffer_draws (s : State) : (countOffer s).draws = s.draws := rfl
@[simp] theorem countOffer_params (s : State) : (countOffer s).params = s.params := rfl

/-! ### countAnswer -/

@[simp] theorem countAnswer_busy (s : State) : (countAnswer s).busy = s.busy := by
  unfold countAnswer; split <;> first | rfl | (split <;> rfl)
@[simp] theorem countAnswer_done (s : State) : (countAnswer s).done = s.done := by
  unfold countAnswer; split <;> first | rfl | (split <;> rfl)
@[simp] theorem countAnswer_regs (s : State) : (countAnswer s).regs = s.regs := by
  unfold countAnswer; split <;> first | rfl | (split <;> rfl)
@[simp] theorem countAnswer_seq (s : State) : (countAnswer s).seq = s.seq := by
  unfold countAnswer; split <;> first | rfl | (split <;> rfl)
@[simp] theorem countAnswer_scan (s : State) : (countAnswer s).scan = s.scan := by
  unfold countAnswer; split <;> first | rfl | (split <;> rfl)
@[simp] theorem countAnswer_tape (s : State) : (countAnswer s).tape = s.tape := by
  unfold countAnswer; split <;> first | rfl | (split <;> rfl)
@[simp] theorem countAnswer_tone (s : State) : (countAnswer s).tone = s.tone := by
  unfold countAnswer; split <;> first | rfl | (split <;> rfl)
@[simp] theorem countAnswer_todo (s : State) : (countAnswer s).todo = s.todo := by
  unfold countAnswer; split <;> first | rfl | (split <;> rfl)
@[simp] theorem countAnswer_mem (s : State) : (countAnswer s).mem = s.mem := by
  unfold countAnswer; split <;> first | rfl | (split <;> rfl)
@[simp] theorem countAnswer_port (s : State) : (countAnswer s).port = s.port := by
  unfold countAnswer; split <;> first | rfl | (split <;> rfl)
@[simp] theorem countAnswer_sink (s : State) : (countAnswer s).sink = s.sink := by
  unfold countAnswer; split <;> first | rfl | (split <;> rfl)
@[simp] theorem countAnswer_host (s : State) : (countAnswer s).host = s.host := by
  unfold countAnswer; split <;> first | rfl | (split <;> rfl)
@[simp] theorem countAnswer_replies (s : State) : (countAnswer s).replies = s.replies := by
  unfold countAnswer; split <;> first | rfl | (split <;> rfl)
@[simp] theorem countAnswer_draws (s : State) : (countAnswer s).draws = s.draws := by
  unfold countAnswer; split <;> first | rfl | (split <;> rfl)
@[simp] theorem countAnswer_params (s : State) : (countAnswer s).params = s.params := by
  unfold countAnswer; split <;> first | rfl | (split <;> rfl)

/-- The newest push was accepted: RESULT counts it. -/
theorem countAnswer_accepted {s : State} {x : Sample} {ps : List Push} (h : s.port = ⟨x, true⟩ :: ps) :
    countAnswer s = { s with res := { s.res with result := s.res.result + 1 } } := by
  simp [countAnswer, h]

/-- The newest push was rejected: WRITE_FAIL is recorded. -/
theorem countAnswer_rejected {s : State} {x : Sample} {ps : List Push} (h : s.port = ⟨x, false⟩ :: ps) :
    countAnswer s = recordErr .writeFail s := by
  simp [countAnswer, h]

/-- What counting an answer can be: nothing (no push yet), one more in RESULT, or WRITE_FAIL. -/
theorem countAnswer_cases (s : State) :
    countAnswer s = s ∨ countAnswer s = { s with res := { s.res with result := s.res.result + 1 } } ∨
      countAnswer s = recordErr .writeFail s := by
  unfold countAnswer
  split
  · exact .inl rfl
  · split
    · exact .inr (.inl rfl)
    · exact .inr (.inr rfl)

end Sys2Proof.Machine
end

