-- ==== Sys2Proof/Laws/Ops.lean ====
section
/-! SUPPORT. What the engine can do, said once: what no engine step touches, how a run splits, and what a whole run of a
sink that answers comes to. -/

namespace Sys2Proof.Machine

/-! ### What no engine step touches -/

/-- The parts of the state that belong to the host and to the builder: no engine step writes them. -/
def sameHost (s t : State) : Prop :=
  t.regs = s.regs ∧ t.host = s.host ∧ t.replies = s.replies ∧ t.draws = s.draws ∧ t.params = s.params

theorem sameHost.refl (s : State) : sameHost s s := ⟨rfl, rfl, rfl, rfl, rfl⟩

theorem sameHost.trans {s t u : State} (h : sameHost s t) (k : sameHost t u) : sameHost s u := by
  obtain ⟨h1, h2, h3, h4, h5⟩ := h
  obtain ⟨k1, k2, k3, k4, k5⟩ := k
  exact ⟨k1.trans h1, k2.trans h2, k3.trans h3, k4.trans h4, k5.trans h5⟩

theorem applyOp_sameHost {op : EngineOp} {s t : State} (h : applyOp op s = some t) : sameHost s t := by
  cases op with
  | push pos x =>
    simp only [applyOp] at h
    split at h <;> simp only [Option.some.injEq, reduceCtorEq] at h <;> subst h <;> simp [sameHost]
  | countAnswer =>
    simp only [applyOp, Option.some.injEq] at h
    subst h
    simp [sameHost]
  | load | store | countOffer | record | setResult | setOutLen | setCksum | setNbin | scan | tape | complete =>
    simp only [applyOp, Option.some.injEq] at h
    subst h
    exact ⟨rfl, rfl, rfl, rfl, rfl⟩

theorem runOps_sameHost (l : Option Nat) (ops : List EngineOp) (s : State) : sameHost s (runOps l ops s) := by
  induction ops generalizing l s with
  | nil => exact ⟨rfl, rfl, rfl, rfl, rfl⟩
  | cons op ops ih =>
    simp only [runOps]
    split
    · exact ⟨rfl, rfl, rfl, rfl, rfl⟩
    · split
      · exact ⟨rfl, rfl, rfl, rfl, rfl⟩
      · rename_i h
        exact (applyOp_sameHost h).trans (ih _ _)

@[simp] theorem runOps_regs (l : Option Nat) (ops : List EngineOp) (s : State) : (runOps l ops s).regs = s.regs :=
  (runOps_sameHost l ops s).1
@[simp] theorem runOps_host (l : Option Nat) (ops : List EngineOp) (s : State) : (runOps l ops s).host = s.host :=
  (runOps_sameHost l ops s).2.1
@[simp] theorem runOps_replies (l : Option Nat) (ops : List EngineOp) (s : State) :
    (runOps l ops s).replies = s.replies := (runOps_sameHost l ops s).2.2.1
@[simp] theorem runOps_draws (l : Option Nat) (ops : List EngineOp) (s : State) : (runOps l ops s).draws = s.draws :=
  (runOps_sameHost l ops s).2.2.2.1
@[simp] theorem runOps_params (l : Option Nat) (ops : List EngineOp) (s : State) :
    (runOps l ops s).params = s.params := (runOps_sameHost l ops s).2.2.2.2

/-- An idle engine does nothing. -/
theorem engineRun_idle {s : State} (h : s.seq = .idle) : engineRun s = s := by simp [engineRun, h]

theorem engineRun_run {s : State} (h : s.seq = .run) :
    engineRun s =
      { runOps (stepLimit s.host) s.todo s with host := spendLimit s.host } := by
  simp [engineRun, h]

theorem spendLimit_of_none {evs : List HostEvent} (h : stepLimit evs = none) : spendLimit evs = evs := by
  match evs, h with
  | [], _ => rfl
  | ⟨.onCompletion, _⟩ :: _, _ => rfl

/-- The engine goes on without a limit where the host waits. -/
theorem engineRun_waits {s : State} (h : s.seq = .run) (hw : stepLimit s.host = none) :
    engineRun s = runOps none s.todo s := by
  rw [engineRun_run h, hw, spendLimit_of_none hw]
  rw [← runOps_host none s.todo s]

@[simp] theorem engineRun_regs (s : State) : (engineRun s).regs = s.regs := by
  unfold engineRun; split <;> simp
@[simp] theorem engineRun_replies (s : State) : (engineRun s).replies = s.replies := by
  unfold engineRun; split <;> simp
@[simp] theorem engineRun_draws (s : State) : (engineRun s).draws = s.draws := by
  unfold engineRun; split <;> simp
@[simp] theorem engineRun_params (s : State) : (engineRun s).params = s.params := by
  unfold engineRun; split <;> simp

/-! ### A run does not look at `todo` -/

theorem applyOp_todo (op : EngineOp) (s : State) (w : List EngineOp) :
    applyOp op { s with todo := w } = (applyOp op s).map fun t => { t with todo := w } := by
  cases op with
  | push pos x =>
    simp only [applyOp]
    split <;> simp [answerPush]
  | countAnswer =>
    simp only [applyOp, countAnswer, Option.map_some]
    split <;> first | rfl | (split <;> rfl)
  | load | store | countOffer | record | setResult | setOutLen | setCksum | setNbin | scan | tape | complete => rfl

theorem runOps_todo (l : Option Nat) (ops : List EngineOp) (s : State) (w : List EngineOp) :
    runOps l ops { s with todo := w } = runOps l ops s := by
  induction ops generalizing l s with
  | nil => rfl
  | cons op ops ih =>
    simp only [runOps, applyOp_todo]
    split
    · rfl
    · cases applyOp op s with
      | none => rfl
      | some t => exact ih _ _

/-! ### A whole run -/

/-- One engine step, as it goes when the sink answers. -/
def performOp (s : State) (op : EngineOp) : State := (applyOp op s).getD s

/-- Engine steps in order, as they go when the sink answers. -/
def perform (ops : List EngineOp) (s : State) : State := ops.foldl performOp s

@[simp] theorem perform_nil (s : State) : perform [] s = s := rfl
@[simp] theorem perform_cons (op : EngineOp) (ops : List EngineOp) (s : State) :
    perform (op :: ops) s = perform ops (performOp s op) := rfl
theorem perform_append (as bs : List EngineOp) (s : State) : perform (as ++ bs) s = perform bs (perform as s) := by
  simp [perform]

@[simp] theorem performOp_load (s : State) (a : Nat) (b : Byte) : performOp s (.load a b) = s := rfl
@[simp] theorem performOp_countOffer (s : State) : performOp s .countOffer = countOffer s := rfl
@[simp] theorem performOp_countAnswer (s : State) : performOp s .countAnswer = countAnswer s := rfl
@[simp] theorem performOp_store (s : State) (a : Nat) (b : Byte) :
    performOp s (.store a b) = { s with mem := Memory.write s.mem a b } := rfl
@[simp] theorem performOp_record (s : State) (e : ErrKind) : performOp s (.record e) = recordErr e s := rfl
@[simp] theorem performOp_setResult (s : State) (v : Word) :
    performOp s (.setResult v) = { s with res := { s.res with result := v } } := rfl
@[simp] theorem performOp_setOutLen (s : State) (v : Word) :
    performOp s (.setOutLen v) = { s with res := { s.res with outLen := v } } := rfl
@[simp] theorem performOp_setCksum (s : State) (b : Byte) :
    performOp s (.setCksum b) = { s with res := { s.res with cksum := b } } := rfl
@[simp] theorem performOp_setNbin (s : State) (v : Word) :
    performOp s (.setNbin v) = { s with res := { s.res with nbin := v } } := rfl
@[simp] theorem performOp_scan (s : State) (c : Scan) : performOp s (.scan c) = { s with scan := c } := rfl
@[simp] theorem performOp_tape (s : State) (p : TapePos) : performOp s (.tape p) = { s with tape := p } := rfl
@[simp] theorem performOp_complete (s : State) : performOp s .complete = completeCmd s := rfl

/-- Reading leaves no trace. -/
@[simp] theorem perform_loadOps (m : Memory) (base : Word) (off n : Nat) (s : State) :
    perform (loadOps m base off n) s = s := by
  unfold loadOps
  induction List.range n with
  | nil => rfl
  | cons i is ih => simpa using ih

theorem sinkLive_answer {k : Sink} (h : sinkLive k = true) : sinkAnswer k ≠ .silent := by
  obtain ⟨as, t⟩ := k
  cases as <;> simp_all [sinkLive, sinkAnswer]

theorem sinkLive_rest {k : Sink} (h : sinkLive k = true) : sinkLive (sinkRest k) = true := by
  obtain ⟨as, t⟩ := k
  cases as <;> simp_all [sinkLive, sinkRest]

theorem performOp_push {s : State} (h : sinkAnswer s.sink ≠ .silent) (pos : Option TonePos) (x : Sample) :
    performOp s (.push pos x) = answerPush pos x (sinkAnswer s.sink == .accept) s := by
  cases hk : sinkAnswer s.sink
  · simp [performOp, applyOp, hk]
  · simp only [performOp, applyOp, hk, Option.getD_some]; rfl
  · exact absurd hk h

theorem applyOp_push {s : State} (h : sinkAnswer s.sink ≠ .silent) (pos : Option TonePos) (x : Sample) :
    applyOp (.push pos x) s = some (performOp s (.push pos x)) := by
  cases hs : sinkAnswer s.sink <;> simp_all [performOp, applyOp]

/-- A step of the engine: it performs its operation, unless it is a push to a sink that does not answer. -/
theorem applyOp_eq_performOp {op : EngineOp} {s : State}
    (h : sinkLive s.sink = true ∨ ∀ pos x, op ≠ .push pos x) : applyOp op s = some (performOp s op) := by
  cases op with
  | push pos x =>
    have hl := h.resolve_right fun k => k pos x rfl
    have := sinkLive_answer hl
    simp only [performOp, applyOp]
    split <;> simp_all
  | countAnswer => rfl
  | load | store | countOffer | record | setResult | setOutLen | setCksum | setNbin | scan | tape | complete => rfl

@[simp] theorem performOp_sinkLive {s : State} (h : sinkLive s.sink = true) (op : EngineOp) :
    sinkLive (performOp s op).sink = true := by
  cases op with
  | push pos x => rw [performOp_push (sinkLive_answer h)]; simpa using sinkLive_rest h
  | countAnswer => simpa using h
  | load | store | countOffer | record | setResult | setOutLen | setCksum | setNbin | scan | tape | complete => simpa using h

/-- Without a limit, a step that can be performed is. -/
theorem runOps_cons {op : EngineOp} {s t : State} (h : applyOp op s = some t) (ops : List EngineOp) :
    runOps none (op :: ops) s = runOps none ops t := by simp [runOps, h]

/-- Without a limit and with a sink that answers, every step is performed. -/
theorem runOps_live {s : State} (h : sinkLive s.sink = true) (ops : List EngineOp) :
    runOps none ops s = { perform ops s with todo := [] } := by
  induction ops generalizing s with
  | nil => rfl
  | cons op ops ih =>
    simp only [runOps, applyOp_eq_performOp (op := op) (.inl h), perform_cons]
    exact ih (performOp_sinkLive h op)

/-- No step of the list is a push. -/
def pushFree (ops : List EngineOp) : Prop := ∀ op ∈ ops, ∀ pos x, op ≠ .push pos x

/-- Without a limit, steps that push nothing are all performed, whatever the sink is. -/
theorem runOps_pushFree {ops : List EngineOp} (h : pushFree ops) (s : State) :
    runOps none ops s = { perform ops s with todo := [] } := by
  induction ops generalizing s with
  | nil => rfl
  | cons op ops ih =>
    simp only [runOps, applyOp_eq_performOp (op := op) (.inr (h op (by simp))), perform_cons]
    exact ih (fun o ho => h o (by simp [ho])) _

theorem storeOps_eq_map (base : Word) (off : Nat) (bs : List Byte) :
    storeOps base off bs = bs.zipIdx.map fun x => .store (effAddr base (off + x.2)) x.1 := by
  suffices h : ∀ (off k : Nat), storeOps base (off + k) bs =
      (bs.zipIdx k).map fun x => .store (effAddr base (off + x.2)) x.1 from h off 0
  induction bs with
  | nil => intros; rfl
  | cons b bs ih =>
    intro off k
    simp only [storeOps, List.zipIdx_cons, List.map_cons]
    rw [Nat.add_assoc, ih]

theorem mem_storeOps {base : Word} {off : Nat} {bs : List Byte} {op : EngineOp} (h : op ∈ storeOps base off bs) :
    ∃ i < bs.length, ∃ b, op = .store (effAddr base (off + i)) b := by
  induction bs generalizing off with
  | nil => simp [storeOps] at h
  | cons b bs ih =>
    rcases List.mem_cons.1 h with h | h
    · exact ⟨0, by simp, b, h⟩
    · obtain ⟨i, hi, c, hc⟩ := ih h
      exact ⟨i + 1, by simpa using hi, c, by rw [hc, Nat.add_assoc, Nat.add_comm 1]⟩

theorem mem_loadOps {m : Memory} {base : Word} {off n : Nat} {op : EngineOp} (h : op ∈ loadOps m base off n) :
    ∃ i < n, op = .load (effAddr base (off + i)) (Memory.read m (effAddr base (off + i))) := by
  simp only [loadOps, List.mem_map, List.mem_range] at h
  obtain ⟨i, hi, rfl⟩ := h
  exact ⟨i, hi, rfl⟩

/-- Performing the stores of a byte string writes it. -/
@[simp] theorem perform_storeOps (base : Word) (off : Nat) (bs : List Byte) (s : State) :
    perform (storeOps base off bs) s = { s with mem := writeBytes s.mem base off bs } := by
  induction bs generalizing off s with
  | nil => rfl
  | cons b bs ih => simp only [storeOps, perform_cons, performOp_store, ih, writeBytes]

theorem pushFree_storeOps (base : Word) (off : Nat) (bs : List Byte) : pushFree (storeOps base off bs) := by
  intro op h pos x he
  obtain ⟨_, _, _, hb⟩ := mem_storeOps h
  simp [hb] at he

theorem pushFree_loadOps (m : Memory) (base : Word) (off n : Nat) : pushFree (loadOps m base off n) := by
  intro op h pos x he
  obtain ⟨_, _, hb⟩ := mem_loadOps h
  simp [hb] at he

theorem pushFree_append {as bs : List EngineOp} (ha : pushFree as) (hb : pushFree bs) : pushFree (as ++ bs) := by
  intro op h
  rcases List.mem_append.1 h with h | h
  · exact ha op h
  · exact hb op h

/-! ### Commands -/

/-- A command of an idle block whose host waits: the start effects, then the whole plan and the completion. -/
theorem runCommand_ready {plan : State → List EngineOp} {s : State} (h : Ready s) :
    runCommand plan s = .next (runOps none (plan s ++ [.complete]) (startCmd s)) := by
  rw [runCommand, if_neg (by simp [h.1])]
  exact congrArg _ ((engineRun_waits (s := { startCmd s with todo := plan s ++ [.complete] }) rfl h.2).trans
    (runOps_todo _ _ _ _))

/-- The same, where the sink answers or the plan pushes nothing. -/
theorem runCommand_performed {plan : State → List EngineOp} {s : State} (h : Ready s)
    (hp : sinkLive s.sink = true ∨ pushFree (plan s)) :
    runCommand plan s = .next { completeCmd (perform (plan s) (startCmd s)) with todo := [] } := by
  rw [runCommand_ready h]
  rcases hp with hp | hp
  · rw [runOps_live (by exact hp), perform_append]
    rfl
  · rw [runOps_pushFree (pushFree_append hp (by simp [pushFree])), perform_append]
    rfl

theorem runDisjoint_performed {plan : State → List EngineOp} {s : State} (h : Ready s)
    (ho : regionsOverlap s.regs = false) (hp : sinkLive s.sink = true ∨ pushFree (plan s)) :
    runDisjoint plan s = .next { completeCmd (perform (plan s) (startCmd s)) with todo := [] } := by
  rw [runDisjoint, if_neg (by simp [ho]), runCommand_performed h hp]

/-- A command that raises an error before any other effect. -/
theorem runCommand_raised {plan : State → List EngineOp} {s : State} {e : ErrKind} (h : Ready s)
    (hp : plan s = [.record e]) : runCommand plan s = .next (failed e s) := by
  rw [runCommand_performed h (.inr (by simp [hp, pushFree])), hp]
  simp [failed, finished, completeCmd, recordErr, startCmd]

/-- Every command that goes through `runCommand` keeps the host's and the builder's parts. -/
theorem runCommand_keeps {plan : State → List EngineOp} {s t : State} (h : runCommand plan s = .next t) :
    t.regs = s.regs ∧ t.replies = s.replies ∧ t.draws = s.draws ∧ t.params = s.params := by
  unfold runCommand at h
  split at h <;> simp only [Host.Outcome.next.injEq] at h <;> subst h <;> simp

end Sys2Proof.Machine
end

