-- ==== Sys2Proof/Laws/PerInstr.lean ====
section
/-! SUPPORT. Per-instruction laws: the word of every command is a legal command word (30_encoding.md R70, R71). -/

namespace Sys2Proof.Laws.LegalWord

/-- Bits 31:8 of the command's word are zero and its word passes the check on command words. -/
def Statement (i : Instr) : Prop := (encode i).extractLsb' 8 24 = 0 ∧ wellFormedWord (encode i) = true

theorem nop : Statement .nop := ⟨by decide, by decide⟩
theorem frameBlock : Statement .frameBlock := ⟨by decide, by decide⟩
theorem chunkLen : Statement .chunkLen := ⟨by decide, by decide⟩
theorem buildHeader : Statement .buildHeader := ⟨by decide, by decide⟩
theorem decodeContainer : Statement .decodeContainer := ⟨by decide, by decide⟩
theorem reqSize : Statement .reqSize := ⟨by decide, by decide⟩
theorem encodeContainer : Statement .encodeContainer := ⟨by decide, by decide⟩
theorem renderTone : Statement .renderTone := ⟨by decide, by decide⟩
theorem renderSilence : Statement .renderSilence := ⟨by decide, by decide⟩
theorem encodeTape : Statement .encodeTape := ⟨by decide, by decide⟩

end Sys2Proof.Laws.LegalWord
end

