-- ==== Sys2Proof/Laws/Step.lean ====
section
/-! SUPPORT. The step, said once: a due access is the step, a block that waits runs its engine, a command issued while
BUSY = 1 is dropped. -/

namespace Sys2Proof.Machine

/-- The step of a due host access is that access. -/
theorem step_due {s : State} {e : HostEvent} {rest : List HostEvent} (h : Due s e rest) :
    step s = hostAct e.act { s with host := rest } := by
  obtain ⟨hh, ha, ht⟩ := h
  rw [step, machineStep, if_neg (by simpa using ht), hh]
  simp [ha]

/-- What a step can be: the fault of a busy block without work, the host's next access, or the engine going on. -/
theorem step_cases (s : State) :
    (s.busy = true ∧ s.todo = [] ∧ step s = .fault .busyWithoutWork) ∨
      (∃ e rest, Due s e rest ∧ step s = hostAct e.act { s with host := rest }) ∨
        ((s.busy = true → s.todo ≠ []) ∧ step s = .next (engineRun s)) := by
  by_cases hf : (s.busy && s.todo.isEmpty) = true
  · exact .inl ⟨by simp_all, by simp_all, by rw [step, machineStep, if_pos hf]⟩
  · have ht : s.busy = true → s.todo ≠ [] := by simpa using hf
    refine .inr ?_
    cases hh : s.host with
    | nil => exact .inr ⟨ht, by rw [step, machineStep, if_neg hf, hh]⟩
    | cons e rest =>
      by_cases ha : arrived s e = true
      · exact .inl ⟨e, rest, ⟨hh, ha, ht⟩, step_due ⟨hh, ha, ht⟩⟩
      · exact .inr ⟨ht, by rw [step, machineStep, if_neg hf, hh]; simp [ha]⟩

theorem runCommand_busy {plan : State → List EngineOp} {s : State} (h : s.busy = true) :
    runCommand plan s = .next (engineRun (overrun s)) := by rw [runCommand, if_pos h]

theorem runDisjoint_busy {plan : State → List EngineOp} {s : State} (h : s.busy = true) :
    runDisjoint plan s = .next (engineRun (overrun s)) := by rw [runDisjoint, if_neg (by simp [h]), runCommand_busy h]

/-- The plan of a command. -/
def planOf : Instr → State → List EngineOp
  | .nop => fun _ => []
  | .frameBlock => planFrameBlock
  | .chunkLen => planChunkLen
  | .buildHeader => planBuildHeader
  | .decodeContainer => planDecodeContainer
  | .reqSize => planReqSize
  | .encodeContainer => planEncodeContainer
  | .renderTone => planRenderTone
  | .renderSilence => planRenderSilence
  | .encodeTape => planEncodeTape

/-- The commands that read one region and write the other (70_reset_and_hazards.md R218). -/
def readsAndWrites : Instr → Bool
  | .frameBlock | .decodeContainer | .encodeContainer => true
  | .nop | .chunkLen | .buildHeader | .reqSize | .renderTone | .renderSilence | .encodeTape => false

/-- Every command runs its plan, or is refused at launch. -/
theorem exec_eq (i : Instr) (s : State) :
    exec i s = if readsAndWrites i then runDisjoint (planOf i) s else runCommand (planOf i) s := by
  cases i <;> rfl

/-- A command that answers a next state has run its plan. -/
theorem exec_next {i : Instr} {s t : State} (h : exec i s = .next t) : runCommand (planOf i) s = .next t := by
  rw [exec_eq] at h
  split at h
  · rw [runDisjoint] at h
    split at h
    · simp at h
    · exact h
  · exact h

theorem exec_busy {i : Instr} {s : State} (h : s.busy = true) : exec i s = .next (engineRun (overrun s)) := by
  rw [exec_eq]
  split
  · exact runDisjoint_busy h
  · exact runCommand_busy h

@[simp] theorem regAt_zero : regAt 0x00#8 = some .cmd := by decide

/-- What a register reads as does not depend on the host's queue or on what the host has read. -/
@[simp] theorem regWord_host (r : Option Reg) (s : State) (evs : List HostEvent) :
    regWord r { s with host := evs } = regWord r s := by
  rcases r with _ | r
  · rfl
  · cases r <;> rfl

/-- The only register offset of CMD is 0. -/
theorem regAt_cmd {off : BitVec 8} (ha : alignedOffset off = true) (h : regAt off = some .cmd) : off = 0 := by
  revert off; decide

end Sys2Proof.Machine
end

