-- ==== Sys2Proof/Laws/Run.lean ====
section
/-! SUPPORT. Runs of engine steps: what every step keeps the run keeps, and what is left is a tail of the work. -/

namespace Sys2Proof.Machine

/-- What every step of a run keeps, the run keeps, however far it gets. -/
theorem runOps_keeps {P : State → Prop} {ops : List EngineOp} (l : Option Nat) {s : State} (h : P s)
    (hop : ∀ op ∈ ops, ∀ s t, P s → applyOp op s = some t → P t)
    (htodo : ∀ s w, P s → P { s with todo := w }) : P (runOps l ops s) := by
  induction ops generalizing l s with
  | nil => exact htodo _ _ h
  | cons op ops ih =>
    simp only [runOps]
    split
    · exact htodo _ _ h
    · split
      · exact htodo _ _ h
      · rename_i ha
        exact ih _ (hop op (by simp) _ _ h ha) fun o ho => hop o (by simp [ho])

/-- What a run leaves to do is a tail of its work. -/
theorem runOps_suffix (l : Option Nat) (ops : List EngineOp) (s : State) : ∃ pre, pre ++ (runOps l ops s).todo = ops := by
  induction ops generalizing l s with
  | nil => exact ⟨[], rfl⟩
  | cons op ops ih =>
    simp only [runOps]
    split
    · exact ⟨[], rfl⟩
    · split
      · exact ⟨[], rfl⟩
      · obtain ⟨pre, h⟩ := ih (l.map (· - 1)) _
        exact ⟨op :: pre, by rw [List.cons_append, h]⟩

/-- Two steps of the engine never undo a completion: only `complete` makes the block idle. -/
theorem applyOp_seq {op : EngineOp} {s t : State} (h : applyOp op s = some t) (hc : op ≠ .complete) :
    t.seq = s.seq ∧ t.busy = s.busy ∧ t.done = s.done := by
  cases op with
  | complete => exact absurd rfl hc
  | push pos x =>
    simp only [applyOp] at h
    split at h <;> simp only [Option.some.injEq, reduceCtorEq] at h <;> subst h <;> simp
  | countAnswer =>
    simp only [applyOp, Option.some.injEq] at h
    subst h
    simp
  | load | store | countOffer | record | setResult | setOutLen | setCksum | setNbin | scan | tape =>
    simp only [applyOp, Option.some.injEq] at h
    subst h
    exact ⟨rfl, rfl, rfl⟩

/-- A run over steps and one completion: it has completed and nothing is left, or it is as busy as it was, with the
completion still to come. -/
theorem runOps_complete (l : Option Nat) {plan : List EngineOp} (hp : ∀ op ∈ plan, op ≠ .complete) (s : State) :
    let t := runOps l (plan ++ [.complete]) s
    (t.todo = [] ∧ t.seq = .idle ∧ t.busy = false ∧ t.done = true) ∨
      ((∃ pre post, plan = pre ++ post ∧ t.todo = post ++ [.complete]) ∧
        t.seq = s.seq ∧ t.busy = s.busy ∧ t.done = s.done) := by
  induction plan generalizing l s with
  | nil =>
    simp only [List.nil_append, runOps]
    split
    · exact .inr ⟨⟨[], [], rfl, rfl⟩, rfl, rfl, rfl⟩
    · exact .inl ⟨rfl, rfl, rfl, rfl⟩
  | cons op plan ih =>
    simp only [List.cons_append, runOps]
    split
    · exact .inr ⟨⟨[], op :: plan, rfl, rfl⟩, rfl, rfl, rfl⟩
    · split
      · exact .inr ⟨⟨[], op :: plan, rfl, rfl⟩, rfl, rfl, rfl⟩
      · rename_i s' ha
        obtain ⟨h1, h2, h3⟩ := applyOp_seq ha (hp op (by simp))
        rcases ih (l.map (· - 1)) (fun o ho => hp o (by simp [ho])) s' with h | ⟨⟨pre, post, hpp, ht⟩, k1, k2, k3⟩
        · exact .inl h
        · exact .inr ⟨⟨op :: pre, post, by rw [hpp, List.cons_append], ht⟩, k1.trans h1, k2.trans h2, k3.trans h3⟩

/-! ### The engine does not look at the host -/

/-- The state as another host sees it: other accesses to come, other reads behind it. -/
def withHost (h : List HostEvent) (rs : List Reply) (n : Nat) (s : State) : State :=
  { s with host := h, replies := rs, draws := n }

theorem applyOp_withHost (op : EngineOp) (h : List HostEvent) (rs : List Reply) (n : Nat) (s : State) :
    applyOp op (withHost h rs n s) = (applyOp op s).map (withHost h rs n) := by
  cases op with
  | push pos x =>
    simp only [applyOp, withHost]
    split <;> simp [answerPush, withHost]
  | countAnswer =>
    simp only [applyOp, countAnswer, withHost, Option.map_some]
    split <;> first | rfl | (split <;> rfl)
  | load | store | countOffer | record | setResult | setOutLen | setCksum | setNbin | scan | tape | complete => rfl

/-- A run of the engine does not depend on what the host holds. -/
theorem runOps_withHost (l : Option Nat) (ops : List EngineOp) (h : List HostEvent) (rs : List Reply) (n : Nat)
    (s : State) : runOps l ops (withHost h rs n s) = withHost h rs n (runOps l ops s) := by
  induction ops generalizing l s with
  | nil => rfl
  | cons op ops ih =>
    simp only [runOps, applyOp_withHost]
    split
    · rfl
    · cases applyOp op s with
      | none => rfl
      | some t => exact ih _ _

theorem scanChunk_congr {s t : State} (hr : t.regs = s.regs) (hm : t.mem = s.mem) (hp : t.params = s.params) (c : Scan) :
    scanChunk t c = scanChunk s c := by simp only [scanChunk, hr, hm, hp]

theorem chunkLoads_congr {s t : State} (hr : t.regs = s.regs) (hm : t.mem = s.mem) (hp : t.params = s.params) (c : Scan) :
    chunkLoads t c = chunkLoads s c := by simp only [chunkLoads, hr, hm, hp]

theorem scanLoop_congr {s t : State} (hr : t.regs = s.regs) (hm : t.mem = s.mem) (hp : t.params = s.params) (fuel : Nat)
    (c : Scan) : scanLoop t fuel c = scanLoop s fuel c := by
  induction fuel generalizing c with
  | zero => rfl
  | succ fuel ih => simp only [scanLoop, chunkLoads_congr hr hm hp, scanChunk_congr hr hm hp, hr, ih]

/-- A command's plan depends on the registers, the memory and the launch parameters only. -/
theorem planOf_congr {s t : State} (hr : t.regs = s.regs) (hm : t.mem = s.mem) (hp : t.params = s.params) (i : Instr) :
    planOf i t = planOf i s := by
  cases i <;>
    simp only [planOf, planFrameBlock, frameBlockBytes, planChunkLen, planBuildHeader, planDecodeContainer, planReqSize,
      planEncodeContainer, payload, planRenderTone, planRenderSilence, planEncodeTape, scanLoop_congr hr hm hp, hr, hm, hp]

/-- What a command that answers a next state has come to, at an idle block, however far the host lets it go. -/
theorem exec_idle {i : Instr} {s t : State} (hb : s.busy = false) (ht : exec i s = .next t) :
    t = { runOps (stepLimit s.host) (planOf i s ++ [.complete]) (startCmd s) with host := spendLimit s.host } := by
  have h := exec_next ht
  rw [runCommand, if_neg (by simp [hb]), engineRun_run rfl, runOps_todo, Host.Outcome.next.injEq] at h
  exact h.symm

end Sys2Proof.Machine
end

