-- ==== Sys2Proof/Laws/Push.lean ====
section
/-! SUPPORT. The sample port, said once: what performing a list of pushes, tape positions and recorded errors comes to when
the sink answers (45_tone.md R172, 20_memory.md R62). -/

namespace Sys2Proof.Machine

/-- The steps of the tone and tape commands: whole emissions, tape positions, recorded errors. -/
inductive Audible : List EngineOp → Prop where
  | nil : Audible []
  | emit (pos : Option TonePos) (x : Sample) {ops : List EngineOp} (h : Audible ops) : Audible (emitOps pos x ++ ops)
  | record (e : ErrKind) {ops : List EngineOp} (h : Audible ops) : Audible (.record e :: ops)
  | tape (p : TapePos) {ops : List EngineOp} (h : Audible ops) : Audible (.tape p :: ops)

theorem Audible.append {as bs : List EngineOp} (ha : Audible as) (hb : Audible bs) : Audible (as ++ bs) := by
  induction ha with
  | nil => exact hb
  | emit pos x _ ih => rw [List.append_assoc]; exact ih.emit pos x
  | record e _ ih => exact ih.record e
  | tape p _ ih => exact ih.tape p

theorem Audible.flatMap {α : Type} {l : List α} {f : α → List EngineOp} (h : ∀ a ∈ l, Audible (f a)) :
    Audible (l.flatMap f) := by
  induction l with
  | nil => exact .nil
  | cons a l ih =>
    rw [List.flatMap_cons]
    exact (h a (by simp)).append (ih fun b hb => h b (by simp [hb]))

/-- The sample a step offers. -/
def sampleOf : EngineOp → Option Sample
  | .push _ x => some x
  | .load _ _ | .store _ _ | .countOffer | .countAnswer | .record _ | .setResult _ | .setOutLen _ | .setCksum _
  | .setNbin _ | .scan _ | .tape _ | .complete => none

/-- The samples a list of steps offers, in order. -/
def samplesOf (ops : List EngineOp) : List Sample := ops.filterMap sampleOf

/-- The error bits a list of steps records by itself, rejections apart. -/
def recordedBits : List EngineOp → Word
  | [] => 0
  | .record e :: ops => errBit e ||| recordedBits ops
  | _ :: ops => recordedBits ops

/-- WRITE_FAIL, when the sink rejects one of the next n pushes. -/
def rejectBits (n : Nat) (k : Sink) : Word := if acceptedOf n k < n then errBit .writeFail else 0

@[simp] theorem samplesOf_nil : samplesOf [] = [] := rfl
@[simp] theorem samplesOf_emitOps (pos : Option TonePos) (x : Sample) : samplesOf (emitOps pos x) = [x] := rfl
@[simp] theorem recordedBits_emit (pos : Option TonePos) (x : Sample) (ops : List EngineOp) :
    recordedBits (emitOps pos x ++ ops) = recordedBits ops := rfl
@[simp] theorem samplesOf_record (e : ErrKind) (ops : List EngineOp) :
    samplesOf (.record e :: ops) = samplesOf ops := rfl
@[simp] theorem samplesOf_tape (p : TapePos) (ops : List EngineOp) : samplesOf (.tape p :: ops) = samplesOf ops := rfl
@[simp] theorem samplesOf_append (as bs : List EngineOp) : samplesOf (as ++ bs) = samplesOf as ++ samplesOf bs := by
  simp [samplesOf]

theorem recordedBits_append (as bs : List EngineOp) :
    recordedBits (as ++ bs) = recordedBits as ||| recordedBits bs := by
  induction as with
  | nil => simp [recordedBits]
  | cons op as ih => cases op <;> simp [recordedBits, ih, BitVec.or_assoc]

@[simp] theorem sinkAnswers_length (n : Nat) (k : Sink) : (sinkAnswers n k).length = n := by
  induction n generalizing k with
  | zero => rfl
  | succ n ih => simp [sinkAnswers, ih]

theorem acceptedOf_le (n : Nat) (k : Sink) : acceptedOf n k ≤ n := by
  have h := List.count_le_length (a := SinkAnswer.accept) (l := sinkAnswers n k)
  rwa [sinkAnswers_length] at h

theorem acceptedOf_succ (n : Nat) (k : Sink) :
    acceptedOf (n + 1) k = (if sinkAnswer k = .accept then 1 else 0) + acceptedOf n (sinkRest k) := by
  simp only [acceptedOf, sinkAnswers, List.count_cons, beq_iff_eq]
  exact Nat.add_comm ..

theorem rejectBits_succ (n : Nat) (k : Sink) :
    rejectBits (n + 1) k = (if sinkAnswer k = .accept then 0 else errBit .writeFail) ||| rejectBits n (sinkRest k) := by
  have := acceptedOf_le n (sinkRest k)
  simp only [rejectBits, acceptedOf_succ]
  by_cases ha : sinkAnswer k = .accept
  · rw [if_pos ha, if_pos ha]
    simp [show 1 + acceptedOf n (sinkRest k) < n + 1 ↔ acceptedOf n (sinkRest k) < n by omega]
  · simp only [ha, if_false, show 0 + acceptedOf n (sinkRest k) < n + 1 ↔ True by simp; omega, if_true]
    split <;> simp

theorem word_succ (w : Word) (m : Nat) : w + BitVec.ofNat 32 (m + 1) = w + 1 + BitVec.ofNat 32 m := by
  rw [BitVec.ofNat_add, BitVec.add_comm (BitVec.ofNat 32 m), ← BitVec.add_assoc]
  rfl

theorem or_four (w b c d : Word) : w ||| c ||| (b ||| d) = w ||| (b ||| (c ||| d)) := by
  rw [BitVec.or_assoc, ← BitVec.or_assoc c, BitVec.or_comm c, BitVec.or_assoc]

/-! ### What the sink answers -/

/-- The sink answers the next n pushes. -/
abbrev Answered (n : Nat) (k : Sink) : Prop := (sinkAnswers n k).all (fun a => a != .silent) = true

theorem Answered.head {n : Nat} {k : Sink} (h : Answered (n + 1) k) : sinkAnswer k ≠ .silent := by
  simp [Answered, sinkAnswers] at h
  exact h.1

theorem Answered.tail {n : Nat} {k : Sink} (h : Answered (n + 1) k) : Answered n (sinkRest k) := by
  simp [Answered, sinkAnswers] at h
  simpa [Answered] using h.2

theorem sinkLive_answered {k : Sink} (h : sinkLive k = true) (n : Nat) : Answered n k := by
  induction n generalizing k with
  | zero => rfl
  | succ n ih =>
    simp only [Answered, sinkAnswers, List.all_cons, Bool.and_eq_true, bne_iff_ne]
    exact ⟨sinkLive_answer h, ih (sinkLive_rest h)⟩

@[simp] theorem pushesOf_nil (k : Sink) : pushesOf [] k = [] := rfl
theorem pushesOf_cons (x : Sample) (xs : List Sample) (k : Sink) :
    pushesOf (x :: xs) k = ⟨x, sinkAnswer k == .accept⟩ :: pushesOf xs (sinkRest k) := rfl
theorem acceptedSamples_cons (x : Sample) (xs : List Sample) (k : Sink) :
    acceptedSamples (x :: xs) k =
      if sinkAnswer k = .accept then x :: acceptedSamples xs (sinkRest k) else acceptedSamples xs (sinkRest k) := by
  simp only [acceptedSamples, List.length_cons, sinkAnswers, List.zip_cons_cons, List.filter_cons, beq_iff_eq]
  split <;> rfl

/-- The samples of the pushes, and those of them the sink took. -/
theorem pushesOf_samples (xs : List Sample) (k : Sink) : (pushesOf xs k).map (·.sample) = xs := by
  induction xs generalizing k with
  | nil => rfl
  | cons x xs ih => rw [pushesOf_cons, List.map_cons, ih]

theorem pushesOf_accepted (xs : List Sample) (k : Sink) :
    ((pushesOf xs k).filter (·.accepted)).map (·.sample) = acceptedSamples xs k := by
  induction xs generalizing k with
  | nil => rfl
  | cons x xs ih =>
    rw [pushesOf_cons, acceptedSamples_cons, List.filter_cons, ← ih]
    simp only [beq_iff_eq]
    split <;> rfl

/-- What the port shows once the samples `xs` have been pushed. -/
theorem offered_pushed {s t : State} {xs : List Sample} {k : Sink} (h : t.port = (pushesOf xs k).reverse ++ s.port) :
    offered t = offered s ++ xs ∧ delivered t = delivered s ++ acceptedSamples xs k := by
  simp [offered, delivered, h, pushesOf_samples, pushesOf_accepted]

/-! ### Performing emissions -/

/-- One emission, with its answer: the offer is on the port, SAMPLE_COUNT counts it, RESULT or WRITE_FAIL the answer. -/
theorem perform_emitOps {s : State} (h : sinkAnswer s.sink ≠ .silent) (pos : Option TonePos) (x : Sample) :
    let took := sinkAnswer s.sink == .accept
    perform (emitOps pos x) s =
      { s with
        tone := pos.getD s.tone
        sink := sinkRest s.sink
        port := ⟨x, took⟩ :: s.port
        lastErr := s.lastErr ||| (if took then 0 else errBit .writeFail)
        err := s.err ||| (if took then 0 else errBit .writeFail)
        res :=
          { s.res with
            sampleCount := s.res.sampleCount + 1
            result := s.res.result + (if took then 1 else 0) } } := by
  simp only [emitOps, perform_cons, perform_nil, performOp_push h, performOp_countOffer, performOp_countAnswer]
  cases sinkAnswer s.sink == .accept
  · rw [countAnswer_rejected (x := x) (ps := s.port) rfl]
    simp [recordErr, countOffer, answerPush]
  · rw [countAnswer_accepted (x := x) (ps := s.port) rfl]
    simp [countOffer, answerPush]

/-- Performing audible steps with a sink that answers them: every sample is offered, in order, with its answer;
SAMPLE_COUNT counts them, RESULT the accepted ones, a rejection records WRITE_FAIL; the positions move; nothing else
changes. -/
theorem perform_audible {ops : List EngineOp} (ha : Audible ops) {s : State}
    (hk : Answered (samplesOf ops).length s.sink) :
    let n := (samplesOf ops).length
    let bits := recordedBits ops ||| rejectBits n s.sink
    perform ops s =
        { s with
          port := (pushesOf (samplesOf ops) s.sink).reverse ++ s.port
          tone := (perform ops s).tone
          tape := (perform ops s).tape
          sink := sinkAfter n s.sink
          lastErr := s.lastErr ||| bits
          err := s.err ||| bits
          res :=
            { s.res with
              sampleCount := s.res.sampleCount + BitVec.ofNat 32 n
              result := s.res.result + BitVec.ofNat 32 (acceptedOf n s.sink) } } := by
  induction ha generalizing s with
  | nil => simp [samplesOf, recordedBits, rejectBits, acceptedOf, sinkAnswers, sinkAfter]
  | emit pos x h ih =>
    simp only [samplesOf_append, samplesOf_emitOps, List.singleton_append, List.length_cons] at hk ⊢
    have he := perform_emitOps hk.head pos x (s := s)
    simp only at he
    rw [perform_append, ih (by rw [he]; exact hk.tail), he]
    simp only [recordedBits_emit, rejectBits_succ, acceptedOf_succ, sinkAfter, word_succ, pushesOf_cons,
      List.reverse_cons, List.append_assoc, List.singleton_append]
    cases hs : sinkAnswer s.sink == .accept
    · have hs' : sinkAnswer s.sink ≠ .accept := by simpa using hs
      simp only [if_neg hs', or_four, Bool.false_eq_true, if_false, Nat.zero_add]
      simp
    · have hs' : sinkAnswer s.sink = .accept := by simpa using hs
      simp only [if_pos hs', if_true, Nat.add_comm 1, word_succ]
      simp
  | record e h ih =>
    simp only [perform_cons, samplesOf_record] at hk ⊢
    rw [ih (by simpa using hk)]
    simp [recordedBits, BitVec.or_assoc]
  | tape p h ih =>
    simp only [perform_cons, samplesOf_tape] at hk ⊢
    rw [ih (by simpa using hk)]
    simp [recordedBits]

/-- A run performs audible steps whose pushes are answered, and goes on with what follows them. -/
theorem runOps_audible {ops : List EngineOp} (ha : Audible ops) (rest : List EngineOp) {s : State}
    (hk : Answered (samplesOf ops).length s.sink) : runOps none (ops ++ rest) s = runOps none rest (perform ops s) := by
  induction ha generalizing s with
  | nil => rfl
  | emit pos x h ih =>
    simp only [samplesOf_append, samplesOf_emitOps, List.singleton_append, List.length_cons] at hk
    rw [perform_append, ← ih (by rw [perform_emitOps hk.head]; exact hk.tail)]
    rw [emitOps, List.append_assoc, List.cons_append, runOps_cons (applyOp_push hk.head pos x)]
    rfl
  | record e h ih =>
    simp only [samplesOf_record] at hk
    exact ih (s := recordErr e s) (by simpa using hk)
  | tape p h ih =>
    simp only [samplesOf_tape] at hk
    exact ih (s := { s with tape := p }) hk

/-- The steps up to the push of sample m, counting from 0. -/
theorem Audible.split {ops : List EngineOp} (ha : Audible ops) {m : Nat} (hm : m < (samplesOf ops).length) :
    ∃ pre pos x post, ops = pre ++ .push pos x :: post ∧ Audible pre ∧ samplesOf pre = (samplesOf ops).take m := by
  induction ha generalizing m with
  | nil => simp at hm
  | emit pos x h ih =>
    cases m with
    | zero => exact ⟨[], pos, x, _, rfl, .nil, rfl⟩
    | succ m =>
      simp only [samplesOf_append, samplesOf_emitOps, List.singleton_append, List.length_cons] at hm ⊢
      obtain ⟨pre, pos', x', post, rfl, hp, hs⟩ := ih (m := m) (by omega)
      exact ⟨emitOps pos x ++ pre, pos', x', post, by rw [List.append_assoc], hp.emit pos x, congrArg (x :: ·) hs⟩
  | record e h ih =>
    obtain ⟨pre, pos', x', post, rfl, hp, hs⟩ := ih (by simpa using hm)
    exact ⟨.record e :: pre, pos', x', post, rfl, hp.record e, by simpa using hs⟩
  | tape p h ih =>
    obtain ⟨pre, pos', x', post, rfl, hp, hs⟩ := ih (by simpa using hm)
    exact ⟨.tape p :: pre, pos', x', post, rfl, hp.tape p, by simpa using hs⟩

/-- A run over audible steps stops at the first push the sink does not answer, with that push the next thing to do. -/
theorem runOps_stalls {ops : List EngineOp} (ha : Audible ops) (rest : List EngineOp) {m : Nat} {s : State}
    (hm : m < (samplesOf ops).length) (hk : Answered m s.sink) (hq : sinkAnswer (sinkAfter m s.sink) = .silent) :
    ∃ pre pos x post, ops = pre ++ .push pos x :: post ∧ Audible pre ∧ samplesOf pre = (samplesOf ops).take m ∧
      runOps none (ops ++ rest) s = { perform pre s with todo := .push pos x :: post ++ rest } := by
  obtain ⟨pre, pos, x, post, he, hp, hs⟩ := ha.split hm
  have hl : (samplesOf pre).length = m := by rw [hs, List.length_take]; omega
  refine ⟨pre, pos, x, post, he, hp, hs, ?_⟩
  rw [he, List.append_assoc, runOps_audible hp _ (by rwa [hl])]
  have hsk : sinkAnswer (perform pre s).sink = .silent := by
    rw [perform_audible hp (by rwa [hl]), hl]
    exact hq
  simp [runOps, applyOp, hsk]

end Sys2Proof.Machine
end

