-- ==== Sys2Proof/Laws/Reader.lean ====
section
/-! SUPPORT. The scan loop of the reader: each chunk advances the scan by at least 4 and stays inside the input, so the
bound on its iterations is never what ends it (43_container_reader.md R133, R140). -/

namespace Sys2Proof.Machine

/-- A chunk that does not stop the scan moves it past its header and its body, and not beyond the input. -/
theorem scanChunk_advances {s : State} {c c' : Scan} {ops : List EngineOp} (h : scanChunk s c = .go ops c') :
    c.off + 4 ≤ c'.off ∧ c'.off ≤ s.regs.srcLen.toNat := by
  simp only [scanChunk] at h
  split at h
  · simp at h
  split at h
  · simp at h
  simp only [advance] at h
  split at h
  · simp at h
  simp only [ChunkResult.go.injEq] at h
  rw [← h.2]
  simp only
  omega

/-- As many iterations as there are bytes left are enough: one more changes nothing. -/
theorem scanLoop_fuel {s : State} {fuel : Nat} {c : Scan} (h : s.regs.srcLen.toNat - c.off ≤ fuel) :
    scanLoop s (fuel + 1) c = scanLoop s fuel c := by
  induction fuel generalizing c with
  | zero =>
    have : ¬ c.off < s.regs.srcLen.toNat := by omega
    simp [scanLoop, this]
  | succ fuel ih =>
    rw [scanLoop, scanLoop]
    split
    · split
      · rfl
      · rename_i hc
        have := scanChunk_advances hc
        rw [ih (by omega)]
    · rfl

/-- The loop goes on until the scan has reached the end of the input or a chunk has stopped it. -/
theorem scanLoop_step {s : State} {fuel : Nat} {c : Scan} (h : s.regs.srcLen.toNat - c.off ≤ fuel) :
    scanLoop s fuel c =
      if c.off < s.regs.srcLen.toNat then
        chunkLoads s c ++
          match scanChunk s c with
          | .stop e => [.record e]
          | .go ops c' => ops ++ scanLoop s fuel c'
      else [] := by
  rw [← scanLoop_fuel h]
  rfl

/-- The reads of a chunk are reads, inside the input. -/
theorem mem_chunkLoads {s : State} {c : Scan} {op : EngineOp} (h : op ∈ chunkLoads s c) :
    ∃ i < s.regs.srcLen.toNat,
      op = .load (effAddr s.regs.srcBase i) (Memory.read s.mem (effAddr s.regs.srcBase i)) := by
  simp only [chunkLoads] at h
  split at h
  · simp at h
  rcases List.mem_append.1 h with h | h
  · obtain ⟨i, hi, rfl⟩ := mem_loadOps h
    exact ⟨c.off + i, by omega, rfl⟩
  · split at h
    · obtain ⟨i, hi, rfl⟩ := mem_loadOps h
      exact ⟨c.off + 4 + i, by omega, rfl⟩
    · simp at h

/-- They leave no trace. -/
@[simp] theorem perform_chunkLoads (s : State) (c : Scan) (t : State) : perform (chunkLoads s c) t = t := by
  simp only [chunkLoads]
  split
  · rfl
  · rw [perform_append, perform_loadOps]
    split <;> simp

theorem pushFree_chunkLoads (s : State) (c : Scan) : pushFree (chunkLoads s c) := by
  intro op h pos x he
  obtain ⟨_, _, hb⟩ := mem_chunkLoads h
  simp [hb] at he

end Sys2Proof.Machine
end

