-- ==== Sys2Proof/Laws/Sound.lean ====
section
/-! SUPPORT. Tones, silences and tapes as lists of engine steps: the samples they offer and the errors they record by
themselves (45_tone.md R168, R169, 46_tape.md R182 to R184). -/

namespace Sys2Proof.Machine

theorem samplesOf_flatMap {α : Type} (l : List α) (f : α → List EngineOp) :
    samplesOf (l.flatMap f) = l.flatMap fun a => samplesOf (f a) := by
  induction l with
  | nil => rfl
  | cons a l ih => simp [List.flatMap_cons, ih]

theorem samplesOf_cycleOps (r : Regs) (len duty c : Nat) :
    samplesOf (cycleOps r len duty c) = (List.range len).map fun k => encSample r (level r len duty k) := by
  unfold cycleOps
  induction List.range len with
  | nil => rfl
  | cons k ks ih => rw [List.flatMap_cons, samplesOf_append, ih]; rfl

/-- A tone offers the samples of R168. -/
@[simp] theorem samplesOf_toneOps (r : Regs) (f n duty : Nat) : samplesOf (toneOps r f n duty) = toneSamples r f n duty := by
  unfold toneOps toneSamples
  split
  · rename_i h
    simp [h]
  · rw [samplesOf_flatMap]
    simp only [samplesOf_cycleOps]

@[simp] theorem toneSamples_length (r : Regs) (f n duty : Nat) : (toneSamples r f n duty).length = n * cycleLen r f := by
  simp [toneSamples, List.length_flatMap]

/-- A silence offers the samples of R169. -/
@[simp] theorem samplesOf_silenceOps (r : Regs) (ms : Nat) : samplesOf (silenceOps r ms) = silenceSamples r ms := by
  have he : encSample r 0 = if bps16 r then 0x0000 else 0x0080 := by
    unfold encSample
    split <;> rfl
  unfold silenceOps silenceSamples silenceLen
  rw [he]
  induction r.sampleRate.toNat * ms / 1000 with
  | zero => rfl
  | succ n ih =>
    rw [List.replicate_succ, List.replicate_succ, List.flatten_cons, samplesOf_append, ih]
    rfl

@[simp] theorem silenceSamples_length (r : Regs) (ms : Nat) :
    (silenceSamples r ms).length = r.sampleRate.toNat * ms / 1000 := by simp [silenceSamples]

theorem audible_emit (pos : Option TonePos) (x : Sample) : Audible (emitOps pos x) := by
  simpa using Audible.nil.emit pos x

theorem audible_toneOps (r : Regs) (f n duty : Nat) : Audible (toneOps r f n duty) := by
  unfold toneOps
  split
  · exact Audible.nil.record _
  · exact .flatMap fun _ _ => .flatMap fun _ _ => audible_emit _ _

theorem audible_silenceOps (r : Regs) (ms : Nat) : Audible (silenceOps r ms) := by
  unfold silenceOps
  induction silenceLen r ms with
  | zero => exact .nil
  | succ n ih => exact ih.emit _ _

theorem recordedBits_flatMap_zero {α : Type} {l : List α} {f : α → List EngineOp} (h : ∀ a ∈ l, recordedBits (f a) = 0) :
    recordedBits (l.flatMap f) = 0 := by
  induction l with
  | nil => rfl
  | cons a l ih =>
    rw [List.flatMap_cons, recordedBits_append, h a (by simp), ih fun b hb => h b (by simp [hb])]
    rfl

/-- A tone records INVALID_FREQ exactly when it has no cycle length. -/
theorem recordedBits_toneOps (r : Regs) (f n duty : Nat) :
    recordedBits (toneOps r f n duty) = if cycleLen r f = 0 then errBit .invalidFreq else 0 := by
  unfold toneOps
  split
  · rfl
  · exact recordedBits_flatMap_zero fun _ _ => recordedBits_flatMap_zero fun _ _ => rfl

@[simp] theorem recordedBits_silenceOps (r : Regs) (ms : Nat) : recordedBits (silenceOps r ms) = 0 := by
  unfold silenceOps
  induction silenceLen r ms with
  | zero => rfl
  | succ n ih =>
    rw [List.replicate_succ, List.flatten_cons, recordedBits_append, ih]
    exact BitVec.or_zero

/-! ### Tapes -/

/-- The bits of a frame offer its samples (46_tape.md R182). -/
@[simp] theorem samplesOf_bitsOps (cyc : Nat) (r : Regs) (phase : TapePhase) (k : Nat) (f : List Byte) :
    samplesOf (bitsOps cyc r phase k f) = frameSamples cyc r f := by
  unfold bitsOps frameSamples
  rw [samplesOf_flatMap]
  generalize 0 = j
  induction frameBits f generalizing j with
  | nil => rfl
  | cons b bs ih =>
    rw [List.zipIdx_cons, List.flatMap_cons, List.flatMap_cons, ih]
    cases b <;> simp [bitTone, tapeDuty]

@[simp] theorem samplesOf_preambleOps (r : Regs) : samplesOf (preambleOps r) = preambleSamples r := by
  simp [preambleOps, preambleSamples, tapeDuty]

@[simp] theorem samplesOf_blockOps (cyc : Nat) (r : Regs) (pre bits : TapePhase) (k : Nat) (f : List Byte) :
    samplesOf (blockOps cyc r pre bits k f) = preambleSamples r ++ frameSamples cyc r f := by
  simp [blockOps]

/-- A tape offers the samples of the sequence of 46_tape.md R184. -/
@[simp] theorem samplesOf_tapeOps (cyc : Nat) (r : Regs) (size : Nat) (data : List Byte) :
    samplesOf (tapeOps cyc r size data) = tapeSamples cyc r size data := by
  simp [tapeOps, tapeSamples, tapeFrames, samplesOf_flatMap, List.flatMap_map, tapeDuty]

/-- INVALID_FREQ, where the sync tone of 2000 Hz has no cycle length: the most a tape can record by itself. -/
abbrev tapeBit (r : Regs) : Word := if cycleLen r 2000 = 0 then errBit .invalidFreq else 0

theorem toneOps_le_tapeBit (r : Regs) {f : Nat} (h : cycleLen r f = 0 → cycleLen r 2000 = 0) (n duty : Nat) :
    recordedBits (toneOps r f n duty) ||| tapeBit r = tapeBit r := by
  rw [recordedBits_toneOps]
  by_cases hf : cycleLen r f = 0
  · simp [tapeBit, hf, h hf]
  · simp [hf]

theorem flatMap_le_tapeBit {α : Type} (r : Regs) {l : List α} {g : α → List EngineOp}
    (h : ∀ a ∈ l, recordedBits (g a) ||| tapeBit r = tapeBit r) : recordedBits (l.flatMap g) ||| tapeBit r = tapeBit r := by
  induction l with
  | nil => exact BitVec.zero_or
  | cons a l ih =>
    rw [List.flatMap_cons, recordedBits_append, BitVec.or_assoc, ih fun b hb => h b (by simp [hb]), h a (by simp)]

theorem cycleLen_le_2000 (r : Regs) {f : Nat} (hf : 0 < f) (hle : f ≤ 2000) (h : cycleLen r f = 0) :
    cycleLen r 2000 = 0 := by
  simp only [cycleLen, Nat.div_eq_zero_iff] at *
  omega

theorem blockOps_le_tapeBit (cyc : Nat) (r : Regs) (pre bits : TapePhase) (k : Nat) (f : List Byte) :
    recordedBits (blockOps cyc r pre bits k f) ||| tapeBit r = tapeBit r := by
  have hb : recordedBits (bitsOps cyc r bits k f) ||| tapeBit r = tapeBit r := by
    refine flatMap_le_tapeBit r fun x _ => ?_
    obtain ⟨b, _⟩ := x
    cases b
    · exact toneOps_le_tapeBit r id _ _
    · exact toneOps_le_tapeBit r (f := 1000) (cycleLen_le_2000 r (by decide) (by decide)) _ _
  simp only [blockOps, preambleOps, List.cons_append, recordedBits, recordedBits_append, BitVec.or_assoc]
  rw [hb, toneOps_le_tapeBit r id, toneOps_le_tapeBit r (cycleLen_le_2000 r (by decide) (by decide))]

/-- A tape records INVALID_FREQ exactly when SAMPLE_RATE is below 2000 (46_tape.md R186). -/
theorem recordedBits_tapeOps (cyc : Nat) (r : Regs) (size : Nat) (data : List Byte) :
    recordedBits (tapeOps cyc r size data) = tapeBit r := by
  have hsync : recordedBits (tapeOps cyc r size data) = recordedBits (tapeOps cyc r size data) ||| tapeBit r := by
    simp only [tapeOps, blockOps, preambleOps, List.cons_append, List.append_assoc, recordedBits, recordedBits_append,
      recordedBits_silenceOps, recordedBits_toneOps]
    ext i hi
    simp only [BitVec.getElem_or]
    generalize (tapeBit r)[i] = z
    simp only [Bool.or_assoc]
    grind
  rw [hsync]
  have ht := fun f h1 h2 => toneOps_le_tapeBit r (f := f) (cycleLen_le_2000 r h1 h2)
  simp only [tapeOps, List.cons_append, List.append_assoc, recordedBits, recordedBits_append, recordedBits_silenceOps,
    BitVec.or_assoc]
  have hz : ∀ w : Word, 0 ||| w = w := fun _ => BitVec.zero_or
  rw [hz, hz, ht 100 (by decide) (by decide), flatMap_le_tapeBit r fun _ _ => blockOps_le_tapeBit _ _ _ _ _ _,
    blockOps_le_tapeBit, ht 1000 (by decide) (by decide)]

theorem audible_bitsOps (cyc : Nat) (r : Regs) (phase : TapePhase) (k : Nat) (f : List Byte) :
    Audible (bitsOps cyc r phase k f) :=
  .flatMap fun _ _ => (audible_toneOps _ _ _ _).tape _

theorem audible_blockOps (cyc : Nat) (r : Regs) (pre bits : TapePhase) (k : Nat) (f : List Byte) :
    Audible (blockOps cyc r pre bits k f) :=
  (((audible_toneOps _ _ _ _).append (audible_toneOps _ _ _ _)).tape _).append (audible_bitsOps _ _ _ _ _)

theorem audible_tapeOps (cyc : Nat) (r : Regs) (size : Nat) (data : List Byte) : Audible (tapeOps cyc r size data) := by
  simp only [tapeOps, List.cons_append, List.append_assoc]
  exact ((audible_silenceOps _ _).append (((audible_toneOps _ _ _ _).append ((audible_blockOps _ _ _ _ _ _).append
    ((Audible.flatMap fun _ _ => audible_blockOps _ _ _ _ _ _).append
      (((audible_toneOps _ _ _ _).append ((audible_silenceOps _ _).tape _)).tape _)))).tape _)).tape _

end Sys2Proof.Machine
end

