-- ==== Sys2Proof/Tests/Slice0.lean ====
section
/-! SUPPORT. The model's own tests: ill-formed terms refused, every command's word written out from 30_encoding.md R73, one
or two small checks per command against 95_test_vectors.md, and a witness for the hypotheses of every obligation. -/

namespace Sys2Proof.Tests

open Sys2Proof Sys2Proof.Machine

/-! ### Small states -/

/-- The next state of an outcome. -/
def nextOf : Host.Outcome State Fault Refusal → Option State
  | .next s => some s
  | .fault _ => none
  | .refused _ => none

/-- The refusal of an outcome. -/
def refusalOf : Host.Outcome State Fault Refusal → Option Refusal
  | .next _ => none
  | .fault _ => none
  | .refused r => some r

/-- Launch parameters; no expected value below depends on the magic or the tags (95_test_vectors.md, Notation). -/
def params : Params where
  magic     := ⟨0xA1, 0xA2, 0xA3, 0xA4⟩
  tagData   := ⟨0xD0, 0xD1⟩
  tagMarker := ⟨0xC0, 0xC1⟩
  bitCycles := 1

/-- The block after reset, with these parameters. -/
def base : State := { State.reset with params := params }

/-- A memory that holds a byte string. -/
def memOf (a : Nat) (bs : List Byte) : Memory := bs.zipIdx.foldl (fun m x => Memory.write m (a + x.2) x.1) []

/-- The binary TEST in the registers and in memory (95_test_vectors.md, Notation). -/
def test : State :=
  { base with
    regs :=
      { Regs.reset with
        nameLo := 0x54534554
        nameHi := 0x00040000
        addr := 0x20032000
        blk := 0x0101
        srcBase := 0x1000
        srcLen := 4
        dstBase := 0x3000
        dstLen := 64 }
    mem := memOf 0x1000 [1, 2, 3, 4] }

/-- Frame 0 of TEST: vector F6. -/
def frameTest0 : List Byte := [0xD4, 0xC5, 0xD3, 0xD4, 0xA0, 0xA0, 0x01, 0x00, 0x00, 0x20, 0x03, 0x20, 0xEB]

/-- Frame 1 of TEST: vector F1. -/
def frameTest1 : List Byte := [0xD4, 0xC5, 0xD3, 0xD4, 0xA0, 0xA0, 0x01, 0x01, 0x01, 0x02, 0x03, 0x04, 0xED]

/-- A marker chunk. -/
def marker : List Byte := [0xC0, 0xC1, 0x00, 0x00]

/-- The header of a DATA chunk of 13 bytes. -/
def data13 : List Byte := [0xD0, 0xD1, 0x0D, 0x00]

/-- `IMG_TEST`, with the parameters of these tests. -/
def imgTest : List Byte := [0xA1, 0xA2, 0xA3, 0xA4] ++ marker ++ data13 ++ frameTest0 ++ marker ++ data13 ++ frameTest1

/-- The record of TEST before its data, with the received count. -/
def recHead (received : Byte) : List Byte :=
  [0x54, 0x45, 0x53, 0x54, 0x20, 0x20, 0x04, 0x01, 0x00, 0x20, 0x03, 0x20, 0x04, 0x00, 0x00, 0x00, received, 0x00, 0x00, 0x00]

/-- The block with an input at 0x3000 and an output region of `len` bytes at 0x4000. -/
def reader (bs : List Byte) (ctrl : Word) (len : Word) : State :=
  { base with
    regs :=
      { Regs.reset with
        ctrl := ctrl
        srcBase := 0x3000
        srcLen := BitVec.ofNat 32 bs.length
        dstBase := 0x4000
        dstLen := len }
    mem := memOf 0x3000 bs }

/-- The block set up for a tone. -/
def toner (rate freq len duty toneCfg : Word) : State :=
  { base with
    regs :=
      { Regs.reset with sampleRate := rate, freq := freq, toneLen := len, duty := duty, toneCfg := toneCfg } }

/-- One host access, which has arrived. -/
def due (act : HostAct) (s : State) : State := { s with host := [{ arrival := .afterSteps 0, act := act }] }

/-- A running command: TEST being encoded, with the last read, one store and the completion left. -/
def running : State :=
  { test with busy := true, seq := .run, todo := [.load 0x1003 0x04, .store 0x3000 0xA1, .complete] }

/-! ### Ill-formed terms are refused -/

theorem test_wf_command : Instr.wellFormed .encodeTape = true := by decide
theorem test_wf_refuses_nonzero_z : wellFormedWord 0x00000100 = false := by decide
theorem test_wf_refuses_reserved_opcode : wellFormedWord 0x0000000A = false := by decide
theorem test_wf_refuses_misaligned_offset : alignedOffset 0x06 = false := by decide
theorem test_wf_refuses_misaligned_write : (HostAct.regWrite 0x01 0).wellFormed = false := by decide
theorem test_wf_refuses_misaligned_read : (HostAct.regRead 0x5E).wellFormed = false := by decide
theorem test_wf_refuses_halfword : (HostAct.oddAccess 0x04 2).wellFormed = false := by decide
theorem test_wf_refuses_equal_tags : Params.wellFormed { params with tagMarker := params.tagData } = false := by decide
theorem test_wf_params : params.wellFormed = true := by decide

/-! ### Every command's word, written out from 30_encoding.md R73 -/

theorem test_decode_nop : decode 0b00000000000000000000000000000000 = .ok .nop := by decide
theorem test_decode_frame_block : decode 0b00000000000000000000000000000001 = .ok .frameBlock := by decide
theorem test_decode_chunk_len : decode 0b00000000000000000000000000000010 = .ok .chunkLen := by decide
theorem test_decode_build_header : decode 0b00000000000000000000000000000011 = .ok .buildHeader := by decide
theorem test_decode_decode_container : decode 0b00000000000000000000000000000100 = .ok .decodeContainer := by decide
theorem test_decode_req_size : decode 0b00000000000000000000000000000101 = .ok .reqSize := by decide
theorem test_decode_encode_container : decode 0b00000000000000000000000000000110 = .ok .encodeContainer := by decide
theorem test_decode_render_tone : decode 0b00000000000000000000000000000111 = .ok .renderTone := by decide
theorem test_decode_render_silence : decode 0b00000000000000000000000000001000 = .ok .renderSilence := by decide
theorem test_decode_encode_tape : decode 0b00000000000000000000000000001001 = .ok .encodeTape := by decide
theorem test_decode_refuses_first_reserved : decode 0x0000000A = .error .reservedOpcode := by decide
theorem test_decode_refuses_last_reserved : decode 0x000000FF = .error .reservedOpcode := by decide
theorem test_decode_refuses_bit_8 : decode 0x00000107 = .error .nonzeroZ := by decide
theorem test_decode_refuses_bit_31 : decode 0x80000007 = .error .nonzeroZ := by decide
theorem test_decode_bytes : decodeBytes [0x07, 0, 0, 0, 0x55] = .ok (.renderTone, [0x55]) := by decide
theorem test_decode_refuses_three_bytes : decodeBytes [0x07, 0, 0] = .error .shortWord := by decide
theorem test_table_word : decodeTableWord 32 0x00000009 = some .encodeTape := by decide
theorem test_table_word_reserved : decodeTableWord 32 0x0000000A = none := by decide
theorem test_last_register : regAt 0x58 = some .nbin := by decide
theorem test_first_reserved_offset : regAt 0x5C = none := by decide

/-! ### One step of each command (95_test_vectors.md) -/

/-- C1. -/
theorem test_nop :
    ((nextOf (step (State.withFetchWord base 32 0))).map fun t => (statusWord t, t.lastErr, t.err)) = some (2, 0, 0) := by
  decide

/-- C9: LAST_ERR is cleared, ERR is sticky. -/
theorem test_nop_keeps_err :
    ((nextOf (exec .nop { base with err := 0x10, lastErr := 0x10 })).map fun t => (t.lastErr, t.err)) = some (0, 0x10) := by
  decide

/-- C2, C3. -/
theorem test_illegal :
    ((nextOf (step (due (.regWrite 0x00 0x100) base))).map fun t => (statusWord t, t.lastErr, t.err)) =
      some (2, 0x200, 0x200) := by decide

/-- F1. -/
theorem test_frame_block :
    ((nextOf (exec .frameBlock test)).map fun t => (memRead t.mem 0x3000 0 13, t.res.result, t.res.cksum)) =
      some (frameTest1, 13, 0xED) := by decide

/-- F5. -/
theorem test_frame_block_alloc_fail :
    ((nextOf (exec .frameBlock { test with regs := { test.regs with dstLen := 12 } })).map fun t =>
      (t.mem == test.mem, t.res.result, t.lastErr)) = some (true, 0, 0x004) := by decide

/-- CHUNK_LEN of 0xFFFFFFFF wraps to 8. -/
theorem test_chunk_len_wraps :
    ((nextOf (exec .chunkLen { base with regs := { base.regs with srcLen := 0xFFFFFFFF } })).map fun t => t.res.result) =
      some 8 := by decide

/-- H5. -/
theorem test_build_header :
    ((nextOf (exec .buildHeader
      { base with
        regs :=
          { base.regs with nameLo := 0x454D4147, nameHi := 0x000FFFFF, blk := 0x0203, dstBase := 0x3000, dstLen := 8 } })).map
      fun t => (memRead t.mem 0x3000 0 8, t.res.outLen)) =
      some ([0xC7, 0xC1, 0xCD, 0xC5, 0xFF, 0xFF, 0x03, 0x02], 8) := by decide

/-- R1. -/
theorem test_decode_container :
    ((nextOf (exec .decodeContainer (reader imgTest 1 100))).map fun t =>
      (memRead t.mem 0x4000 0 24, t.res.nbin, t.res.outLen, t.lastErr)) = some (recHead 4 ++ [1, 2, 3, 4], 1, 24, 0) := by
  decide

/-- R5: a wrong checksum in the second frame. -/
theorem test_decode_container_checksum :
    ((nextOf (exec .decodeContainer (reader (imgTest.set 45 0xEE) 1 100))).map fun t =>
      (memRead t.mem 0x4000 0 24, t.res.nbin, t.res.outLen, t.lastErr)) = some (recHead 0 ++ [0, 0, 0, 0], 1, 24, 0x020) := by
  decide

/-- Q7, Q8. -/
theorem test_req_size :
    ((nextOf (exec .reqSize { base with regs := { base.regs with addr := 0xFFFF0000 } })).map fun t => t.res.result) =
      some 69913 := by decide
theorem test_req_size_invalid :
    ((nextOf (exec .reqSize { base with regs := { base.regs with addr := 0x20002003 } })).map fun t =>
      (t.res.result, t.lastErr)) = some (0, 0x040) := by decide

/-- W1. -/
theorem test_encode_container :
    ((nextOf (exec .encodeContainer test)).map fun t =>
      (memRead t.mem 0x3000 0 46, t.res.outLen, t.res.result, t.res.cksum)) = some (imgTest, 46, 46, 0xED) := by decide

/-- W6. -/
theorem test_encode_container_size :
    ((nextOf (exec .encodeContainer { test with regs := { test.regs with srcLen := 5 } })).map fun t => t.lastErr) =
      some 0x040 := by decide

/-- T11. -/
theorem test_render_tone :
    ((nextOf (exec .renderTone (toner 8000 3000 3 128 0x10000))).map fun t => (delivered t, t.res.result)) =
      some ([0xFF, 0x01, 0xFF, 0x01, 0xFF, 0x01], 6) := by decide

/-- T8. -/
theorem test_render_tone_16_bits_inverted :
    ((nextOf (exec .renderTone (toner 44100 11025 1 128 0x10006))).map delivered) =
      some [0x8001, 0x8001, 0x7FFF, 0x7FFF] := by decide

/-- Z4. -/
theorem test_render_silence :
    ((nextOf (exec .renderSilence (toner 8000 0 1 128 0x00005))).map delivered) = some (List.replicate 8 0x80) := by decide

set_option maxRecDepth 20000 in
/-- P8: every tone invalid, 9 + 19 samples of silence. -/
theorem test_encode_tape :
    ((nextOf (exec .encodeTape { test with regs := { test.regs with sampleRate := 99 } })).map fun t =>
      (t.res.sampleCount, t.lastErr, t.res.cksum)) = some (28, 0x010, 0xED) := by decide

/-- P11. -/
theorem test_encode_tape_invalid :
    ((nextOf (exec .encodeTape { test with regs := { test.regs with srcLen := 3 } })).map fun t =>
      (t.res.sampleCount, t.lastErr)) = some (0, 0x040) := by decide

/-- BIT_CYCLES is an argument of the machine, 1 after reset (00_scope.md R6); R187 counts a bit's samples with it: 66 ones
and 142 zeros of TEST at 3 and 1 samples a cycle, twice (46_tape.md R185 gives the bits). -/
theorem test_bit_cycles : State.reset.params.bitCycles = 1 := rfl
set_option maxRecDepth 20000 in
theorem test_two_cycles_per_bit :
    (frameSamples 2 { Regs.reset with sampleRate := 3000 } frameTest0 ++
      frameSamples 2 { Regs.reset with sampleRate := 3000 } frameTest1).length = 2 * (66 * 3 + 142 * 1) := by decide

/-! ### Engine steps: each read, push and register update is one (70_reset_and_hazards.md R221) -/

/-- A reset after the push and before SAMPLE_COUNT: the sample stays pushed. -/
theorem test_push_is_one_step :
    ((nextOf (exec .renderSilence
      { toner 8000 0 1 128 0x10000 with host := [{ arrival := .afterSteps 1, act := .reset }] })).map fun t =>
      (t.port.length, t.res.sampleCount, t.busy)) = some (1, 0, true) := by decide

/-- The four reads of the payload come before the first store. -/
theorem test_reads_are_steps :
    ((nextOf (exec .frameBlock { test with host := [{ arrival := .afterSteps 4, act := .reset }] })).map fun t =>
      (t.todo.length, t.mem == test.mem)) = some (17, true) := by decide

/-- A read that waits for engine steps is due once the sink has stalled the engine (log entry 15). -/
theorem test_access_at_a_stall :
    ((nextOf (exec .renderSilence
      { toner 8000 0 1 128 0x10000 with
        sink := { answers := [.reject], thereafter := .silent }
        host := [{ arrival := .afterSteps 9, act := .reset }] })).map fun t =>
      (t.port.length, t.res.sampleCount, t.lastErr, t.host)) =
      some (1, 1, 0x008, [{ arrival := .afterSteps 0, act := .reset }]) := by decide

/-! ### Host accesses -/

/-- C10. -/
theorem test_volume_is_clamped :
    ((nextOf (step (due (.regWrite 0x14 0x0001FF07) base))).map fun t => t.regs.toneCfg) = some 0x00010007 := by decide

/-- C11. -/
theorem test_duty_is_clamped :
    ((nextOf (step (due (.regWrite 0x24 300) base))).map fun t => t.regs.duty) = some 0x100 := by decide

/-- C7. -/
theorem test_status_with_interrupt :
    regWord (some .status) { base with done := true, regs := { base.regs with ctrl := 5 } } = 0x6 := by decide

/-- C8. -/
theorem test_write_while_busy :
    ((nextOf (step (due (.regWrite 0x1C 5) running))).map fun t => (t.regs.freq, t.err, t.lastErr)) =
      some (0, 0x400, 0) := by decide

/-! ### Witnesses: states and operands that meet the hypotheses of the obligations, clause by clause -/

/-- TEST with changed registers. -/
def testWith (f : Regs → Regs) : State := { test with regs := f test.regs }

/-- A DATA chunk as the first chunk: the magic, the tag, a length and a body. -/
def firstChunk (len : Byte) (body : List Byte) : List Byte := [0xA1, 0xA2, 0xA3, 0xA4, 0xD0, 0xD1, len, 0x00] ++ body

/-- Block 0 with an end address of 0x2000 below the initial address 0x2003, as in vector R15. -/
def backwards : List Byte := [0xD4, 0xC5, 0xD3, 0xD4, 0xA0, 0xA0, 0x01, 0x00, 0x03, 0x20, 0x00, 0x20, 0xEB]

theorem witness_DecodeInvertsEncode : ∀ i, Instr.wellFormed i = true := fun i => by cases i <;> rfl

theorem witness_DecoderIsTotalAndExact : ∀ i, decode 0x0000000A ≠ .ok i := fun i => by cases i <;> decide

theorem witness_RegisterMapOffsets :
    (alignedOffset 0x58 = true ∧ regAt 0x58 = some .nbin) ∧ alignedOffset 0x5C = true ∧ alignedOffset 0xFC = true := by
  decide

theorem witness_StepRunsDecodedCommand :
    let s := { base with host := [{ arrival := .onCompletion, act := .regWrite 0x00 9 }] }
    s.busy = false ∧ s.host = { arrival := .onCompletion, act := .regWrite 0x00 9 } :: [] ∧ decode 9 = .ok .encodeTape := by
  decide

theorem witness_FetchWordRunsItsCommand : decodeTableWord 32 4 = some .decodeContainer := by decide

theorem witness_IllegalWordRaisesIllegalCmd :
    let s := due (.regWrite 0x00 0xFF) base
    s.busy = false ∧ s.host = { arrival := .afterSteps 0, act := .regWrite 0x00 0xFF } :: [] ∧ stepLimit [] = none ∧
      decode 0xFF = .error .reservedOpcode := by decide

theorem witness_WriteWhileBusyIsDropped :
    let rest : List HostEvent := [{ arrival := .afterSteps 0, act := .regRead 0x04 }]
    let s := { running with host := { arrival := .afterSteps 0, act := .regWrite 0x00 1 } :: rest }
    s.busy = true ∧ Due s { arrival := .afterSteps 0, act := .regWrite 0x00 1 } rest ∧ alignedOffset 0x00 = true ∧
      stepLimit rest = some 0 := by decide

/-- Every register but CMD, and the first and the last reserved offset. -/
theorem witness_IdleRegisterWrite :
    ∀ off ∈ ([0x04, 0x08, 0x0C, 0x10, 0x14, 0x18, 0x1C, 0x20, 0x24, 0x28, 0x2C, 0x30, 0x34, 0x38, 0x3C, 0x40, 0x44, 0x48,
        0x4C, 0x50, 0x54, 0x58, 0x5C, 0xFC] : List (BitVec 8)),
      test.busy = false ∧
        Due (due (.regWrite off 0xFFFFFFFF) test) { arrival := .afterSteps 0, act := .regWrite off 0xFFFFFFFF } [] ∧
        alignedOffset off = true ∧ off ≠ 0x00 := by decide

theorem witness_ErrorBitsAreSticky_reset :
    let s := due .reset { base with err := 0x10 }
    s.err.getLsbD 4 = true ∧ (nextOf (step s)).map (fun t => t.err.getLsbD 4) = some false := by decide

theorem witness_ErrorBitsAreSticky_write :
    let s := due (.regWrite 0x08 0x10) { base with err := 0x10 }
    s.err.getLsbD 4 = true ∧ (nextOf (step s)).map (fun t => t.err.getLsbD 4) = some false := by decide

theorem witness_IdleReadHasNoSideEffect :
    let s := due (.regRead 0x48) test
    s.busy = false ∧ s.seq = .idle ∧ Due s { arrival := .afterSteps 0, act := .regRead 0x48 } [] ∧
      alignedOffset 0x48 = true := by decide

/-- Every result register, the registers on both sides of them, and a reserved offset. -/
theorem witness_BusyReadOfProgressIsFree :
    ∀ off ∈ ([0x44, 0x48, 0x4C, 0x50, 0x54, 0x58, 0x5C] : List (BitVec 8)),
      running.busy = true ∧
        Due (due (.regRead off) running) { arrival := .afterSteps 0, act := .regRead off } [] ∧
        alignedOffset off = true := by decide

theorem witness_OddRegisterAccessIsRefused :
    Due (due (.oddAccess 0x04 2) base) { arrival := .afterSteps 0, act := .oddAccess 0x04 2 } [] ∧
      Due (due (.regRead 0xFF) base) { arrival := .afterSteps 0, act := .regRead 0xFF } [] ∧
      Due (due (.regWrite 0x01 0) base) { arrival := .afterSteps 0, act := .regWrite 0x01 0 } [] ∧
      (0xFF : BitVec 8).toNat % 4 ≠ 0 ∧ (0x01 : BitVec 8).toNat % 4 ≠ 0 := by decide

/-- The last byte of the input region and the last byte of the output region. -/
theorem witness_RegionAccessWhileBusyIsRefused :
    running.busy = true ∧ (3 < running.regs.srcLen.toNat ∧ (0x1003 : Word).toNat = effAddr running.regs.srcBase 3) ∧
      (63 < running.regs.dstLen.toNat ∧ (0x303F : Word).toNat = effAddr running.regs.dstBase 63) ∧
      Due (due (.memWrite 0x1003 0) running) { arrival := .afterSteps 0, act := .memWrite 0x1003 0 } [] ∧
      Due (due (.memRead 0x303F) running) { arrival := .afterSteps 0, act := .memRead 0x303F } [] ∧
      Due (due (.memWrite 0x303F 0) running) { arrival := .afterSteps 0, act := .memWrite 0x303F 0 } [] := by decide

/-- The output region begins at the last input byte. -/
theorem witness_OverlappingLaunchIsRefused :
    let s := testWith fun r => { r with dstBase := 0x1003 }
    s.busy = false ∧ 3 < s.regs.srcLen.toNat ∧ 0 < s.regs.dstLen.toNat ∧
      effAddr s.regs.srcBase 3 = effAddr s.regs.dstBase 0 ∧
      refusalOf (exec .frameBlock s) = some .regionOverlap := by decide

theorem witness_IdleMemoryAccess :
    test.busy = false ∧ test.seq = .idle ∧ Memory.wf test.mem ∧
      Due (due (.memWrite 0xFFFFFFFF 0x55) test) { arrival := .afterSteps 0, act := .memWrite 0xFFFFFFFF 0x55 } [] ∧
      Due (due (.memRead 0x1000) test) { arrival := .afterSteps 0, act := .memRead 0x1000 } [] := by decide

theorem witness_ResetReturnsEveryRegister :
    Due (due .reset running) { arrival := .afterSteps 0, act := .reset } [] := by decide

theorem witness_StepKeepsTheInvariant_idle :
    Coherent (due (.regWrite 0x00 6) test) ∧ (nextOf (step (due (.regWrite 0x00 6) test))).isSome = true := by decide

theorem witness_StepKeepsTheInvariant_running : Coherent running ∧ (nextOf (step running)).isSome = true := by decide

theorem witness_NoStepFaults : seqLegal running := by decide

theorem witness_CommandsKeepTheConfiguration : (nextOf (exec .frameBlock test)).isSome = true := by decide

theorem witness_ConfigurationChangesOnlyByTheHost :
    ((nextOf (step (due (.regWrite 0x18 8000) test))).map fun t => decide (t.regs ≠ test.regs)) = some true := by decide

theorem witness_CommandsWriteOnlyTheOutputRegion :
    test.busy = false ∧ (nextOf (exec .encodeContainer test)).isSome = true ∧
      (∀ k < test.regs.dstLen.toNat, 0x3040 ≠ effAddr test.regs.dstBase k) := by decide

theorem witness_NonStoringCommandsKeepMemory :
    ∀ i ∈ [Instr.nop, .chunkLen, .reqSize, .renderTone, .renderSilence, .encodeTape],
      (toner 8000 3000 1 128 0x10000).busy = false ∧
        (nextOf (exec i (toner 8000 3000 1 128 0x10000))).isSome = true := by decide

theorem witness_SilentCommandsKeepThePort :
    ∀ i ∈ [Instr.nop, .frameBlock, .chunkLen, .buildHeader, .decodeContainer, .reqSize, .encodeContainer],
      test.busy = false ∧ (nextOf (exec i test)).isSome = true := by decide

theorem witness_CksumOnlyByFrameBuilders :
    ∀ i ∈ [Instr.nop, .chunkLen, .buildHeader, .decodeContainer, .reqSize, .renderTone, .renderSilence],
      i ∉ [Instr.frameBlock, .encodeContainer, .encodeTape] ∧ test.busy = false ∧ (nextOf (exec i test)).isSome = true := by
  decide

/-- A read that arrives in the middle of a frame. -/
theorem witness_ReadsDoNotDisturbACommand :
    test.busy = false ∧ alignedOffset 0x04 = true ∧
      (nextOf (exec .frameBlock { test with host := [{ arrival := .afterSteps 5, act := .regRead 0x04 }] })).isSome = true ∧
      (nextOf (exec .frameBlock { test with host := [] })).isSome = true := by decide

theorem witness_Ready : Ready test ∧ Ready { test with host := [{ arrival := .onCompletion, act := .reset }] } := by decide

theorem witness_FrameBlockFramesThePayload :
    (Ready test ∧ regionsOverlap test.regs = false ∧ Memory.wf test.mem) ∧
      (testWith fun r => { r with dstLen := 12 }).regs.dstLen.toNat < 9 + test.regs.srcLen.toNat ∧
      9 + test.regs.srcLen.toNat ≤ (testWith fun r => { r with dstLen := 13 }).regs.dstLen.toNat ∧
      regionsOverlap (testWith fun r => { r with dstLen := 12 }).regs = false ∧
      regionsOverlap (testWith fun r => { r with dstLen := 13 }).regs = false := by decide

theorem witness_BuildHeaderWritesTheRecord :
    Ready test ∧ Memory.wf test.mem ∧ (testWith fun r => { r with dstLen := 7 }).regs.dstLen.toNat < 8 ∧
      8 ≤ (testWith fun r => { r with dstLen := 8 }).regs.dstLen.toNat := by decide

/-- An end one below the initial address, an end equal to it, and the whole address space. -/
theorem witness_ReqSizeResult :
    Ready test ∧ ((0x1FFF2000 : Word).extractLsb' 16 16).toNat < ((0x1FFF2000 : Word).extractLsb' 0 16).toNat ∧
      ((0x20002000 : Word).extractLsb' 0 16).toNat ≤ ((0x20002000 : Word).extractLsb' 16 16).toNat ∧
      ((0xFFFF0000 : Word).extractLsb' 0 16).toNat ≤ ((0xFFFF0000 : Word).extractLsb' 16 16).toNat := by decide

theorem witness_ImageHasTheRequiredSize :
    ((1 : Nat) ≤ 1 ∧ 1 ≤ 65536 ∧ (List.replicate 1 (0 : Byte)).length = 1) ∧
      ((1 : Nat) ≤ 65536 ∧ 65536 ≤ 65536 ∧ (List.replicate 65536 (0 : Byte)).length = 65536) :=
  ⟨by decide, by decide, by decide, List.length_replicate⟩

/-- A backward range, a wrong length, a region one byte short, a region that fits. -/
theorem witness_EncodeContainerWritesTheImage :
    (∀ s ∈ [testWith fun r => { r with addr := 0x1FFF2000 }, testWith fun r => { r with srcLen := 5 },
        testWith fun r => { r with dstLen := 45 }, testWith fun r => { r with dstLen := 46 }],
      Ready s ∧ regionsOverlap s.regs = false ∧ Memory.wf s.mem) ∧
      addrEnd (testWith fun r => { r with addr := 0x1FFF2000 }).regs <
        addrInit (testWith fun r => { r with addr := 0x1FFF2000 }).regs ∧
      (addrInit test.regs ≤ addrEnd test.regs ∧
        (testWith fun r => { r with srcLen := 5 }).regs.srcLen.toNat ≠ addrEnd test.regs - addrInit test.regs + 1) ∧
      (test.regs.srcLen.toNat = addrEnd test.regs - addrInit test.regs + 1 ∧ (45 : Word).toNat < reqSize 4) ∧
      reqSize 4 ≤ (46 : Word).toNat := by decide

/-- Three bytes, and four bytes of which the last is wrong. -/
theorem witness_DecodeChecksTheMagic :
    (∀ s ∈ [reader [0xA1, 0xA2, 0xA3] 1 100, reader [0xA1, 0xA2, 0xA3, 0xA5] 1 100],
      Ready s ∧ regionsOverlap s.regs = false) ∧
      (reader [0xA1, 0xA2, 0xA3] 1 100).regs.srcLen.toNat < 4 ∧
      memRead (reader [0xA1, 0xA2, 0xA3, 0xA5] 1 100).mem 0x3000 0 4 ≠ magicBytes params.magic := by decide

theorem witness_DecodeContainerCompletes :
    Ready (reader imgTest 1 100) ∧ regionsOverlap (reader imgTest 1 100).regs = false := by decide

/-- The common hypotheses of `DecodeFirstChunkErrors`. -/
abbrev opensWithMagic (s : State) : Prop :=
  Ready s ∧ regionsOverlap s.regs = false ∧ 4 < s.regs.srcLen.toNat ∧
    memRead s.mem s.regs.srcBase 0 4 = magicBytes s.params.magic

theorem witness_DecodeFirstChunkErrors_header :
    opensWithMagic (reader [0xA1, 0xA2, 0xA3, 0xA4, 0xD0, 0xD1, 0x01] 1 100) ∧ (7 : Word).toNat < 8 := by decide

theorem witness_DecodeFirstChunkErrors_body :
    let s := reader (firstChunk 9 [0, 0, 0, 0, 0, 0, 0, 0]) 1 100
    opensWithMagic s ∧ 8 ≤ s.regs.srcLen.toNat ∧ s.regs.srcLen.toNat < 8 + 9 ∧
      (Memory.read s.mem (effAddr s.regs.srcBase 6), Memory.read s.mem (effAddr s.regs.srcBase 7)) = (9, 0) := by decide

theorem witness_DecodeFirstChunkErrors_short :
    let s := reader (firstChunk 8 [0, 0, 0, 0, 0, 0, 0, 0]) 1 100
    opensWithMagic s ∧ 8 + 8 ≤ s.regs.srcLen.toNat ∧ memRead s.mem s.regs.srcBase 4 2 = tagBytes s.params.tagData ∧
      Memory.read s.mem (effAddr s.regs.srcBase 6) = 8 := by decide

theorem witness_DecodeFirstChunkErrors_checksum :
    let s := reader (firstChunk 9 [0, 0, 0, 0, 0, 0, 0, 0, 0]) 1 100
    opensWithMagic s ∧ 8 + 9 ≤ s.regs.srcLen.toNat ∧ memRead s.mem s.regs.srcBase 4 2 = tagBytes s.params.tagData ∧
      s.regs.ctrl.getLsbD 0 = true ∧ fold 0xFF (memRead s.mem s.regs.srcBase 8 9) ≠ 0 := by decide

theorem witness_DecodeFirstChunkErrors_noBinary :
    let s := reader (firstChunk 9 [0, 0, 0, 0, 0, 0, 0, 1, 0xFE]) 1 100
    opensWithMagic s ∧ 8 + 9 ≤ s.regs.srcLen.toNat ∧ memRead s.mem s.regs.srcBase 4 2 = tagBytes s.params.tagData ∧
      fold 0xFF (memRead s.mem s.regs.srcBase 8 9) = 0 ∧ (memRead s.mem s.regs.srcBase 8 9)[7]? ≠ some 0 := by decide

theorem witness_DecodeFirstChunkErrors_blockZeroLength :
    let s := reader (firstChunk 14 (frameTest0.take 12 ++ [0x99, 0x72])) 1 100
    opensWithMagic s ∧ 8 + 14 ≤ s.regs.srcLen.toNat ∧ memRead s.mem s.regs.srcBase 4 2 = tagBytes s.params.tagData ∧
      fold 0xFF (memRead s.mem s.regs.srcBase 8 14) = 0 ∧ (memRead s.mem s.regs.srcBase 8 14)[7]? = some 0 := by decide

theorem witness_DecodeFirstChunkErrors_tag :
    let s := reader [0xA1, 0xA2, 0xA3, 0xA4, 0x58, 0x58, 0, 0] 2 100
    opensWithMagic s ∧ 8 + 0 ≤ s.regs.srcLen.toNat ∧ memRead s.mem s.regs.srcBase 4 2 ≠ tagBytes s.params.tagData ∧
      memRead s.mem s.regs.srcBase 4 2 ≠ tagBytes s.params.tagMarker ∧ s.regs.ctrl.getLsbD 1 = true := by decide

theorem witness_DecodeFirstChunkErrors_backwards :
    let s := reader (firstChunk 13 backwards) 1 100
    opensWithMagic s ∧ 21 ≤ s.regs.srcLen.toNat ∧ memRead s.mem s.regs.srcBase 4 2 = tagBytes s.params.tagData ∧
      fold 0xFF (memRead s.mem s.regs.srcBase 8 13) = 0 ∧ (memRead s.mem s.regs.srcBase 8 13)[7]? = some 0 ∧
      0x2000 < (0x2003 : Nat) := by decide

theorem witness_DecodeFirstChunkErrors_noRoom :
    let s := reader (firstChunk 13 frameTest0) 1 23
    opensWithMagic s ∧ 21 ≤ s.regs.srcLen.toNat ∧ memRead s.mem s.regs.srcBase 4 2 = tagBytes s.params.tagData ∧
      fold 0xFF (memRead s.mem s.regs.srcBase 8 13) = 0 ∧ (memRead s.mem s.regs.srcBase 8 13)[7]? = some 0 ∧
      s.regs.dstLen.toNat < 20 + 4 := by decide

/-- The common hypotheses of `DecodeOpensABinary`. -/
abbrev oneBlockZero (s : State) : Prop :=
  Ready s ∧ regionsOverlap s.regs = false ∧ Memory.wf s.mem ∧ 21 ≤ s.regs.srcLen.toNat ∧
    memRead s.mem s.regs.srcBase 0 8 = magicBytes s.params.magic ++ tagBytes s.params.tagData ++ [13, 0] ∧
    (s.regs.ctrl.getLsbD 0 = true → fold 0xFF (memRead s.mem s.regs.srcBase 8 13) = 0) ∧
    (memRead s.mem s.regs.srcBase 8 13)[7]? = some 0

theorem witness_DecodeOpensABinary_backwards :
    oneBlockZero (reader (firstChunk 13 backwards) 1 100) ∧
      (0x00 : Byte).toNat + 256 * (0x20 : Byte).toNat < (0x03 : Byte).toNat + 256 * (0x20 : Byte).toNat := by decide

theorem witness_DecodeOpensABinary_short :
    oneBlockZero (reader (firstChunk 13 frameTest0) 1 23) ∧ (23 : Word).toNat < 20 + 4 := by decide

theorem witness_DecodeOpensABinary_fits :
    oneBlockZero (reader (firstChunk 13 frameTest0) 1 24) ∧ (reader (firstChunk 13 frameTest0) 1 24).regs.srcLen = 21 ∧
      20 + 4 ≤ (24 : Word).toNat := by decide

/-- The same chunk with another one behind it. -/
theorem witness_DecodeOpensABinary_more :
    oneBlockZero (reader (firstChunk 13 frameTest0 ++ marker) 1 24) ∧ 20 + 4 ≤ (24 : Word).toNat := by decide

/-- A marker chunk of 3 bytes between the magic and a block 0. -/
def markedImage : List Byte :=
  [0xA1, 0xA2, 0xA3, 0xA4, 0xC0, 0xC1, 0x03, 0x00, 0x58, 0x58, 0x58] ++ data13 ++ frameTest0

/-- The scan has passed the marker chunk. -/
def afterMarker : Scan := { scanStart with off := 11 }

theorem scanned_marker :
    ∃ t, ScanTo (reader markedImage 1 100) afterMarker t :=
  ⟨_, .chunk (.start (by decide) (by decide)) (by decide) rfl⟩

/-- The whole input gone through, and a chunk that raises behind a chunk that did not. -/
theorem witness_DecodeRunsChunkByChunk :
    (∃ t, ScanTo (reader markedImage 1 23) afterMarker t) ∧ Ready (reader markedImage 1 23) ∧
      regionsOverlap (reader markedImage 1 23).regs = false ∧
      afterMarker.off < (reader markedImage 1 23).regs.srcLen.toNat ∧
      scanChunk (reader markedImage 1 23) afterMarker = .stop .allocFail ∧
      (∃ t, ScanTo (reader (markedImage.take 11) 1 23) afterMarker t) ∧ Ready (reader (markedImage.take 11) 1 23) ∧
      regionsOverlap (reader (markedImage.take 11) 1 23).regs = false ∧
      (reader (markedImage.take 11) 1 23).regs.srcLen.toNat ≤ afterMarker.off :=
  ⟨⟨_, .chunk (.start (by decide) (by decide)) (by decide) rfl⟩, by decide, by decide, by decide, by decide,
    ⟨_, .chunk (.start (by decide) (by decide)) (by decide) rfl⟩, by decide, by decide, by decide⟩

theorem witness_ScannedStatesAreSound :
    Memory.wf (reader markedImage 1 100).mem ∧ ∃ t, ScanTo (reader markedImage 1 100) afterMarker t :=
  ⟨by decide, scanned_marker⟩

/-- A scanner with a binary of 4 bytes open, of which `wr` have come, at the first chunk of an input. -/
def opened (wr : Nat) : Scan := { off := 4, dptr := 24, nbin := 1, opn := some { pos := 0, size := 4, wr := wr } }

/-- A whole DATA chunk with a right checksum at the scanner's place (the four bytes after the magic). -/
abbrev soundChunk (s : State) (len : Nat) : Prop :=
  4 < s.regs.srcLen.toNat ∧ 4 + len ≤ s.regs.srcLen.toNat - 4 ∧
    (Memory.read s.mem (effAddr s.regs.srcBase 6)).toNat + 256 * (Memory.read s.mem (effAddr s.regs.srcBase 7)).toNat = len ∧
    memRead s.mem s.regs.srcBase 4 2 = tagBytes s.params.tagData ∧ fold 0xFF (memRead s.mem s.regs.srcBase 8 len) = 0

/-- An orphan continuation, one byte more than the binary has left, and a block 0 with one byte too little room behind a
record. -/
theorem witness_ChunkErrors :
    soundChunk (reader (firstChunk 13 frameTest1) 1 100) 13 ∧
      scanChunk (reader (firstChunk 13 frameTest1) 1 100) scanStart = .stop .malformedChunk ∧
      4 < 1 + (13 - 9) ∧ scanChunk (reader (firstChunk 13 frameTest1) 1 100) (opened 1) = .stop .malformedChunk ∧
      soundChunk (reader (firstChunk 13 frameTest0) 1 47) 13 ∧ 47 < (opened 4).dptr + 20 + 4 ∧
      scanChunk (reader (firstChunk 13 frameTest0) 1 47) (opened 4) = .stop .allocFail := by decide

/-- A marker of 3 bytes, and an unknown tag in the reference mode. -/
theorem witness_ChunkEffects_skipped :
    let s := reader markedImage 1 100
    let u := reader [0xA1, 0xA2, 0xA3, 0xA4, 0x58, 0x58, 0, 0] 1 100
    4 + 3 ≤ s.regs.srcLen.toNat - 4 ∧ memRead s.mem s.regs.srcBase 4 2 ≠ tagBytes s.params.tagData ∧
      memRead s.mem s.regs.srcBase 4 2 = tagBytes s.params.tagMarker ∧
      4 + 0 ≤ u.regs.srcLen.toNat - 4 ∧ memRead u.mem u.regs.srcBase 4 2 ≠ tagBytes u.params.tagData ∧
      u.regs.ctrl.getLsbD 1 = false := by decide

/-- A block 0 that just fits behind a record, and a continuation that fills its binary. -/
theorem witness_ChunkEffects_data :
    soundChunk (reader (firstChunk 13 frameTest0) 1 48) 13 ∧ (opened 4).dptr + 20 + 4 ≤ (48 : Word).toNat ∧
      (memRead (reader (firstChunk 13 frameTest0) 1 48).mem 0x3000 8 13)[7]? = some 0 ∧
      soundChunk (reader (firstChunk 13 frameTest1) 1 24) 13 ∧ 0 + (13 - 9) ≤ 4 ∧ 0 + 20 + 4 ≤ (24 : Word).toNat ∧
      (memRead (reader (firstChunk 13 frameTest1) 1 24).mem 0x3000 8 13)[7]? ≠ some 0 := by decide

/-- A name of six characters, and the empty name. -/
theorem witness_NameSurvivesTheHeader :
    ∀ r ∈ [{ Regs.reset with nameLo := 0x474E4F4C, nameHi := 0x0008414E }, Regs.reset],
      (∀ i, i < nameLen r → nameChar r i < 0x80) ∧ (0 < nameLen r → nameChar r (nameLen r - 1) ≠ 0x20) := by decide

theorem witness_DecodeInvertsEncodeContainer :
    (Ready test ∧ regionsOverlap test.regs = false ∧ Memory.wf test.mem ∧ test.params.wellFormed = true ∧
      addrInit test.regs ≤ addrEnd test.regs ∧ addrEnd test.regs - addrInit test.regs + 1 = 4 ∧ (4 : Nat) ≤ 65280 ∧
      test.regs.srcLen.toNat = 4 ∧ reqSize 4 ≤ test.regs.dstLen.toNat ∧
      (∀ i, i < nameLen test.regs → nameChar test.regs i < 0x80) ∧
      (0 < nameLen test.regs → nameChar test.regs (nameLen test.regs - 1) ≠ 0x20)) ∧
      regionsOverlap { test.regs with srcBase := 0x3000, srcLen := 46, dstBase := 0x4000, dstLen := 24 } = false ∧
      20 + 4 ≤ (24 : Word).toNat := by decide

theorem witness_HighLengthRoundsHalfUp : (0 : Nat) ≤ 256 ∧ (256 : Nat) ≤ 256 := by decide

theorem witness_SineObeysItsLaws :
    ∀ r ∈ [{ Regs.reset with toneCfg := 0x00010001 }, { Regs.reset with toneCfg := 0x00010003 }],
      volume r ≤ 256 ∧ waveSine r = true := by decide

theorem witness_SineSampleLevels :
    ∀ r ∈ [{ Regs.reset with toneCfg := 0x00010001 }, { Regs.reset with toneCfg := 0x00010007 }],
      volume r ≤ 256 ∧ waveSine r = true := by decide

theorem witness_SquareSampleLevels :
    ∀ r ∈ [{ Regs.reset with toneCfg := 0x00010000 }, { Regs.reset with toneCfg := 0x00010006 }],
      volume r ≤ 256 ∧ waveSine r = false := by decide

/-- A frequency of 0, and one above the sample rate by 1. -/
theorem witness_RenderToneInvalidFrequency :
    (Ready (toner 44100 0 5 128 0x10000) ∧ (toner 44100 0 5 128 0x10000).regs.freq = 0) ∧
      Ready (toner 44100 44101 5 128 0x10000) ∧ (44100 : Word).toNat < (44101 : Word).toNat := by decide

/-- A frequency equal to the sample rate, and a sink that rejects one sample. -/
theorem witness_RenderToneOffersEverySample :
    let s := { toner 8000 8000 2 128 0x10000 with sink := { answers := [.reject], thereafter := .accept } }
    Ready s ∧ sinkLive s.sink = true ∧ s.regs.freq ≠ 0 ∧ s.regs.freq.toNat ≤ s.regs.sampleRate.toNat ∧
      acceptedOf 2 s.sink < 2 := by decide

theorem witness_RenderSilenceOffersTheCentre :
    Ready (toner 8000 0 1 128 0x10000) ∧ sinkLive (toner 8000 0 1 128 0x10000).sink = true := by decide

/-- A sink that answers one push of the two and no more; and the same of a silence of 16 samples and of a tape, whose
silences alone have more than one sample. -/
theorem witness_SilentSinkLeavesTheCommandBusy :
    let s := { toner 8000 8000 2 128 0x10000 with sink := { answers := [.accept], thereafter := .silent } }
    (Ready s ∧ (sinkAnswers 1 s.sink).all (fun a => a != .silent) = true ∧
      sinkAnswer (sinkAfter 1 s.sink) = .silent) ∧
      1 < (toneSamples s.regs s.regs.freq.toNat s.regs.toneLen.toNat (s.regs.duty.extractLsb' 0 9).toNat).length ∧
      1 < (silenceSamples s.regs s.regs.toneLen.toNat).length := by decide

set_option maxRecDepth 20000 in
theorem witness_SilentSinkLeavesTheCommandBusy_tape :
    let s :=
      { testWith fun r => { r with sampleRate := 99 } with sink := { answers := [.accept], thereafter := .silent } }
    Ready s ∧ addrInit s.regs ≤ addrEnd s.regs ∧ s.regs.srcLen.toNat = addrEnd s.regs - addrInit s.regs + 1 ∧
      1 < (tapeSamples s.params.bitCycles s.regs 4 (memRead s.mem s.regs.srcBase 0 4)).length := by decide

theorem witness_EncodeTapeValidatesFirst :
    Ready test ∧ ((0x1FFF2000 : Word).extractLsb' 16 16).toNat < ((0x1FFF2000 : Word).extractLsb' 0 16).toNat ∧
      (testWith fun r => { r with srcLen := 3 }).regs.srcLen.toNat ≠ addrEnd test.regs - addrInit test.regs + 1 := by decide

theorem witness_EncodeTapePlaysTheSequence :
    Ready test ∧ sinkLive test.sink = true ∧ addrInit test.regs ≤ addrEnd test.regs ∧
      test.regs.srcLen.toNat = addrEnd test.regs - addrInit test.regs + 1 := by decide

theorem witness_TapeSampleCount :
    Ready test ∧ sinkLive test.sink = true ∧ addrInit test.regs ≤ addrEnd test.regs ∧
      test.regs.srcLen.toNat = addrEnd test.regs - addrInit test.regs + 1 := witness_EncodeTapePlaysTheSequence

end Sys2Proof.Tests
end

section
/-! SUPPORT. The container image, counted: one full block after the other, and what is left over in the last one
(44_container_writer.md R151, R152, R154). -/

namespace Sys2Proof.Machine

/-- The blocks of a binary carry all its bytes (44_container_writer.md R151). -/
theorem sum_blockLen {size : Nat} (h : 1 ≤ size) :
    ((List.range (blockCount size)).map fun j => blockLen size (j + 1)).sum = size := by
  obtain ⟨hlt, -, hB⟩ := blockCount_spec h
  obtain ⟨n, hn⟩ : ∃ n, blockCount size = n + 1 := ⟨blockCount size - 1, by omega⟩
  have hfull : (List.range n).map (fun j => blockLen size (j + 1)) = List.replicate n 256 := by
    rw [List.eq_replicate_iff]
    refine ⟨by simp, fun x hx => ?_⟩
    obtain ⟨j, hj, rfl⟩ := List.mem_map.1 hx
    rw [List.mem_range] at hj
    simp [blockLen, hn, hj, Config.blockBytes]
  rw [hn, Nat.add_sub_cancel] at hlt
  rw [hn, List.range_succ, List.map_append, List.sum_append, hfull]
  simp only [List.sum_replicate, List.map_cons, List.map_nil, List.sum_singleton, blockLen, hn, Config.blockBytes,
    smul_eq_mul, lt_irrefl, if_false, Nat.add_sub_cancel]
  omega

/-- The image of a binary has the length REQ_SIZE promises (44_container_writer.md R152). -/
theorem image_length {p : Params} {r : Regs} {size : Nat} {data : List Byte} (h : 1 ≤ size) (hd : data.length = size) :
    (image p r size data).length = reqSize size := by
  have hblocks : (List.range (blockCount size)).map (fun j => (markedChunk p (frameK r size data (j + 1))).length) =
      (List.range (blockCount size)).map fun j => 17 + blockLen size (j + 1) := by
    refine List.map_congr_left fun j hj => ?_
    rw [markedChunk_length, frameK_length h hd (Nat.le_add_left 1 j) (List.mem_range.1 hj), ← Nat.add_assoc]
  rw [image, List.length_append, List.length_append, List.length_flatMap, hblocks, List.sum_map_add, sum_blockLen h,
    magicBytes_length, markedChunk_length, frame0_length]
  simp [reqSize]
  omega

/-- A binary that is whole has at least one byte, and SRC_LEN says how many (44_container_writer.md R150, R155). -/
theorem validSize_eq_some {r : Regs} {size : Nat} (h : validSize r = some size) : 1 ≤ size ∧ r.srcLen.toNat = size := by
  unfold validSize at h
  split at h
  · simp at h
  · rename_i n hn
    split at h
    · rename_i hs
      simp only [Option.some.injEq] at h
      unfold binarySize rangeSize at hn
      split at hn
      · simp at hn
      · simp only [Option.some.injEq] at hn
        omega
    · simp at h

@[simp] theorem payload_length (s : State) : (payload s).length = s.regs.srcLen.toNat := memRead_length ..

@[simp] theorem frameBlockBytes_length (s : State) : (frameBlockBytes s).length = 9 + s.regs.srcLen.toNat := by
  simp [frameBlockBytes, memRead_length]
  omega

end Sys2Proof.Machine
end

section
/-! SUPPORT. The scan of a decode, chunk by chunk: what a chunk that raises nothing comes to, said once, and what every
scanner keeps (43_container_reader.md R133 to R139). -/

namespace Sys2Proof.Machine

/-- `ChunkGo r c ops c'`: what a chunk that raises nothing does and where it takes the scanner. It is skipped, or it
opens a binary that fits in the output region, or it appends to the open one, within its size. -/
inductive ChunkGo (r : Regs) (c : Scan) : List EngineOp → Scan → Prop where
  | skip (next : Nat) : ChunkGo r c [.scan { c with off := next }] { c with off := next }
  | opens {c₁ : Scan} {raw : List Byte} {bc : Byte} {init last size : Nat} (next : Nat) (hraw : raw.length = 6)
      (hroom : c.dptr + 20 + size ≤ r.dstLen.toNat)
      (hc : c₁ = ⟨c.off, c.dptr + 20 + size, c.nbin + 1, some ⟨c.dptr, size, 0⟩⟩) :
      ChunkGo r c
        (storeOps r.dstBase c.dptr (newRecord raw bc init last size) ++
          [.scan c₁, .setNbin (BitVec.ofNat 32 c₁.nbin), .setOutLen (BitVec.ofNat 32 c₁.dptr)] ++
          [.scan { c₁ with off := next }])
        { c₁ with off := next }
  | appends {o : OpenRec} {bs : List Byte} {c₁ : Scan} (next : Nat) (hopn : c.opn = some o)
      (hfits : o.wr + bs.length ≤ o.size) (hc : c₁ = { c with opn := some { o with wr := o.wr + bs.length } }) :
      ChunkGo r c
        (storeOps r.dstBase (o.pos + 20 + o.wr) bs ++ [.scan c₁] ++
          storeOps r.dstBase (o.pos + 16) (le32 (o.wr + bs.length)) ++ [.scan { c₁ with off := next }])
        { c₁ with off := next }

/-- A header chunk that raises nothing opens a binary. -/
theorem openBinary_go {r : Regs} {body : List Byte} {c c₁ : Scan} {ops : List EngineOp} (hb : body.length = 13)
    (h : openBinary r body c = .go ops c₁) (next : Nat) :
    ChunkGo r c (ops ++ [.scan { c₁ with off := next }]) { c₁ with off := next } := by
  simp only [openBinary] at h
  split at h
  · simp at h
  · split at h
    · simp at h
    · simp only [ChunkResult.go.injEq] at h
      obtain ⟨rfl, rfl⟩ := h
      exact .opens next (by simp [hb]) (by omega) rfl

/-- A data block that raises nothing appends to the open binary. -/
theorem appendBlock_go {r : Regs} {body : List Byte} {c c₁ : Scan} {ops : List EngineOp}
    (h : appendBlock r body c = .go ops c₁) (next : Nat) :
    ChunkGo r c (ops ++ [.scan { c₁ with off := next }]) { c₁ with off := next } := by
  simp only [appendBlock] at h
  split at h
  · simp at h
  · rename_i o ho
    split at h
    · simp at h
    · simp only [ChunkResult.go.injEq] at h
      obtain ⟨rfl, rfl⟩ := h
      have hlen : ((body.drop 8).take (body.length - 9)).length = body.length - 9 := by simp; omega
      have := ChunkGo.appends (r := r) (bs := (body.drop 8).take (body.length - 9)) next ho (by omega) rfl
      rwa [hlen] at this

theorem dataChunk_go {r : Regs} {body : List Byte} {c c₁ : Scan} {ops : List EngineOp}
    (h : dataChunk r body c = .go ops c₁) (next : Nat) :
    ChunkGo r c (ops ++ [.scan { c₁ with off := next }]) { c₁ with off := next } := by
  simp only [dataChunk] at h
  split at h
  · simp at h
  · split at h
    · simp at h
    · split at h
      · split at h
        · simp at h
        · exact openBinary_go (by omega) h next
      · exact appendBlock_go h next

/-- What one iteration of the scan loop does when it raises nothing. -/
theorem scanChunk_go {s : State} {c c' : Scan} {ops : List EngineOp} (h : scanChunk s c = .go ops c') :
    ChunkGo s.regs c ops c' := by
  simp only [scanChunk] at h
  split at h
  · simp at h
  split at h
  · simp at h
  simp only [advance] at h
  split at h
  · simp at h
  rename_i hgo
  simp only [ChunkResult.go.injEq] at h
  obtain ⟨rfl, rfl⟩ := h
  split at hgo
  · exact dataChunk_go hgo _
  split at hgo
  · cases hgo
    exact .skip _
  split at hgo
  · simp at hgo
  · cases hgo
    exact .skip _

/-- No check of a DATA chunk raises OVERRUN. -/
theorem dataChunk_ne_overrun (r : Regs) (body : List Byte) (c : Scan) : dataChunk r body c ≠ .stop .overrun := by
  have hopen : openBinary r body c ≠ .stop .overrun := by
    simp only [openBinary]
    repeat' split
    all_goals simp
  have happend : appendBlock r body c ≠ .stop .overrun := by
    simp only [appendBlock]
    repeat' split
    all_goals simp
  simp only [dataChunk]
  split
  · simp
  split
  · simp
  split
  · split
    · simp
    · exact hopen
  · exact happend

/-- The reader never raises OVERRUN, which is the bus's error (10_state.md R26). -/
theorem scanChunk_stop {s : State} {c : Scan} {e : ErrKind} (h : scanChunk s c = .stop e) : e ≠ .overrun := by
  rintro rfl
  simp only [scanChunk] at h
  split at h
  · simp at h
  split at h
  · simp at h
  simp only [advance] at h
  split at h
  · rename_i hstop
    cases h
    split at hstop
    · exact dataChunk_ne_overrun _ _ _ hstop
    split at hstop
    · simp at hstop
    split at hstop <;> simp at hstop
  · simp at h

/-- What the scanner of a decode keeps: the scan is inside the input and past the magic, the write offset is inside the
output region, and the open binary, there exactly when a record was written, is the last record and has room for what it
has received (10_state.md R44). -/
structure ScanSound (r : Regs) (c : Scan) : Prop where
  magicRead : 4 ≤ c.off
  insideInput : c.off ≤ r.srcLen.toNat
  insideOutput : c.dptr ≤ r.dstLen.toNat
  openIff : c.opn = none ↔ c.nbin = 0
  openLast : ∀ o, c.opn = some o → o.wr ≤ o.size ∧ o.pos + 20 + o.size = c.dptr

theorem scanStart_sound {r : Regs} (h : 4 ≤ r.srcLen.toNat) : ScanSound r scanStart where
  magicRead := Nat.le_refl 4
  insideInput := h
  insideOutput := Nat.zero_le _
  openIff := ⟨fun _ => rfl, fun _ => rfl⟩
  openLast := nofun

/-- Every chunk keeps it. -/
theorem scanChunk_sound {s : State} {c c' : Scan} {ops : List EngineOp} (h : ScanSound s.regs c)
    (hgo : scanChunk s c = .go ops c') : ScanSound s.regs c' := by
  obtain ⟨hoff, hin⟩ := scanChunk_advances hgo
  have hmagic : 4 ≤ c'.off := by have := h.magicRead; omega
  cases scanChunk_go hgo with
  | skip next => exact { h with magicRead := hmagic, insideInput := hin }
  | opens next hraw hroom hc =>
    subst hc
    exact ⟨hmagic, hin, hroom, by simp, by simp⟩
  | @appends o bs c₁ next hopn hfits hc =>
    subst hc
    have hnbin : c.nbin ≠ 0 := fun h0 => by simp [h.openIff.2 h0] at hopn
    refine ⟨hmagic, hin, h.insideOutput, by simp [hnbin], ?_⟩
    rintro _ ⟨⟩
    exact ⟨hfits, (h.openLast o hopn).2⟩

end Sys2Proof.Machine
end

section
/-! SUPPORT. What the plan of a command can hold, said once for the ten of them: which commands read memory, write it,
make a sound and build a frame (30_encoding.md R73), and that their accesses lie in the two regions. -/

namespace Sys2Proof.Machine

/-- The commands that read SRC memory (30_encoding.md R73). -/
def readsMemory : Instr → Bool
  | .frameBlock | .decodeContainer | .encodeContainer | .encodeTape => true
  | .nop | .chunkLen | .buildHeader | .reqSize | .renderTone | .renderSilence => false

/-- The commands that write DST memory (30_encoding.md R73). -/
def writesMemory : Instr → Bool
  | .frameBlock | .buildHeader | .decodeContainer | .encodeContainer => true
  | .nop | .chunkLen | .reqSize | .renderTone | .renderSilence | .encodeTape => false

/-- The commands that use the sample port (30_encoding.md R73). -/
def makesSound : Instr → Bool
  | .renderTone | .renderSilence | .encodeTape => true
  | .nop | .frameBlock | .chunkLen | .buildHeader | .decodeContainer | .reqSize | .encodeContainer => false

/-- The commands that build a frame (10_state.md R41). -/
def buildsFrame : Instr → Bool
  | .frameBlock | .encodeContainer | .encodeTape => true
  | .nop | .chunkLen | .buildHeader | .decodeContainer | .reqSize | .renderTone | .renderSilence => false

/-- The commands that read and write are those whose launch R218 checks. -/
theorem readsAndWrites_eq (i : Instr) : readsAndWrites i = (readsMemory i && writesMemory i) := by
  cases i <;> rfl

/-- `Planned i s op`: a step that command i, launched at s, may plan. A read is that of a byte of the input region as it
stands at the launch (20_memory.md R60), a store lies in the output region, no error is OVERRUN, and the completion is
not the plan's. -/
def Planned (i : Instr) (s : State) : EngineOp → Prop
  | .load a b =>
    readsMemory i = true ∧ (∃ k < s.regs.srcLen.toNat, a = effAddr s.regs.srcBase k) ∧ b = Memory.read s.mem a
  | .store a _ => writesMemory i = true ∧ ∃ k < s.regs.dstLen.toNat, a = effAddr s.regs.dstBase k
  | .push _ _ | .countOffer | .countAnswer | .tape _ => makesSound i = true
  | .record e => e ≠ .overrun
  | .setCksum _ => buildsFrame i = true
  | .scan _ | .setNbin _ => i = .decodeContainer
  | .setResult _ | .setOutLen _ => True
  | .complete => False

variable {i : Instr} {s : State}

theorem planned_loadOps (hi : readsMemory i = true) {off n : Nat} (hn : off + n ≤ s.regs.srcLen.toNat) :
    ∀ op ∈ loadOps s.mem s.regs.srcBase off n, Planned i s op := by
  intro op hop
  obtain ⟨k, hk, rfl⟩ := mem_loadOps hop
  exact ⟨hi, ⟨off + k, by omega, rfl⟩, rfl⟩

theorem planned_storeOps (hi : writesMemory i = true) {off : Nat} {bs : List Byte}
    (hn : off + bs.length ≤ s.regs.dstLen.toNat) : ∀ op ∈ storeOps s.regs.dstBase off bs, Planned i s op := by
  intro op hop
  obtain ⟨k, hk, b, rfl⟩ := mem_storeOps hop
  exact ⟨hi, off + k, by omega, rfl⟩

/-! ### Sounds -/

/-- The steps a tone, a silence or a tape is made of. -/
def isSoundStep : EngineOp → Bool
  | .push _ _ | .countOffer | .countAnswer | .tape _ | .record .invalidFreq => true
  | _ => false

@[simp] theorem emitOps_all_sound (pos : Option TonePos) (x : Sample) : (emitOps pos x).all isSoundStep = true := rfl

@[simp] theorem toneOps_all_sound (r : Regs) (f n duty : Nat) : (toneOps r f n duty).all isSoundStep = true := by
  unfold toneOps
  split
  · rfl
  · simp only [List.all_flatMap, cycleOps, emitOps_all_sound, List.all_eq_true, implies_true]

@[simp] theorem silenceOps_all_sound (r : Regs) (ms : Nat) : (silenceOps r ms).all isSoundStep = true := by
  simp only [silenceOps, List.all_flatten, List.all_replicate, emitOps_all_sound, ite_self]

@[simp] theorem blockOps_all_sound (cyc : Nat) (r : Regs) (pre bits : TapePhase) (k : Nat) (f : List Byte) :
    (blockOps cyc r pre bits k f).all isSoundStep = true := by
  simp [blockOps, preambleOps, bitsOps, bitTone, isSoundStep, List.all_flatMap]

@[simp] theorem tapeOps_all_sound (cyc : Nat) (r : Regs) (size : Nat) (data : List Byte) :
    (tapeOps cyc r size data).all isSoundStep = true := by
  simp [tapeOps, isSoundStep, List.all_flatMap]

theorem planned_sound (hi : makesSound i = true) {ops : List EngineOp} (h : ops.all isSoundStep = true) :
    ∀ op ∈ ops, Planned i s op := by
  intro op hop
  have hs := List.all_eq_true.1 h op hop
  cases op with
  | push | countOffer | countAnswer | tape => exact hi
  | record e => cases e <;> simp_all [isSoundStep, Planned]
  | load | store | setResult | setOutLen | setCksum | setNbin | scan | complete => cases hs

/-! ### The reader -/

theorem newRecord_length {raw : List Byte} (h : raw.length = 6) (bc : Byte) (init last size : Nat) :
    (newRecord raw bc init last size).length = 20 + size := by
  simp [newRecord, h]
  omega

theorem planned_chunkLoads (c : Scan) : ∀ op ∈ chunkLoads s c, Planned .decodeContainer s op := by
  intro op hop
  obtain ⟨k, hk, rfl⟩ := mem_chunkLoads hop
  exact ⟨rfl, ⟨k, hk, rfl⟩, rfl⟩

/-- What a chunk writes lies in the output region, where the scanner is sound. -/
theorem planned_chunk {c c' : Scan} {ops : List EngineOp} (h : ScanSound s.regs c) (hgo : ChunkGo s.regs c ops c') :
    ∀ op ∈ ops, Planned .decodeContainer s op := by
  have hdptr := h.insideOutput
  cases hgo with
  | skip => simp [Planned]
  | opens next hraw hroom hc =>
    simp only [List.forall_mem_append, List.forall_mem_cons]
    exact ⟨⟨planned_storeOps rfl (by rw [newRecord_length hraw]; omega), rfl, rfl, trivial, nofun⟩, rfl, nofun⟩
  | appends next hopn hfits hc =>
    obtain ⟨-, hlast⟩ := h.openLast _ hopn
    simp only [List.forall_mem_append, List.forall_mem_cons]
    exact ⟨⟨⟨planned_storeOps rfl (by omega), rfl, nofun⟩, planned_storeOps rfl (by rw [le32_length]; omega)⟩, rfl, nofun⟩

theorem planned_scanLoop (fuel : Nat) {c : Scan} (h : ScanSound s.regs c) :
    ∀ op ∈ scanLoop s fuel c, Planned .decodeContainer s op := by
  induction fuel generalizing c with
  | zero => simp [scanLoop]
  | succ fuel ih =>
    simp only [scanLoop]
    split
    · refine List.forall_mem_append.2 ⟨planned_chunkLoads c, ?_⟩
      split
      · rename_i hstop
        simpa [Planned] using scanChunk_stop hstop
      · rename_i hgo
        exact List.forall_mem_append.2 ⟨planned_chunk h (scanChunk_go hgo), ih (scanChunk_sound h hgo)⟩
    · simp

/-! ### The commands -/

theorem planned_frameBlock : ∀ op ∈ planFrameBlock s, Planned .frameBlock s op := by
  simp only [planFrameBlock]
  split
  · simp [Planned]
  · have hst : ∀ op ∈ storeOps s.regs.dstBase 0 (frameBlockBytes s), Planned .frameBlock s op :=
      planned_storeOps rfl (by rw [frameBlockBytes_length]; omega)
    simp only [List.forall_mem_append]
    exact ⟨⟨planned_loadOps rfl (by omega), hst⟩, by simp [Planned, buildsFrame]⟩

theorem planned_buildHeader : ∀ op ∈ planBuildHeader s, Planned .buildHeader s op := by
  simp only [planBuildHeader]
  split
  · simp [Planned]
  · exact List.forall_mem_append.2 ⟨planned_storeOps rfl (by rw [hdr_length]; omega), by simp [Planned]⟩

theorem planned_decodeContainer : ∀ op ∈ planDecodeContainer s, Planned .decodeContainer s op := by
  simp only [planDecodeContainer]
  split
  · simp [Planned]
  · rename_i hlen
    refine List.forall_mem_append.2 ⟨planned_loadOps rfl (by omega), ?_⟩
    split
    · simp [Planned]
    · exact List.forall_mem_cons.2 ⟨rfl, planned_scanLoop _ (scanStart_sound (by omega))⟩

theorem planned_reqSize : ∀ op ∈ planReqSize s, Planned .reqSize s op := by
  simp only [planReqSize]
  split <;> simp [Planned]

theorem planned_encodeContainer : ∀ op ∈ planEncodeContainer s, Planned .encodeContainer s op := by
  simp only [planEncodeContainer]
  split
  · simp [Planned]
  · rename_i size hsize
    obtain ⟨hpos, hlen⟩ := validSize_eq_some hsize
    split
    · simp [Planned]
    · have hst : ∀ op ∈ storeOps s.regs.dstBase 0 (image s.params s.regs size (payload s)),
          Planned .encodeContainer s op :=
        planned_storeOps rfl (by rw [image_length hpos (by simp [hlen])]; omega)
      simp only [List.forall_mem_append]
      exact ⟨⟨planned_loadOps rfl (by omega), hst⟩, by simp [Planned, buildsFrame]⟩

theorem planned_encodeTape : ∀ op ∈ planEncodeTape s, Planned .encodeTape s op := by
  simp only [planEncodeTape]
  split
  · simp [Planned]
  · rename_i size hsize
    obtain ⟨-, hlen⟩ := validSize_eq_some hsize
    simp only [List.forall_mem_append]
    exact ⟨⟨planned_loadOps rfl (by omega), planned_sound rfl (tapeOps_all_sound ..)⟩, by simp [Planned, buildsFrame]⟩

/-- What any command may plan. -/
theorem planned_of_mem (i : Instr) (s : State) : ∀ op ∈ planOf i s, Planned i s op := by
  cases i with
  | nop => exact nofun
  | frameBlock => exact planned_frameBlock
  | chunkLen => simp [planOf, planChunkLen, Planned]
  | buildHeader => exact planned_buildHeader
  | decodeContainer => exact planned_decodeContainer
  | reqSize => exact planned_reqSize
  | encodeContainer => exact planned_encodeContainer
  | renderTone => exact planned_sound rfl (toneOps_all_sound ..)
  | renderSilence => exact planned_sound rfl (silenceOps_all_sound ..)
  | encodeTape => exact planned_encodeTape

end Sys2Proof.Machine
end

section
/-! SUPPORT. The rules of the invariant: what each named update of the state asks for to keep it, and that the engine
keeps it (10_state.md R26, R36, R37, 20_memory.md R60). -/

namespace Sys2Proof.Machine

/-! ### The work left -/

/-- The work of a running command is legal steps and then one completion. -/
theorem todoLegal_iff {r : Regs} {ops : List EngineOp} :
    todoLegal r ops = true ↔ ∃ plan, ops = plan ++ [.complete] ∧ ∀ op ∈ plan, opLegal r op = true := by
  constructor
  · intro h
    induction ops with
    | nil => simp [todoLegal] at h
    | cons op ops ih =>
      by_cases hend : op = .complete ∧ ops = []
      · obtain ⟨rfl, rfl⟩ := hend
        exact ⟨[], rfl, nofun⟩
      · have hcons : todoLegal r (op :: ops) = (opLegal r op && todoLegal r ops) := by
          rw [todoLegal]
          simpa using hend
        rw [hcons, Bool.and_eq_true] at h
        obtain ⟨plan, rfl, hplan⟩ := ih h.2
        exact ⟨op :: plan, rfl, List.forall_mem_cons.2 ⟨h.1, hplan⟩⟩
  · rintro ⟨plan, rfl, hplan⟩
    induction plan with
    | nil => rfl
    | cons op plan ih =>
      obtain ⟨hop, hrest⟩ := List.forall_mem_cons.1 hplan
      have hcons : todoLegal r (op :: (plan ++ [.complete])) = (opLegal r op && todoLegal r (plan ++ [.complete])) := by
        rw [todoLegal]
        simp
      rw [List.cons_append, hcons, hop, ih hrest]
      rfl

/-- The next step of a running command is its completion, with nothing after it, or a legal step. -/
theorem todoLegal_cons {r : Regs} {op : EngineOp} {ops : List EngineOp} (h : todoLegal r (op :: ops) = true) :
    (op = .complete ∧ ops = []) ∨ (opLegal r op = true ∧ todoLegal r ops = true) := by
  obtain ⟨plan, heq, hplan⟩ := todoLegal_iff.1 h
  cases plan with
  | nil => exact .inl (by simpa using heq)
  | cons o plan =>
    obtain ⟨rfl, rfl⟩ := List.cons.inj heq
    obtain ⟨hop, hrest⟩ := List.forall_mem_cons.1 hplan
    exact .inr ⟨hop, todoLegal_iff.2 ⟨plan, rfl, hrest⟩⟩

/-- A read still to come is inside the input region. -/
theorem todoLegal_load {r : Regs} {ops : List EngineOp} (h : todoLegal r ops = true) {a : Nat} {b : Byte}
    (hl : .load a b ∈ ops) : a < 2 ^ 32 ∧ inRegion r.srcBase r.srcLen a = true := by
  obtain ⟨plan, rfl, hplan⟩ := todoLegal_iff.1 h
  have hmem : .load a b ∈ plan := by simpa using hl
  simpa [opLegal] using hplan _ hmem

/-- Regions that do not overlap share no address (70_reset_and_hazards.md R218). -/
theorem ne_of_not_overlap {r : Regs} (h : regionsOverlap r = false) {a b : Nat}
    (ha : inRegion r.srcBase r.srcLen a = true) (hb : inRegion r.dstBase r.dstLen b = true) : a ≠ b := by
  rintro rfl
  have := r.srcLen.isLt
  have := r.dstLen.isLt
  have := r.srcBase.isLt
  have := r.dstBase.isLt
  simp only [regionsOverlap, Bool.and_eq_false_iff, Bool.or_eq_false_iff, bne_eq_false_iff_eq, decide_eq_false_iff_not,
    ← BitVec.toNat_inj, BitVec.toNat_sub, BitVec.ofNat_eq_ofNat, BitVec.toNat_ofNat] at h
  simp only [inRegion, BitVec.toNat_sub, BitVec.toNat_ofNat, decide_eq_true_eq] at ha hb
  omega

/-! ### Reads that stay fresh -/

/-- A store at an address that no read still to come names keeps the reads fresh. -/
theorem loadsFresh_write {m : Memory} {ops : List EngineOp} {a : Nat} (b : Byte)
    (h : ops.all (loadFresh m) = true) (ha : ∀ x c, .load x c ∈ ops → x ≠ a) :
    ops.all (loadFresh (Memory.write m a b)) = true := by
  rw [List.all_eq_true] at h ⊢
  intro op hop
  have hf := h op hop
  cases op with
  | load x c => simpa only [loadFresh, read_write_other m b (ha x c hop)] using hf
  | store | push | countOffer | countAnswer | record | setResult | setOutLen | setCksum | setNbin | scan | tape
  | complete => rfl

/-! ### The error registers -/

/-- Every error but OVERRUN may stand in LAST_ERR, and every error in ERR (10_state.md R25, R26). -/
theorem errBit_masked (e : ErrKind) :
    errBit e &&& ~~~errMask = 0 ∧ (e ≠ .overrun → errBit e &&& ~~~lastErrMask = 0) := by
  cases e <;> decide

theorem errsLegal_recordErr {e : ErrKind} {s : State} (h : errsLegal s) (he : e ≠ .overrun) :
    errsLegal (recordErr e s) := by
  obtain ⟨herr, hlast⟩ := h
  obtain ⟨hb, hbl⟩ := errBit_masked e
  simp only [errsLegal, recordErr_err, recordErr_lastErr, BitVec.and_or_distrib_right, herr, hlast, hb, hbl he]
  exact ⟨rfl, rfl⟩

/-! ### The invariant -/

/-- An idle block has nothing left to do. -/
theorem Coherent.idle {s : State} (h : Coherent s) (hb : s.busy = false) : s.seq = .idle ∧ s.todo = [] := by
  obtain ⟨-, -, -, ⟨hidle, hrun⟩, -⟩ := h
  cases hs : s.seq with
  | idle => exact ⟨rfl, (hidle hs).2⟩
  | run => exact absurd (hrun hs).1 (by simp [hb])

theorem Coherent.running {s : State} (h : Coherent s) (ht : s.todo ≠ []) :
    s.seq = .run ∧ s.busy = true ∧ s.done = false ∧ todoLegal s.regs s.todo = true := by
  obtain ⟨-, -, -, ⟨hidle, hrun⟩, -⟩ := h
  cases hs : s.seq with
  | idle => exact absurd (hidle hs).2 ht
  | run => exact ⟨rfl, hrun hs⟩

/-- A read still to come, of a coherent state. -/
theorem Coherent.load {s : State} (h : Coherent s) {a : Nat} {b : Byte} (hl : .load a b ∈ s.todo) :
    s.busy = true ∧ inRegion s.regs.srcBase s.regs.srcLen a = true := by
  obtain ⟨-, hb, -, hlegal⟩ := h.running (List.ne_nil_of_mem hl)
  exact ⟨hb, (todoLegal_load hlegal hl).2⟩

theorem Coherent.overrun {s : State} (h : Coherent s) : Coherent (overrun s) := by
  obtain ⟨hmem, hregs, ⟨herr, hlast⟩, hseq, hfresh, hparams⟩ := h
  refine ⟨hmem, hregs, ⟨?_, hlast⟩, hseq, hfresh, hparams⟩
  rw [overrun_err, BitVec.and_or_distrib_right, herr, (errBit_masked .overrun).1]
  rfl

/-- Recording any error but OVERRUN keeps the invariant (60_exceptions.md R191). -/
theorem Coherent.recordErr {s : State} (h : Coherent s) {e : ErrKind} (he : e ≠ .overrun) : Coherent (recordErr e s) := by
  obtain ⟨hmem, hregs, herrs, hseq, hfresh, hparams⟩ := h
  exact ⟨hmem, hregs, errsLegal_recordErr herrs he, hseq, hfresh, hparams⟩

/-- A byte stored where no read still to come reads keeps the invariant. -/
theorem Coherent.write {s : State} (h : Coherent s) {a : Nat} (b : Byte) (ha : a < 2 ^ 32)
    (hother : ∀ x c, .load x c ∈ s.todo → x ≠ a) : Coherent { s with mem := Memory.write s.mem a b } := by
  obtain ⟨hmem, hregs, herrs, hseq, ⟨hfresh, hdisjoint⟩, hparams⟩ := h
  exact ⟨write_wf hmem ha b, hregs, herrs, hseq, ⟨loadsFresh_write b hfresh hother, hdisjoint⟩, hparams⟩

/-- A write to a control or operand register of an idle block: the invariant asks only that the value is legal. -/
theorem Coherent.setRegs {s : State} (h : Coherent s) (hb : s.busy = false) {r : Regs} (hr : regsLegal r) :
    Coherent { s with regs := r } := by
  obtain ⟨hseq, htodo⟩ := h.idle hb
  obtain ⟨hmem, -, herrs, -, -, hparams⟩ := h
  exact ⟨hmem, hr, herrs, ⟨fun _ => ⟨hb, htodo⟩, fun hrun => by simp [hseq] at hrun⟩, by simp [readsFresh, htodo], hparams⟩

/-! ### The engine -/

/-- A running command whose next step is not its completion: the step is legal, and what follows it is work left. -/
theorem Coherent.tail {op : EngineOp} {ops : List EngineOp} {s : State} (h : Coherent { s with todo := op :: ops })
    (hop : op ≠ .complete) : opLegal s.regs op = true ∧ Coherent { s with todo := ops } := by
  obtain ⟨hseq, hb, hd, hlegal⟩ := h.running (List.cons_ne_nil _ _)
  obtain ⟨hmem, hregs, herrs, -, ⟨hfresh, hdisjoint⟩, hparams⟩ := h
  obtain ⟨rfl, -⟩ | ⟨hlop, hrest⟩ := todoLegal_cons hlegal
  · exact absurd rfl hop
  · refine ⟨hlop, hmem, hregs, herrs, ⟨fun hi => ?_, fun _ => ⟨hb, hd, hrest⟩⟩, ⟨?_, fun hl hs => ?_⟩, hparams⟩
    · exact absurd (hseq.symm.trans hi) (by decide)
    · rw [List.all_cons, Bool.and_eq_true] at hfresh
      exact hfresh.2
    · exact hdisjoint (by rw [List.any_cons, hl, Bool.or_true]) (by rw [List.any_cons, hs, Bool.or_true])

/-- The completion of a running command leaves a coherent idle block (40_command.md R102). -/
theorem Coherent.complete {ops : List EngineOp} {s : State} (h : Coherent { s with todo := .complete :: ops }) :
    Coherent { completeCmd s with todo := ops } := by
  obtain ⟨-, -, -, hlegal⟩ := h.running (List.cons_ne_nil _ _)
  obtain ⟨hmem, hregs, herrs, -, -, hparams⟩ := h
  obtain ⟨-, rfl⟩ | ⟨hop, -⟩ := todoLegal_cons hlegal
  · exact ⟨hmem, hregs, herrs, ⟨fun _ => ⟨rfl, rfl⟩, nofun⟩, ⟨rfl, nofun⟩, hparams⟩
  · simp [opLegal] at hop

/-- A store of a running command hits no read still to come: reads lie in the input region, stores in the output region,
and the two share no address (70_reset_and_hazards.md R218). -/
theorem Coherent.store {a : Nat} {b : Byte} {ops : List EngineOp} {s : State}
    (h : Coherent { s with todo := .store a b :: ops }) :
    Coherent { s with mem := Memory.write s.mem a b, todo := ops } := by
  obtain ⟨hop, htail⟩ := h.tail (by simp)
  obtain ⟨-, -, -, -, ⟨-, hdisjoint⟩, -⟩ := h
  simp only [opLegal, Bool.and_eq_true, decide_eq_true_eq] at hop
  obtain ⟨ha, hout⟩ := hop
  refine htail.write b ha fun x c hl => ?_
  have hload : (EngineOp.store a b :: ops).any isLoad = true := by
    rw [List.any_eq_true]
    exact ⟨_, List.mem_cons_of_mem _ hl, rfl⟩
  exact ne_of_not_overlap (hdisjoint hload rfl) (htail.load hl).2 hout

/-- One step of the engine keeps the invariant. -/
theorem applyOp_coherent {op : EngineOp} {ops : List EngineOp} {s t : State}
    (h : Coherent { s with todo := op :: ops }) (ha : applyOp op s = some t) : Coherent { t with todo := ops } := by
  cases op with
  | complete =>
    cases ha
    exact h.complete
  | store =>
    cases ha
    exact h.store
  | record e =>
    cases ha
    obtain ⟨hop, htail⟩ := h.tail (by simp)
    exact htail.recordErr (by simpa [opLegal] using hop)
  | countAnswer =>
    cases ha
    have htail := (h.tail (by simp)).2
    rcases countAnswer_cases s with hc | hc | hc <;> rw [hc]
    · exact htail
    · exact htail
    · exact htail.recordErr (by decide)
  | push pos x =>
    have htail := (h.tail (by simp)).2
    simp only [applyOp] at ha
    split at ha <;> cases ha <;> exact htail
  | load | countOffer | setResult | setOutLen | setCksum | setNbin | scan | tape =>
    cases ha
    exact (h.tail (by simp)).2

/-- A run of the engine keeps the invariant, however far it gets. -/
theorem runOps_coherent (l : Option Nat) {ops : List EngineOp} {s : State} (h : Coherent { s with todo := ops }) :
    Coherent (runOps l ops s) := by
  induction ops generalizing l s with
  | nil => exact h
  | cons op ops ih =>
    simp only [runOps]
    split
    · exact h
    · split
      · exact h
      · rename_i ha
        exact ih _ (applyOp_coherent h ha)

theorem Coherent.engineRun {s : State} (h : Coherent s) : Coherent (engineRun s) := by
  cases hs : s.seq with
  | idle => rwa [engineRun_idle hs]
  | run =>
    rw [engineRun_run hs]
    exact runOps_coherent _ h

end Sys2Proof.Machine
end

section
/-! SUPPORT. The register window: which register an offset names, what each write stores, and what it leaves alone
(10_state.md R22 to R43). -/

namespace Sys2Proof.Machine

/-! ### Offsets -/

/-- The aligned offsets from 0x5C on are reserved (10_state.md R43). -/
theorem regAt_eq_none {off : BitVec 8} (ha : alignedOffset off = true) : regAt off = none ↔ 0x5C ≤ off.toNat := by
  revert off
  decide

theorem regAt_regOffset (r : Reg) : alignedOffset (regOffset r) = true ∧ regAt (regOffset r) = some r := by
  cases r <;> decide

/-- An aligned offset names a register exactly when it is that register's offset. -/
theorem regAt_eq_some {off : BitVec 8} (ha : alignedOffset off = true) (r : Reg) :
    regAt off = some r ↔ off = regOffset r := by
  have hat : ∀ off : BitVec 8, alignedOffset off = true → (regAt off).all (fun q => off == regOffset q) = true := by
    decide
  constructor
  · intro h
    simpa [h] using hat off ha
  · rintro rfl
    exact (regAt_regOffset r).2

/-- The registers whose value is free while BUSY = 1, by offset (10_state.md R46). -/
theorem isProgress_regAt {off : BitVec 8} (ha : alignedOffset off = true) :
    isProgress (regAt off) = true ↔ off ∈ ([0x48, 0x4C, 0x50, 0x54, 0x58] : List (BitVec 8)) := by
  revert off
  decide

/-! ### Stored values -/

/-- A clamped fraction has nine bits (10_state.md R28, R32). -/
theorem clamp256_toNat (v : BitVec 9) : (clamp256 v).toNat = min v.toNat 256 := by
  simp only [clamp256, BitVec.toNat_ofNat]
  omega

theorem clamp256_low (v : BitVec 9) : clamp256 v &&& 0x1FF = clamp256 v := by
  apply BitVec.eq_of_toNat_eq
  have h := clamp256_toNat v
  rw [BitVec.toNat_and, show (0x1FF : Word).toNat = 2 ^ 9 - 1 from rfl, Nat.and_two_pow_sub_one_eq_mod]
  omega

theorem and_mask_eq_zero {v m k : Word} (h : m &&& k = 0) : v &&& m &&& k = 0 := by
  rw [BitVec.and_assoc, h]
  exact BitVec.and_zero

theorem toneCfgStored_eq (v : Word) :
    toneCfgStored v = (v &&& 7#32) ||| (clamp256 (v.extractLsb' 8 9) <<< 8) := rfl

/-- TONE_CFG under a mask that VOLUME is not in: the three flags of the word written. -/
theorem toneCfgStored_and (v : Word) {m : Word} (h : 0x0001FF00 &&& m = 0) :
    toneCfgStored v &&& m = v &&& (7#32 &&& m) := by
  have hvol : clamp256 (v.extractLsb' 8 9) <<< 8 &&& m = 0 := by
    rw [← clamp256_low, BitVec.shiftLeft_and_distrib]
    exact and_mask_eq_zero h
  rw [toneCfgStored_eq, BitVec.and_or_distrib_right, hvol, BitVec.and_assoc]
  exact BitVec.or_zero

theorem volume_toneCfgStored (r : Regs) (v : Word) :
    volume { r with toneCfg := toneCfgStored v } = min (v.extractLsb' 8 9).toNat 256 := by
  have h := clamp256_toNat (v.extractLsb' 8 9)
  have hflags : (v &&& 7#32).toNat >>> 8 = 0 := by
    rw [BitVec.toNat_and, Nat.shiftRight_and_distrib]
    exact Nat.and_zero _
  have hshift : (clamp256 (v.extractLsb' 8 9) <<< 8).toNat >>> 8 = (clamp256 (v.extractLsb' 8 9)).toNat := by
    rw [BitVec.toNat_shiftLeft, Nat.shiftLeft_eq, Nat.shiftRight_eq_div_pow]
    omega
  have hbits : (toneCfgStored v).toNat >>> 8 = (clamp256 (v.extractLsb' 8 9)).toNat := by
    rw [toneCfgStored_eq, BitVec.toNat_or, Nat.shiftRight_or_distrib, hflags, hshift, Nat.zero_or]
  rw [volume, BitVec.extractLsb'_toNat, hbits, h]
  omega

/-- What a write stores is legal (10_state.md R22, R24, R28, R32, R33, R35). -/
theorem regsLegal_writeReg {s : State} (h : regsLegal s.regs) (r : Option Reg) (v : Word) :
    regsLegal (writeReg r v s).regs := by
  have hall := h
  obtain ⟨hctrl, htone, hvol, hduty, hname, hblk⟩ := h
  cases r with
  | none => exact hall
  | some r =>
    cases r with
    | ctrl => exact ⟨and_mask_eq_zero (by decide), htone, hvol, hduty, hname, hblk⟩
    | toneCfg =>
      refine ⟨hctrl, (toneCfgStored_and v (by decide)).trans BitVec.and_zero, ?_, hduty, hname, hblk⟩
      exact (volume_toneCfgStored s.regs v).trans_le (Nat.min_le_right ..)
    | duty => exact ⟨hctrl, htone, hvol, (clamp256_toNat _).trans_le (Nat.min_le_right ..), hname, hblk⟩
    | nameHi => exact ⟨hctrl, htone, hvol, hduty, and_mask_eq_zero (by decide), hblk⟩
    | blk => exact ⟨hctrl, htone, hvol, hduty, hname, and_mask_eq_zero (by decide)⟩
    | _ => exact hall

/-! ### Writes -/

/-- A register write touches the host's registers, ERR and DONE, and nothing else. -/
theorem writeReg_frame (r : Option Reg) (v : Word) (s : State) :
    writeReg r v s =
      { s with regs := (writeReg r v s).regs, err := (writeReg r v s).err, done := (writeReg r v s).done } := by
  cases r with
  | none => rfl
  | some r => cases r <;> rfl

/-- Only a write to STATUS touches DONE (40_command.md R107). -/
theorem writeReg_done (r : Option Reg) (v : Word) (s : State) :
    (writeReg r v s).done = (s.done && !(r == some .status && v.getLsbD 1)) := by
  cases r with
  | none => simp [writeReg]
  | some r => cases r <;> simp [writeReg]

/-- Only a write to ERR touches ERR (40_command.md R107). -/
theorem writeReg_err (r : Option Reg) (v : Word) (s : State) :
    (writeReg r v s).err = if r = some .err then w1c s.err v else s.err := by
  cases r with
  | none => rfl
  | some r => cases r <;> rfl

/-- Every register but the written one and STATUS reads as before: a write changes one field, a read takes one. -/
theorem regWord_writeReg_other {r : Option Reg} {q : Reg} (hq : q ≠ .status) (h : r ≠ some q) (v : Word) (s : State) :
    regWord (some q) (writeReg r v s) = regWord (some q) s := by
  cases r with
  | none => rfl
  | some r => cases r <;> cases q <;> trivial

end Sys2Proof.Machine
end

section
/-! SUPPORT. Commands, host accesses and the step keep the invariant (40_command.md R100 to R103,
70_reset_and_hazards.md R210, R217, R218). -/

namespace Sys2Proof.Machine

/-! ### Commands -/

/-- What a plan must be for its command to keep the invariant. -/
structure PlanLegal (s : State) (plan : List EngineOp) : Prop where
  legal : ∀ op ∈ plan, opLegal s.regs op = true
  fresh : ∀ op ∈ plan, loadFresh s.mem op = true
  disjoint : plan.any isLoad = true → plan.any isStore = true → regionsOverlap s.regs = false

/-- A planned step is legal, and a planned read is fresh at the launch. -/
theorem Planned.legal {i : Instr} {s : State} {op : EngineOp} (h : Planned i s op) :
    opLegal s.regs op = true ∧ loadFresh s.mem op = true := by
  cases op with
  | load a b =>
    obtain ⟨-, ⟨k, hk, rfl⟩, rfl⟩ := h
    exact ⟨by rw [opLegal, inRegion_effAddr hk, decide_eq_true (effAddr_lt ..)]; rfl, by simp [loadFresh]⟩
  | store a b =>
    obtain ⟨-, k, hk, rfl⟩ := h
    exact ⟨by rw [opLegal, inRegion_effAddr hk, decide_eq_true (effAddr_lt ..)]; rfl, rfl⟩
  | record e => exact ⟨bne_iff_ne.2 h, rfl⟩
  | complete => exact h.elim
  | push | countOffer | countAnswer | setResult | setOutLen | setCksum | setNbin | scan | tape => exact ⟨rfl, rfl⟩

theorem Planned.readsMemory_of_load {i : Instr} {s : State} {op : EngineOp} (h : Planned i s op) (hl : isLoad op = true) :
    readsMemory i = true := by
  cases op with
  | load => exact h.1
  | _ => cases hl

theorem Planned.writesMemory_of_store {i : Instr} {s : State} {op : EngineOp} (h : Planned i s op) (hl : isStore op = true) :
    writesMemory i = true := by
  cases op with
  | store => exact h.1
  | _ => cases hl

/-- The regions of a command that reads and writes share no address, or its launch is refused. -/
theorem exec_disjoint {i : Instr} {s t : State} (hb : s.busy = false) (ht : exec i s = .next t)
    (hi : readsAndWrites i = true) : regionsOverlap s.regs = false := by
  rw [exec_eq, if_pos hi, runDisjoint] at ht
  by_contra ho
  rw [Bool.not_eq_false] at ho
  simp [hb, ho] at ht

/-- The plan of a launched command keeps to the rules. -/
theorem planOf_legal {i : Instr} {s t : State} (hb : s.busy = false) (ht : exec i s = .next t) :
    PlanLegal s (planOf i s) where
  legal op hop := (planned_of_mem i s op hop).legal.1
  fresh op hop := (planned_of_mem i s op hop).legal.2
  disjoint hl hs := by
    obtain ⟨l, hlm, hl⟩ := List.any_eq_true.1 hl
    obtain ⟨w, hwm, hw⟩ := List.any_eq_true.1 hs
    have hr := (planned_of_mem i s l hlm).readsMemory_of_load hl
    have hw := (planned_of_mem i s w hwm).writesMemory_of_store hw
    exact exec_disjoint hb ht (by rw [readsAndWrites_eq, hr, hw]; rfl)

/-- The start effects, with a legal plan to perform, keep the invariant (40_command.md R101). -/
theorem Coherent.start {s : State} (h : Coherent s) {plan : List EngineOp} (hp : PlanLegal s plan) :
    Coherent { startCmd s with todo := plan ++ [.complete] } := by
  obtain ⟨hmem, hregs, ⟨herr, -⟩, -, -, hparams⟩ := h
  have hfresh : (plan ++ [EngineOp.complete]).all (loadFresh s.mem) = true :=
    List.all_eq_true.2 (List.forall_mem_append.2 ⟨hp.fresh, by simp [loadFresh]⟩)
  refine ⟨hmem, hregs, ⟨herr, BitVec.zero_and⟩, ⟨nofun, fun _ => ⟨rfl, rfl, ?_⟩⟩, ⟨hfresh, fun hl hs => ?_⟩, hparams⟩
  · exact todoLegal_iff.2 ⟨plan, rfl, hp.legal⟩
  · exact hp.disjoint (by simpa [isLoad] using hl) (by simpa [isStore] using hs)

theorem runCommand_coherent {plan : State → List EngineOp} {s t : State} (h : Coherent s)
    (hp : s.busy = false → PlanLegal s (plan s)) (ht : runCommand plan s = .next t) : Coherent t := by
  unfold runCommand at ht
  split at ht
  · cases ht
    exact h.overrun.engineRun
  · rename_i hb
    cases ht
    exact (h.start (hp (by simpa using hb))).engineRun

theorem exec_coherent {i : Instr} {s t : State} (h : Coherent s) (ht : exec i s = .next t) : Coherent t :=
  runCommand_coherent h (fun hb => planOf_legal hb ht) (exec_next ht)

theorem execIllegal_coherent {s t : State} (h : Coherent s) (ht : execIllegal s = .next t) : Coherent t :=
  runCommand_coherent h (fun _ => ⟨by simp [opLegal], by simp [loadFresh], by simp [isLoad]⟩) ht

/-! ### Host accesses -/

theorem issue_coherent {w : Word} {s t : State} (h : Coherent s) (ht : issue w s = .next t) : Coherent t := by
  unfold issue at ht
  split at ht
  · exact exec_coherent h ht
  · exact execIllegal_coherent h ht

/-- Clearing DONE and error bits of an idle block. -/
theorem Coherent.acknowledge {s : State} (h : Coherent s) (hb : s.busy = false) (d : Bool) {e : Word}
    (he : e &&& ~~~errMask = 0) : Coherent { s with err := e, done := d } := by
  obtain ⟨hseq, htodo⟩ := h.idle hb
  obtain ⟨hmem, hregs, ⟨-, hlast⟩, -, hfresh, hparams⟩ := h
  exact ⟨hmem, hregs, ⟨he, hlast⟩, ⟨fun _ => ⟨hb, htodo⟩, fun hrun => by simp [hseq] at hrun⟩, hfresh, hparams⟩

theorem writeReg_coherent {s : State} (h : Coherent s) (hb : s.busy = false) (r : Option Reg) (v : Word) :
    Coherent (writeReg r v s) := by
  have hall := h
  obtain ⟨-, hregs, ⟨herr, -⟩, -⟩ := hall
  have he : (writeReg r v s).err &&& ~~~errMask = 0 := by
    rw [writeReg_err]
    split
    · rw [w1c, BitVec.and_assoc, BitVec.and_comm (~~~v), ← BitVec.and_assoc, herr]
      exact BitVec.zero_and
    · exact herr
  rw [writeReg_frame]
  exact (h.setRegs hb (regsLegal_writeReg hregs r v)).acknowledge hb _ he

theorem hostWriteReg_coherent {s : State} (h : Coherent s) (off : BitVec 8) (v : Word) :
    Coherent (hostWriteReg off v s) := by
  unfold hostWriteReg
  split
  · exact h.overrun.engineRun
  · rename_i hb
    exact writeReg_coherent h (by simpa using hb) _ v

theorem hostReadReg_coherent {s : State} (h : Coherent s) (off : BitVec 8) : Coherent (hostReadReg off s) := by
  unfold hostReadReg
  split <;> exact h

/-- A reset keeps memory and the launch parameters, and nothing else of what the invariant speaks of. -/
theorem resetBlock_coherent {s : State} (h : Coherent s) : Coherent (resetBlock s) := by
  obtain ⟨hmem, -, -, -, -, hparams⟩ := h
  have hregs : regsLegal Regs.reset := by decide
  exact ⟨hmem, hregs, ⟨BitVec.zero_and, BitVec.zero_and⟩, ⟨fun _ => ⟨rfl, rfl⟩, nofun⟩, ⟨rfl, nofun⟩, hparams⟩

/-- A host store keeps the invariant: while BUSY the input region, where reads are still to come, is refused
(70_reset_and_hazards.md R217). -/
theorem hostMemWrite_coherent {s : State} (h : Coherent s) {a : Word} (b : Byte)
    (ha : s.busy = true → inInput s a = false) : Coherent { s with mem := Memory.write s.mem a.toNat b } := by
  refine h.write b a.isLt ?_
  rintro _ c hl rfl
  obtain ⟨hb, hin⟩ := h.load hl
  have hout := ha hb
  rw [inInput, hin] at hout
  cases hout

/-- Every host access that is not refused keeps the invariant. -/
theorem hostAct_coherent {act : HostAct} {s t : State} (h : Coherent s) (ht : hostAct act s = .next t) : Coherent t := by
  cases act with
  | regWrite off v =>
    simp only [hostAct] at ht
    split at ht
    · split at ht
      · exact issue_coherent h ht
      · cases ht
        exact hostWriteReg_coherent h off v
    · cases ht
  | regRead off =>
    simp only [hostAct] at ht
    split at ht <;> cases ht
    exact (hostReadReg_coherent h off).engineRun
  | oddAccess off bytes => cases ht
  | memWrite a b =>
    simp only [hostAct] at ht
    split at ht
    · cases ht
    · rename_i hin
      split at ht
      · cases ht
      · cases ht
        exact (hostMemWrite_coherent h b fun hb => by simpa [hb] using hin).engineRun
  | memRead a =>
    simp only [hostAct] at ht
    split at ht <;> cases ht
    exact Coherent.engineRun (s := { s with replies := .mem a (Memory.read s.mem a.toNat) :: s.replies }) h
  | reset =>
    cases ht
    exact resetBlock_coherent h

/-- Settles O21: a step is the host's next access, or the engine going on, and both keep the invariant. -/
theorem stepKeepsTheInvariant : Obligations.StepKeepsTheInvariant := by
  intro s t h ht
  obtain ⟨-, -, hf⟩ | ⟨e, rest, -, hs⟩ | ⟨-, hs⟩ := step_cases s
  · rw [hf] at ht
    cases ht
  · rw [hs] at ht
    exact hostAct_coherent (s := { s with host := rest }) h ht
  · rw [hs] at ht
    cases ht
    exact h.engineRun

end Sys2Proof.Machine
end

section
/-! SUPPORT. What commands and host accesses leave alone, however far they get, and the statements that say so
(10_state.md R41, R49, 20_memory.md R58). -/

namespace Sys2Proof.Machine

/-! ### Commands -/

/-- What every step a command plans keeps, the command keeps from its start effects on, however far it gets. -/
theorem exec_keeps {P : State → Prop} {i : Instr} {s t : State} (hb : s.busy = false) (ht : exec i s = .next t)
    (hstart : P (startCmd s)) (hop : ∀ op, Planned i s op → ∀ u v, P u → applyOp op u = some v → P v)
    (hcomplete : ∀ u, P u → P (completeCmd u)) (htodo : ∀ u w, P u → P { u with todo := w })
    (hhost : ∀ u evs, P u → P { u with host := evs }) : P t := by
  rw [exec_idle hb ht]
  refine hhost _ _ (runOps_keeps _ hstart (List.forall_mem_append.2 ⟨fun op hmem => ?_, ?_⟩) htodo)
  · exact hop op (planned_of_mem i s op hmem)
  · simp only [List.forall_mem_singleton, applyOp, Option.some.injEq]
    rintro u _ hu rfl
    exact hcomplete u hu

/-- A step that is no store leaves memory alone. -/
theorem applyOp_mem {op : EngineOp} {s t : State} (h : applyOp op s = some t) :
    t.mem = s.mem ∨ ∃ a b, op = .store a b ∧ t.mem = Memory.write s.mem a b := by
  cases op with
  | store a b =>
    cases h
    exact .inr ⟨a, b, rfl, rfl⟩
  | push pos x =>
    simp only [applyOp] at h
    split at h <;> cases h <;> exact .inl rfl
  | countAnswer =>
    cases h
    exact .inl (countAnswer_mem s)
  | load | countOffer | record | setResult | setOutLen | setCksum | setNbin | scan | tape | complete =>
    cases h
    exact .inl rfl

/-- Counting an answer is no business of CKSUM. -/
@[simp] theorem countAnswer_cksum (s : State) : (countAnswer s).res.cksum = s.res.cksum := by
  rcases countAnswer_cases s with h | h | h <;> rw [h]
  rfl

/-- Only `setCksum` writes CKSUM. -/
theorem applyOp_cksum {op : EngineOp} {s t : State} (h : applyOp op s = some t) (hop : ∀ b, op ≠ .setCksum b) :
    t.res.cksum = s.res.cksum := by
  cases op with
  | setCksum b => exact absurd rfl (hop b)
  | push pos x =>
    simp only [applyOp] at h
    split at h <;> cases h <;> rfl
  | countAnswer =>
    cases h
    exact countAnswer_cksum s
  | load | store | countOffer | record | setResult | setOutLen | setNbin | scan | tape | complete =>
    cases h
    rfl

/-- Settles O23: a command runs its plan, and no engine step writes what belongs to the host. -/
theorem commandsKeepTheConfiguration : Obligations.CommandsKeepTheConfiguration := by
  intro i s t ht
  obtain ⟨hregs, hreplies, hdraws, hparams⟩ := runCommand_keeps (exec_next ht)
  exact ⟨hregs, hparams, hreplies, hdraws⟩

/-- Settles O25: every store a command plans lies in the output region. -/
theorem commandsWriteOnlyTheOutputRegion : Obligations.CommandsWriteOnlyTheOutputRegion := by
  intro i s t hb ht a hout
  refine exec_keeps (P := fun u => Memory.read u.mem a = Memory.read s.mem a) hb ht rfl ?_ (fun _ h => h)
    (fun _ _ h => h) (fun _ _ h => h)
  intro op hop u v hu hv
  obtain hm | ⟨x, b, rfl, hm⟩ := applyOp_mem hv
  · rwa [hm]
  · obtain ⟨-, k, hk, rfl⟩ := hop
    rw [hm, read_write_other _ _ fun hax => hout ⟨k, hk, hax⟩]
    exact hu

/-- Settles O28: only the plans of the frame builders write CKSUM. -/
theorem cksumOnlyByFrameBuilders : Obligations.CksumOnlyByFrameBuilders := by
  intro i s t hb hi ht
  have hframe : buildsFrame i = false := by
    cases i <;> simp_all [buildsFrame]
  refine exec_keeps (P := fun u => u.res.cksum = s.res.cksum) hb ht rfl ?_ (fun _ h => h) (fun _ _ h => h)
    (fun _ _ h => h)
  intro op hop u v hu hv
  rw [← hu]
  refine applyOp_cksum hv ?_
  rintro b rfl
  exact absurd hop (by simp [Planned, hframe])

/-! ### Host accesses -/

/-- A write to CMD keeps the host's registers and the launch parameters, whatever the word is. -/
theorem issue_keeps {w : Word} {s t : State} (ht : issue w s = .next t) : t.regs = s.regs ∧ t.params = s.params := by
  have hrun : ∃ plan, runCommand plan s = .next t := by
    unfold issue at ht
    split at ht
    · exact ⟨_, exec_next ht⟩
    · exact ⟨_, ht⟩
  obtain ⟨plan, hplan⟩ := hrun
  obtain ⟨hregs, -, -, hparams⟩ := runCommand_keeps hplan
  exact ⟨hregs, hparams⟩

theorem hostWriteReg_params (off : BitVec 8) (v : Word) (s : State) : (hostWriteReg off v s).params = s.params := by
  unfold hostWriteReg
  split
  · simp
  · rw [writeReg_frame]

/-- While BUSY a register write is dropped (40_command.md R103). -/
theorem hostWriteReg_busy_regs {s : State} (hb : s.busy = true) (off : BitVec 8) (v : Word) :
    (hostWriteReg off v s).regs = s.regs := by
  simp [hostWriteReg, hb]

@[simp] theorem hostReadReg_regs (off : BitVec 8) (s : State) : (hostReadReg off s).regs = s.regs := by
  unfold hostReadReg
  split <;> rfl

@[simp] theorem hostReadReg_params (off : BitVec 8) (s : State) : (hostReadReg off s).params = s.params := by
  unfold hostReadReg
  split <;> rfl

/-- Every host access keeps the launch parameters, and all but a reset and a register write to an idle block keep the
registers the host programs (10_state.md R49, 70_reset_and_hazards.md R215). -/
theorem hostAct_keeps {act : HostAct} {s t : State} (ht : hostAct act s = .next t) :
    t.params = s.params ∧
      (t.regs ≠ s.regs → act = .reset ∨ (s.busy = false ∧ ∃ off v, act = .regWrite off v)) := by
  cases act with
  | regWrite off v =>
    simp only [hostAct] at ht
    split at ht
    · split at ht
      · obtain ⟨hregs, hparams⟩ := issue_keeps ht
        exact ⟨hparams, fun hne => absurd hregs hne⟩
      · cases ht
        refine ⟨hostWriteReg_params off v s, fun hne => .inr ⟨?_, off, v, rfl⟩⟩
        by_contra hb
        exact hne (hostWriteReg_busy_regs (by simpa using hb) off v)
    · cases ht
  | regRead off =>
    simp only [hostAct] at ht
    split at ht <;> cases ht
    simp
  | oddAccess off bytes => cases ht
  | memWrite a b =>
    simp only [hostAct] at ht
    split at ht
    · cases ht
    · split at ht <;> cases ht
      simp
  | memRead a =>
    simp only [hostAct] at ht
    split at ht <;> cases ht
    simp
  | reset =>
    cases ht
    exact ⟨rfl, fun _ => .inl rfl⟩

/-- Settles O24: the engine keeps the configuration, and so does every host access but the two named. -/
theorem configurationChangesOnlyByTheHost : Obligations.ConfigurationChangesOnlyByTheHost := by
  intro s t ht
  obtain ⟨-, -, hf⟩ | ⟨⟨arr, act⟩, rest, ⟨hhost, -⟩, hs⟩ | ⟨-, hs⟩ := step_cases s
  · rw [hf] at ht
    cases ht
  · rw [hs] at ht
    obtain ⟨hparams, hregs⟩ := hostAct_keeps ht
    exact ⟨hparams, fun hne => ⟨arr, act, rest, hhost, hregs hne⟩⟩
  · rw [hs] at ht
    cases ht
    simp

end Sys2Proof.Machine
end

section
/-! SUPPORT. The statements about the register window (10_state.md R22 to R46). -/

namespace Sys2Proof.Machine

/-- Settles O4: the map is a table; that nothing else is at an aligned offset is `regAt_eq_some` and `regAt_eq_none`. -/
theorem registerMapOffsets : Obligations.RegisterMapOffsets := by
  refine ⟨by decide, regAt_regOffset, fun off ha => ⟨fun r h => ?_, regAt_eq_none ha⟩⟩
  exact (regAt_eq_some ha r).1 h

/-- The bits of the STATUS word (10_state.md R23). -/
theorem statusWord_getLsbD (s : State) (i : Nat) :
    (statusWord s).getLsbD i =
      if i = 0 then s.busy else if i = 1 then s.done else if i = 2 then irq s else false := by
  simp only [statusWord, BitVec.getLsbD_append, BitVec.getLsbD_ofBool]
  rcases i with _ | _ | _ | i <;> simp

/-- Settles O14, bit by bit of the STATUS word. -/
theorem statusWordAndInterruptLevel : Obligations.StatusWordAndInterruptLevel := by
  intro s
  have hbit : ∀ i, (regWord (some .status) s).getLsbD i = _ := statusWord_getLsbD s
  refine ⟨hbit 0, hbit 1, hbit 2, (hbit 2).symm, fun i hi => ?_, rfl, rfl, ?_⟩
  · rw [hbit, if_neg (by omega), if_neg (by omega), if_neg (by omega)]
  · exact (BitVec.toNat_append (0#24) s.res.cksum).trans (by simp)

/-- Settles O13: a due read of a busy block, by whether the register is one of the five of R46. -/
theorem busyReadOfProgressIsFree : Obligations.BusyReadOfProgressIsFree := by
  intro s rest off hb hdue ha
  have hstep : step s = .next (engineRun (hostReadReg off { s with host := rest })) := by
    rw [step_due hdue]
    simp only [hostAct, ha, if_true]
  rw [hstep]
  refine ⟨fun hmem => ?_, fun hmem => ?_⟩
  · have hp := (isProgress_regAt ha).2 hmem
    simp [hostReadReg, hb, hp]
  · have hp : isProgress (regAt off) = false := by
      rw [← Bool.not_eq_true, isProgress_regAt ha]
      exact hmem
    simp [hostReadReg, hp]

/-- Settles O10: what is left alone is `writeReg_frame` and `regWord_writeReg_other`; what is stored goes register by
register. -/
theorem idleRegisterWrite : Obligations.IdleRegisterWrite := by
  intro s e rest off v hb hdue he ha hoff
  have hcmd : regAt off ≠ some .cmd := fun h => hoff (regAt_cmd ha h)
  have hstep : step s = .next (writeReg (regAt off) v { s with host := rest }) := by
    rw [step_due hdue, he]
    simp only [hostAct, ha, hcmd, hostWriteReg, hb, if_true, if_false, Bool.false_eq_true]
  have hstatus : (regAt off == some .status) = (off == 0x04) := by
    rw [Bool.eq_iff_iff, beq_iff_eq, beq_iff_eq]
    exact regAt_eq_some ha .status
  refine ⟨_, hstep, writeReg_frame .., fun q hq hne => ?_, ?_, ?_⟩
  · rw [regWord_writeReg_other hq hne, regWord_host]
  · rw [writeReg_done, hstatus]
  · cases regAt off with
    | none => rfl
    | some q =>
      cases q with
      | toneCfg =>
        exact ⟨toneCfgStored_and v (m := 0xFFFE00FF) (by decide), volume_toneCfgStored s.regs v⟩
      | duty => exact clamp256_toNat _
      | _ => rfl

end Sys2Proof.Machine
end

section
/-! SUPPORT. The states of a decode between two chunks, and the statement about them (10_state.md R44,
43_container_reader.md R138 to R140). -/

namespace Sys2Proof.Machine

/-- A command without a sound pushes nothing, so no sink stops it. -/
theorem pushFree_of_planned {i : Instr} {s : State} (hi : makesSound i = false) {ops : List EngineOp}
    (h : ∀ op ∈ ops, Planned i s op) : pushFree ops := by
  rintro op hop pos x rfl
  exact absurd (h _ hop) (by simp [Planned, hi])

/-- A byte string written to memory leaves a range of the same region apart from it as it was. -/
theorem memRead_writeBytes_other (m : Memory) (base : Word) {off x n : Nat} {bs : List Byte}
    (hapart : x + n ≤ off ∨ off + bs.length ≤ x) (hw : off + bs.length ≤ 2 ^ 32) (hx : x + n ≤ 2 ^ 32) :
    memRead (writeBytes m base off bs) base x n = memRead m base x n := by
  refine List.map_congr_left fun i hi => read_writeBytes_other _ _ _ _ fun j hj heq => ?_
  rw [List.mem_range] at hi
  have := effAddr_inj (by omega) (by omega) heq
  omega

/-- The received field of a record, bytes 16 to 19, as it is written (30_encoding.md R86). -/
theorem memRead_newRecord {m : Memory} (hm : Memory.wf m) (base : Word) {raw : List Byte} (hraw : raw.length = 6)
    (bc : Byte) (init last size : Nat) {off : Nat} (hoff : off + 20 + size ≤ 2 ^ 32) :
    memRead (writeBytes m base off (newRecord raw bc init last size)) base (off + 16) 4 = le32 0 := by
  obtain ⟨fields, hfields, hrec⟩ : ∃ fields : List Byte,
      fields.length = 16 ∧ newRecord raw bc init last size = fields ++ le32 0 ++ List.replicate size 0 :=
    ⟨_, by simp [hraw], rfl⟩
  rw [hrec, writeBytes_append, writeBytes_append, List.length_append, hfields, le32_length]
  rw [memRead_writeBytes_other _ _ (.inl (by omega)) (by simp; omega) (by omega)]
  exact memRead_writeBytes (writeBytes_wf hm _ _ _) base (off + 16) (le32 0) (by simp; omega)

/-- The state of a decode launched at s, between two chunks, with scanner c and memory m. -/
def scanned (s : State) (c : Scan) (m : Memory) : State :=
  { startCmd s with
    mem := m
    scan := c
    todo := []
    res := { (startCmd s).res with outLen := BitVec.ofNat 32 c.dptr, nbin := BitVec.ofNat 32 c.nbin } }

/-- What memory holds there: the received field of the open record says how much it has received, and outside the bytes
written so far it is the memory of the launch. -/
structure ScannedMemory (s : State) (c : Scan) (m : Memory) : Prop where
  canonical : Memory.wf m
  received : ∀ o, c.opn = some o → memRead m s.regs.dstBase (o.pos + 16) 4 = le32 o.wr
  outside : ∀ a, (¬ ∃ i < c.dptr, a = effAddr s.regs.dstBase i) → Memory.read m a = Memory.read s.mem a

/-- A byte string written below the write offset changes nothing outside the bytes below it. -/
theorem read_writeBytes_outside {s : State} {m : Memory} {off dptr : Nat} {bs : List Byte} {a : Nat}
    (hbs : off + bs.length ≤ dptr) (ha : ¬ ∃ i < dptr, a = effAddr s.regs.dstBase i) :
    Memory.read (writeBytes m s.regs.dstBase off bs) a = Memory.read m a :=
  read_writeBytes_other _ _ _ _ fun i hi heq => ha ⟨off + i, by omega, heq⟩

/-- A chunk takes the decode from one such state to the next. -/
theorem chunk_scanned {s : State} {c c' : Scan} {m : Memory} {ops : List EngineOp} (hc : ScanSound s.regs c)
    (hm : ScannedMemory s c m) (hgo : ChunkGo s.regs c ops c') :
    ∃ m', runOps none ops (scanned s c m) = scanned s c' m' ∧ ScannedMemory s c' m' := by
  have hdst := s.regs.dstLen.isLt
  have hdptr := hc.insideOutput
  rw [runOps_pushFree (pushFree_of_planned rfl (planned_chunk hc hgo))]
  cases hgo with
  | skip next => exact ⟨m, rfl, hm.canonical, hm.received, hm.outside⟩
  | @opens c₁ raw bc init last size next hraw hroom hc₁ =>
    subst hc₁
    refine ⟨writeBytes m s.regs.dstBase c.dptr (newRecord raw bc init last size), ?_, writeBytes_wf hm.canonical _ _ _,
      ?_, fun a ha => ?_⟩
    · simp [perform_append, scanned]
    · rintro _ ⟨⟩
      exact memRead_newRecord hm.canonical _ hraw _ _ _ _ (by omega)
    · rw [read_writeBytes_outside (by rw [newRecord_length hraw, Nat.add_assoc]) ha]
      exact hm.outside a fun ⟨i, hi, heq⟩ => ha ⟨i, by dsimp only; omega, heq⟩
  | @appends o bs c₁ next hopn hfits hc₁ =>
    subst hc₁
    obtain ⟨-, hlast⟩ := hc.openLast o hopn
    have hwf := writeBytes_wf hm.canonical s.regs.dstBase (o.pos + 20 + o.wr) bs
    refine ⟨writeBytes (writeBytes m s.regs.dstBase (o.pos + 20 + o.wr) bs) s.regs.dstBase (o.pos + 16)
      (le32 (o.wr + bs.length)), ?_, writeBytes_wf hwf _ _ _, ?_, fun a ha => ?_⟩
    · simp [perform_append, scanned]
    · rintro _ ⟨⟩
      exact memRead_writeBytes hwf _ _ (le32 _) (by rw [le32_length]; omega)
    · change ¬ ∃ i < c.dptr, a = _ at ha
      rw [read_writeBytes_outside (by rw [le32_length]; omega) ha, read_writeBytes_outside (by omega) ha]
      exact hm.outside a ha

/-- Every state of a scan is such a state. -/
theorem scanTo_scanned {s : State} {c : Scan} {t : State} (hwf : Memory.wf s.mem) (h : ScanTo s c t) :
    ∃ m, t = scanned s c m ∧ ScanSound s.regs c ∧ ScannedMemory s c m := by
  induction h with
  | start hlen hmagic => exact ⟨s.mem, rfl, scanStart_sound hlen, hwf, nofun, fun _ _ => rfl⟩
  | chunk h hoff hgo ih =>
    obtain ⟨m, rfl, hc, hm⟩ := ih
    obtain ⟨m', hrun, hm'⟩ := chunk_scanned hc hm (scanChunk_go hgo)
    exact ⟨m', hrun, scanChunk_sound hc hgo, hm'⟩

/-- Settles O58, by induction over the chunks of the scan (`scanTo_scanned`). -/
theorem scannedStatesAreSound : Obligations.ScannedStatesAreSound := by
  intro s c t hwf h
  obtain ⟨m, rfl, hc, hm⟩ := scanTo_scanned hwf h
  refine ⟨rfl, hc.magicRead, hc.insideInput, hc.insideOutput, hc.openIff, fun o ho => ?_, hm.canonical, hm.outside⟩
  obtain ⟨hfits, hlast⟩ := hc.openLast o ho
  exact ⟨hfits, hlast, hm.received o ho⟩

end Sys2Proof.Machine
end

section
/-! SUPPORT. The host's accesses to the memory of an idle block, and the statement about them (20_memory.md R50, R51,
R56). -/

namespace Sys2Proof.Machine

/-- A host store to an idle block is the write and nothing else: no region is closed, and no engine goes on. -/
theorem hostAct_memWrite_idle {s : State} (hb : s.busy = false) (hseq : s.seq = .idle) (a : Word) (b : Byte) :
    hostAct (.memWrite a b) s = .next { s with mem := Memory.write s.mem a.toNat b } := by
  simp [hostAct, hb, engineRun_idle, hseq]

/-- A host load from an idle block is the reply and nothing else. -/
theorem hostAct_memRead_idle {s : State} (hb : s.busy = false) (hseq : s.seq = .idle) (a : Word) :
    hostAct (.memRead a) s = .next { s with replies := .mem a (Memory.read s.mem a.toNat) :: s.replies } := by
  simp [hostAct, hb, engineRun_idle, hseq]

/-- Settles O18: the due access is the whole step, and the stored byte is found by the laws of memory. -/
theorem idleMemoryAccess : Obligations.IdleMemoryAccess := by
  intro s e rest a hb hseq hwf hdue
  refine ⟨fun b he => ⟨Memory.write s.mem a.toNat b, ?_, write_wf hwf a.isLt b, read_write_same hwf _ b,
    fun x hx => read_write_other _ b hx⟩, fun he => ?_⟩
  · rw [step_due hdue, he]
    exact hostAct_memWrite_idle (s := { s with host := rest }) hb hseq a b
  · rw [step_due hdue, he]
    exact hostAct_memRead_idle (s := { s with host := rest }) hb hseq a

end Sys2Proof.Machine
end

section
/-! SUPPORT. The decoder inverts the encoder and accepts nothing else, and the statements about command words and
the host script (30_encoding.md R70 to R75, R90, R91). -/

namespace Sys2Proof.Machine

/-! ### Opcodes -/

theorem decodeOp_opcode (i : Instr) : decodeOp (opcode i).toNat = .ok i := by
  cases i <;> rfl

theorem opcode_lt (i : Instr) : (opcode i).toNat < 10 := by
  cases i <;> decide

/-- The opcode map, read from both sides (30_encoding.md R73). -/
theorem decodeOp_eq_ok {n : Nat} {i : Instr} : decodeOp n = .ok i ↔ n = (opcode i).toNat := by
  refine ⟨fun h => ?_, fun h => h ▸ decodeOp_opcode i⟩
  unfold decodeOp at h
  split at h <;> cases h <;> rfl

/-- Every number below 10 is an opcode. -/
theorem decodeOp_isOk {n : Nat} (h : n < 10) : ∃ i, decodeOp n = .ok i := by
  interval_cases n <;> exact ⟨_, rfl⟩

/-! ### Command words -/

/-- A word is a command's when its bits 31:8 are zero and its bits 7:0 are an opcode (30_encoding.md R70, R71). -/
theorem decode_eq_ok {w : Word} {i : Instr} :
    decode w = .ok i ↔ w.extractLsb' 8 24 = 0 ∧ w.extractLsb' 0 8 = opcode i := by
  unfold decode
  split
  · rename_i hz
    rw [decodeOp_eq_ok, BitVec.toNat_inj, and_iff_right hz]
  · rename_i hz
    exact ⟨nofun, fun ⟨h, _⟩ => absurd h hz⟩

/-- A word is its bits 31:8 and its bits 7:0. -/
theorem eq_encode_iff {w : Word} {i : Instr} :
    w = encode i ↔ w.extractLsb' 8 24 = 0 ∧ w.extractLsb' 0 8 = opcode i := by
  refine ⟨?_, fun ⟨hz, hop⟩ => ?_⟩
  · rintro rfl
    exact ⟨BitVec.extractLsb'_append_eq_left, BitVec.extractLsb'_append_eq_right⟩
  · rw [encode, ← hz, ← hop]
    simp only [BitVec.extractLsb'_append_extractLsb'_eq_extractLsb', BitVec.extractLsb'_eq_self]

theorem decode_eq_ok_iff {w : Word} {i : Instr} : decode w = .ok i ↔ w = encode i :=
  decode_eq_ok.trans eq_encode_iff.symm

theorem decode_encode (i : Instr) : decode (encode i) = .ok i := decode_eq_ok_iff.2 rfl

/-- The legal words (30_encoding.md R71). -/
theorem decode_isOk {w : Word} :
    (∃ i, decode w = .ok i) ↔ w.extractLsb' 8 24 = 0 ∧ (w.extractLsb' 0 8).toNat < 10 := by
  refine ⟨fun ⟨i, hi⟩ => ?_, fun ⟨hz, hlt⟩ => ?_⟩
  · obtain ⟨hz, hop⟩ := decode_eq_ok.1 hi
    exact ⟨hz, hop ▸ opcode_lt i⟩
  · rw [decode, if_pos hz]
    exact decodeOp_isOk hlt

/-- A write to CMD of a word that is no command is the illegal command (40_command.md R108). -/
theorem issue_of_not_command {w : Word} (h : ¬ ∃ i, decode w = .ok i) (s : State) : issue w s = execIllegal s := by
  unfold issue
  split
  · rename_i i hi
    exact absurd ⟨i, hi⟩ h
  · rfl

/-- Settles O3: legality and the encoder take a word apart into the same two fields. -/
theorem decoderIsTotalAndExact : Obligations.DecoderIsTotalAndExact :=
  fun _ => ⟨fun _ => decode_eq_ok_iff, decode_isOk, issue_of_not_command⟩

/-- Settles O1: ten closed words, which the decoder computes. -/
theorem sampleWordsDecode : Obligations.SampleWordsDecode := by
  unfold Obligations.SampleWordsDecode
  decide

/-! ### Bus bytes and table words -/

/-- The first four bus bytes of a byte string are its command word, least significant first (10_state.md R22). -/
theorem decodeBytes_of_decode {b0 b1 b2 b3 : Byte} {i : Instr} (h : decode (b3 ++ b2 ++ b1 ++ b0) = .ok i)
    (rest : List Byte) : decodeBytes (b0 :: b1 :: b2 :: b3 :: rest) = .ok (i, rest) := by
  rw [decodeBytes, h]

/-- The four bus bytes of a word put together again. -/
theorem append_busBytes (w : Word) :
    w.extractLsb' 24 8 ++ w.extractLsb' 16 8 ++ w.extractLsb' 8 8 ++ w.extractLsb' 0 8 = w := by
  simp only [BitVec.extractLsb'_append_extractLsb'_eq_extractLsb', BitVec.extractLsb'_eq_self]

/-- A table word of 32 bits stands for the command it decodes to (30_encoding.md R75). -/
theorem decodeTableWord_of_decode {w : Word} {i : Instr} (h : decode w = .ok i) :
    decodeTableWord 32 w.toNat = some i := by
  have hw : BitVec.ofNat 32 (w.toNat % 2 ^ 32) = w := by
    rw [Nat.mod_eq_of_lt w.isLt, BitVec.ofNat_toNat, BitVec.setWidth_eq]
  rw [decodeTableWord, hw, decodeBytes_of_decode ((append_busBytes w).symm ▸ h)]

/-- Settles O2: the word, its bus bytes and its table word are one word, and `decode_encode` decodes it. -/
theorem decodeInvertsEncode : Obligations.DecodeInvertsEncode := by
  intro i _
  have hbytes : (0 : Byte) ++ (0 : Byte) ++ (0 : Byte) ++ opcode i = encode i := rfl
  exact ⟨decode_encode i, decodeBytes_of_decode (hbytes ▸ decode_encode i), decodeTableWord_of_decode (decode_encode i)⟩

/-! ### The host script -/

/-- Two bit vectors put together, as a shift and an OR. -/
theorem append_eq_shift_or {m n : Nat} (hi : BitVec m) (lo : BitVec n) :
    hi ++ lo = hi.setWidth (m + n) <<< n ||| lo.setWidth (m + n) := by
  rw [BitVec.append_def, BitVec.shiftLeftZeroExtend_eq, BitVec.setWidth'_eq]

/-- A command's word is its opcode, zero-extended (30_encoding.md R70). -/
theorem encode_eq_setWidth (i : Instr) : encode i = (opcode i).setWidth 32 := by
  cases i <;> rfl

/-- Settles O5: the pseudo-instructions of fixed text are closed; ADDR and CMD take their words from the two lemmas
above. -/
theorem scriptPseudoInstructions : Obligations.ScriptPseudoInstructions := by
  refine ⟨by decide, rfl, rfl, fun init last => ?_, fun b l => ⟨rfl, rfl⟩, fun i => ?_⟩
  · have hword : (last ++ init : Word) = last.setWidth 32 <<< 16 ||| init.setWidth 32 := append_eq_shift_or last init
    rw [← hword]
    rfl
  · rw [← encode_eq_setWidth]
    rfl

end Sys2Proof.Machine
end

section
/-! SUPPORT. What the commands that store nothing and those that push nothing leave alone, and the statements that say so
(30_encoding.md R73, 10_state.md R40, 20_memory.md R62). -/

namespace Sys2Proof.Machine

/-- Settles O26: a command that writes no DST memory plans no store, and only a store changes memory. -/
theorem nonStoringCommandsKeepMemory : Obligations.NonStoringCommandsKeepMemory := by
  intro i s t hb hi ht a
  have hnostore : writesMemory i = false :=
    (by decide : ∀ j ∈ [Instr.nop, .chunkLen, .reqSize, .renderTone, .renderSilence, .encodeTape],
      writesMemory j = false) i hi
  have hmem : t.mem = s.mem := by
    refine exec_keeps (P := fun u => u.mem = s.mem) hb ht rfl ?_ (fun _ h => h) (fun _ _ h => h) (fun _ _ h => h)
    intro op hop u v hu hv
    obtain hm | ⟨x, b, rfl, -⟩ := applyOp_mem hv
    · exact hm.trans hu
    · exact absurd (hop.writesMemory_of_store rfl) (by simp [hnostore])
  rw [hmem]

/-- The parts of the state a sound moves: the port and the sink, the places in tone and tape, and SAMPLE_COUNT. -/
def sameSound (s t : State) : Prop :=
  t.port = s.port ∧ t.sink = s.sink ∧ t.tone = s.tone ∧ t.tape = s.tape ∧ t.res.sampleCount = s.res.sampleCount

theorem sameSound.trans {s t u : State} (h : sameSound s t) (k : sameSound t u) : sameSound s u := by
  obtain ⟨h1, h2, h3, h4, h5⟩ := h
  obtain ⟨k1, k2, k3, k4, k5⟩ := k
  exact ⟨k1.trans h1, k2.trans h2, k3.trans h3, k4.trans h4, k5.trans h5⟩

/-- A step planned by a command that makes no sound moves none of them. -/
theorem Planned.sameSound_of_silent {i : Instr} {s u v : State} {op : EngineOp} (h : Planned i s op)
    (hi : makesSound i = false) (hv : applyOp op u = some v) : sameSound u v := by
  cases op with
  | push | countOffer | countAnswer | tape => exact absurd (hi.symm.trans h) Bool.false_ne_true
  | load | store | record | setResult | setOutLen | setCksum | setNbin | scan | complete =>
    cases hv
    exact ⟨rfl, rfl, rfl, rfl, rfl⟩

/-- Settles O27: a command that makes no sound keeps all that a sound moves from its start effects on, and those set
SAMPLE_COUNT to 0 (40_command.md R101). -/
theorem silentCommandsKeepThePort : Obligations.SilentCommandsKeepThePort := by
  intro i s t hb hi ht
  have hsilent : makesSound i = false :=
    (by decide : ∀ j ∈ [Instr.nop, .frameBlock, .chunkLen, .buildHeader, .decodeContainer, .reqSize, .encodeContainer],
      makesSound j = false) i hi
  exact exec_keeps (P := sameSound (startCmd s)) hb ht ⟨rfl, rfl, rfl, rfl, rfl⟩
    (fun op hop u v hu hv => hu.trans (hop.sameSound_of_silent hsilent hv)) (fun _ h => h) (fun _ _ h => h)
    (fun _ _ h => h)

end Sys2Proof.Machine
end

section
/-! SUPPORT. A write to CMD and the commands without a plan of their own, and the statements about them
(40_command.md R100, R104, R108; log entry 11). -/

namespace Sys2Proof.Machine

/-! ### A write to CMD -/

theorem issue_of_decode {w : Word} {i : Instr} (h : decode w = .ok i) (s : State) : issue w s = exec i s := by
  rw [issue, h]

theorem issue_of_reject {w : Word} {e : DecodeReject} (h : decode w = .error e) (s : State) :
    issue w s = execIllegal s := by
  rw [issue, h]

/-- A write to offset 0 issues the word written. -/
theorem hostAct_writeCmd (w : Word) (s : State) : hostAct (.regWrite 0x00 w) s = issue w s := rfl

/-- The step of a write to CMD that arrives at an idle block. -/
theorem step_writeCmd {s : State} {arr : Arrival} {w : Word} {rest : List HostEvent} (hb : s.busy = false)
    (hh : s.host = { arrival := arr, act := .regWrite 0x00 w } :: rest) : step s = issue w { s with host := rest } := by
  rw [step_due ⟨hh, by simp [arrived, hb], by simp [hb]⟩, hostAct_writeCmd]

/-- A table word stands for the command its low `nbits` bits decode to. -/
theorem decode_of_decodeTableWord {nbits w : Nat} {i : Instr} (h : decodeTableWord nbits w = some i) :
    decode (BitVec.ofNat 32 (w % 2 ^ nbits)) = .ok i := by
  rw [decodeTableWord, decodeBytes, append_busBytes] at h
  cases hd : decode (BitVec.ofNat 32 (w % 2 ^ nbits)) with
  | ok j => simpa [hd] using h
  | error e => simp [hd] at h

/-- Settles O6: the due write is the step, and it issues a word that decodes. -/
theorem stepRunsDecodedCommand : Obligations.StepRunsDecodedCommand := by
  intro s arr w rest i hb hh hd
  rw [step_writeCmd hb hh, issue_of_decode hd]

/-- Settles O7: the placement is a due write to CMD. -/
theorem fetchWordRunsItsCommand : Obligations.FetchWordRunsItsCommand := by
  intro s nbits w i hd
  exact (step_writeCmd rfl rfl).trans (issue_of_decode (decode_of_decodeTableWord hd) _)

/-! ### NOP and the illegal command -/

/-- Settles O31: NOP plans nothing, so only the start and the completion effects are left. -/
theorem nopOnlyStartsAndCompletes : Obligations.NopOnlyStartsAndCompletes := by
  intro s hr
  exact runCommand_performed (plan := fun _ => []) hr (.inr (by simp [pushFree]))

/-- An illegal command of an idle block whose host waits raises ILLEGAL_CMD (40_command.md R108). -/
theorem execIllegal_ready {s : State} (h : Ready s) : execIllegal s = .next (failed .illegalCmd s) :=
  runCommand_raised h rfl

/-- Settles O8: the due write is the step, and the word it issues is the illegal command. -/
theorem illegalWordRaisesIllegalCmd : Obligations.IllegalWordRaisesIllegalCmd := by
  intro s arr w rest e hb hh hwait hd
  rw [step_writeCmd hb hh, issue_of_reject hd, execIllegal_ready (s := { s with host := rest }) ⟨hb, hwait⟩]
  rfl

end Sys2Proof.Machine
end

section
/-! SUPPORT. Register accesses at a busy block, and reads at any: a write is dropped, a read leaves no trace in the
block, and a command that a read has cut ends as it does uncut (40_command.md R103, R106, 70_reset_and_hazards.md R221). -/

namespace Sys2Proof.Machine

/-! ### Dropped writes -/

/-- A word written to CMD while BUSY = 1 issues nothing, whatever it is. -/
theorem issue_busy {s : State} (h : s.busy = true) (w : Word) : issue w s = .next (engineRun (overrun s)) := by
  cases hd : decode w with
  | ok i => rw [issue_of_decode hd, exec_busy h]
  | error e => rw [issue_of_reject hd, execIllegal, runCommand_busy h]

/-- A register write while BUSY = 1 is dropped, at CMD as anywhere. -/
theorem hostAct_regWrite_busy {s : State} (hb : s.busy = true) {off : BitVec 8} (ha : alignedOffset off = true)
    (v : Word) : hostAct (.regWrite off v) s = .next (engineRun (overrun s)) := by
  rw [hostAct, if_pos ha]
  split
  · exact issue_busy hb v
  · rw [hostWriteReg, if_pos hb]

theorem spendLimit_of_zero {evs : List HostEvent} (h : stepLimit evs = some 0) : spendLimit evs = evs := by
  match evs, h with
  | ⟨.afterSteps 0, _⟩ :: _, _ => rfl

theorem runOps_zero (ops : List EngineOp) (s : State) : runOps (some 0) ops s = { s with todo := ops } := by
  cases ops <;> simp [runOps]

/-- Where the host's next access comes before any engine step, the engine does nothing. -/
theorem engineRun_of_due {s : State} (h : stepLimit s.host = some 0) : engineRun s = s := by
  cases hs : s.seq with
  | idle => exact engineRun_idle hs
  | run => rw [engineRun_run hs, h, runOps_zero, spendLimit_of_zero h]

/-- Settles O9: the due write is the step, and it is dropped. -/
theorem writeWhileBusyIsDropped : Obligations.WriteWhileBusyIsDropped := by
  intro s off v rest hb hdue ha
  have hstep : step s = .next (engineRun { s with host := rest, err := s.err ||| 0x400 }) :=
    (step_due hdue).trans (hostAct_regWrite_busy (s := { s with host := rest }) hb ha v)
  refine ⟨hstep, fun hnext => ?_, fun i => exec_busy hb⟩
  rw [hstep, engineRun_of_due hnext]

/-! ### Reads -/

/-- A register read changes what the host has read and drawn, and nothing of the block (40_command.md R106). -/
theorem hostReadReg_withHost (off : BitVec 8) (s : State) :
    ∃ replies draws, hostReadReg off s = withHost s.host replies draws s := by
  unfold hostReadReg
  split
  · exact ⟨_, _, rfl⟩
  · exact ⟨_, _, rfl⟩

/-- A register read from an idle block is the reply and nothing else: no value is free, and no engine goes on. -/
theorem hostAct_regRead_idle {s : State} (hb : s.busy = false) (hseq : s.seq = .idle) {off : BitVec 8}
    (ha : alignedOffset off = true) :
    hostAct (.regRead off) s = .next { s with replies := .reg off (regWord (regAt off) s) :: s.replies } := by
  simp [hostAct, ha, hostReadReg, hb, engineRun_idle, hseq]

/-- Settles O12: the due read is the whole step. -/
theorem idleReadHasNoSideEffect : Obligations.IdleReadHasNoSideEffect := by
  intro s e rest off hb hseq hdue he ha
  rw [step_due hdue, he, hostAct_regRead_idle (s := { s with host := rest }) hb hseq ha, regWord_host]

/-! ### A command cut in two -/

/-- A run cut by its limit or by the sink, and resumed without a limit, comes to the uncut run. -/
theorem runOps_resume (l : Option Nat) (ops : List EngineOp) (s : State) :
    runOps none (runOps l ops s).todo (runOps l ops s) = runOps none ops s := by
  induction ops generalizing l s with
  | nil => rfl
  | cons op ops ih =>
    rw [runOps]
    split
    · exact runOps_todo none (op :: ops) s _
    · split
      · exact runOps_todo none (op :: ops) s _
      · rename_i t ht
        rw [ih, runOps_cons ht]

/-- The engine of a block whose host waits performs what is left to do, which is nothing while it is idle. -/
theorem engineRun_performs_todo {s : State} (hidle : s.seq = .idle → s.todo = []) (hw : stepLimit s.host = none) :
    engineRun s = runOps none s.todo s := by
  cases hs : s.seq with
  | run => exact engineRun_waits hs hw
  | idle =>
    rw [engineRun_idle hs, hidle hs]
    exact congrArg (fun w => { s with todo := w }) (hidle hs)

/-- However far a launched command has got, it has work left while it is BUSY and none once the engine is idle. -/
theorem launched_run_todo (i : Instr) (s : State) (l : Option Nat) :
    let t := runOps l (planOf i s ++ [.complete]) (startCmd s)
    (t.busy = true → t.todo ≠ []) ∧ (t.seq = .idle → t.todo = []) := by
  have hplan : ∀ op ∈ planOf i s, op ≠ .complete := by
    rintro _ hop rfl
    exact planned_of_mem i s _ hop
  rcases runOps_complete l hplan (startCmd s) with ⟨htodo, -, hbusy, -⟩ | ⟨⟨_, post, -, htodo⟩, hseq, -⟩
  · exact ⟨fun h => absurd (hbusy.symm.trans h) Bool.false_ne_true, fun _ => htodo⟩
  · exact ⟨fun _ => by simp [htodo], fun h => absurd (hseq.symm.trans h) Seq.noConfusion⟩

/-- What a command comes to at an idle block does not depend on the host but for how far it lets the command go. -/
theorem exec_idle_withHost {i : Instr} {s t : State} {evs : List HostEvent} (hb : s.busy = false)
    (ht : exec i { s with host := evs } = .next t) :
    t = withHost (spendLimit evs) s.replies s.draws
      (runOps (stepLimit evs) (planOf i s ++ [.complete]) (startCmd s)) := by
  have hplan := planOf_congr (s := s) (t := { s with host := evs }) rfl rfl rfl i
  have hrun := runOps_withHost (stepLimit evs) (planOf i s ++ [.complete]) evs s.replies s.draws (startCmd s)
  rw [exec_idle (s := { s with host := evs }) hb ht, hplan]
  exact congrArg (fun u => { u with host := spendLimit evs }) hrun

/-- The step after a cut at which a register read has arrived: the read, which the engine does not see, and the rest of
the run. -/
theorem step_regRead_resumes {cut : State} (hwork : cut.busy = true → cut.todo ≠ [])
    (hidle : cut.seq = .idle → cut.todo = []) {off : BitVec 8} (ha : alignedOffset off = true) (rs : List Reply)
    (n : Nat) :
    ∃ replies draws,
      step (withHost [{ arrival := .afterSteps 0, act := .regRead off }] rs n cut) =
        .next (withHost [] replies draws (runOps none cut.todo cut)) := by
  obtain ⟨replies, draws, hread⟩ := hostReadReg_withHost off (withHost [] rs n cut)
  have hdue : Due (withHost [{ arrival := .afterSteps 0, act := .regRead off }] rs n cut)
      { arrival := .afterSteps 0, act := .regRead off } [] := ⟨rfl, by simp [arrived], hwork⟩
  have hstep : step (withHost [{ arrival := .afterSteps 0, act := .regRead off }] rs n cut) =
      .next (engineRun (hostReadReg off (withHost [] rs n cut))) := by
    rw [step_due hdue, hostAct, if_pos ha]
    rfl
  have hrun : engineRun (withHost [] replies draws cut) = runOps none cut.todo (withHost [] replies draws cut) :=
    engineRun_performs_todo (s := withHost [] replies draws cut) hidle rfl
  refine ⟨replies, draws, ?_⟩
  rw [hstep, hread, ← runOps_withHost, ← hrun]
  rfl

/-- Settles O30: the cut run and the uncut one are runs of one plan, and the read lets the cut one resume. -/
theorem readsDoNotDisturbACommand : Obligations.ReadsDoNotDisturbACommand := by
  intro i s t u n off hb ha ht hu
  obtain ⟨hwork, hidle⟩ := launched_run_todo i s (some n)
  obtain ⟨replies, draws, hstep⟩ := step_regRead_resumes hwork hidle ha s.replies s.draws
  rw [runOps_resume] at hstep
  rw [exec_idle_withHost hb ht, exec_idle_withHost hb hu]
  exact ⟨_, hstep, rfl⟩

end Sys2Proof.Machine
end

section
/-! SUPPORT. The bits of ERR: what records one, what clears one, and the statement about them (40_command.md R107,
10_state.md R25). -/

namespace Sys2Proof.Machine

section

variable {i : Nat} {s t : State}

/-! ### What keeps the bits -/

/-- Recording an error clears none. -/
theorem getLsbD_or_left {e : Word} (h : e.getLsbD i = true) (w : Word) : (e ||| w).getLsbD i = true := by
  rw [BitVec.getLsbD_or, h, Bool.true_or]

theorem countAnswer_keeps_errSet (h : s.err.getLsbD i = true) : (countAnswer s).err.getLsbD i = true := by
  obtain hc | hc | hc := countAnswer_cases s <;> rw [hc]
  · exact h
  · exact h
  · exact getLsbD_or_left h _

/-- The engine records errors and clears none. -/
theorem applyOp_keeps_errSet {op : EngineOp} (h : s.err.getLsbD i = true) (ht : applyOp op s = some t) :
    t.err.getLsbD i = true := by
  cases op with
  | record e =>
    cases ht
    exact getLsbD_or_left h _
  | countAnswer =>
    cases ht
    exact countAnswer_keeps_errSet h
  | push pos x =>
    simp only [applyOp] at ht
    split at ht <;> cases ht <;> exact h
  | load | store | countOffer | setResult | setOutLen | setCksum | setNbin | scan | tape | complete =>
    cases ht
    exact h

theorem engineRun_keeps_errSet (h : s.err.getLsbD i = true) : (engineRun s).err.getLsbD i = true := by
  cases hs : s.seq with
  | idle => rwa [engineRun_idle hs]
  | run =>
    rw [engineRun_run hs]
    exact runOps_keeps (P := fun u => u.err.getLsbD i = true) _ h (fun _ _ _ _ hu hv => applyOp_keeps_errSet hu hv)
      fun _ _ hu => hu

theorem runCommand_keeps_errSet {plan : State → List EngineOp} (h : s.err.getLsbD i = true)
    (ht : runCommand plan s = .next t) : t.err.getLsbD i = true := by
  unfold runCommand at ht
  split at ht <;> cases ht
  · exact engineRun_keeps_errSet (getLsbD_or_left h _)
  · exact engineRun_keeps_errSet h

theorem issue_keeps_errSet {w : Word} (h : s.err.getLsbD i = true) (ht : issue w s = .next t) :
    t.err.getLsbD i = true := by
  cases hd : decode w with
  | ok j => exact runCommand_keeps_errSet h (exec_next (issue_of_decode hd s ▸ ht))
  | error e => exact runCommand_keeps_errSet h (issue_of_reject hd s ▸ ht)

/-! ### What clears them -/

/-- A write of 1 is all that clears a bit by writing. -/
theorem w1c_clears {old v : Word} (h : old.getLsbD i = true) (hc : (w1c old v).getLsbD i = false) :
    v.getLsbD i = true := by
  simpa [w1c, h, BitVec.lt_of_getLsbD h] using hc

/-- Only an acknowledgement in ERR clears a bit by a register write, and only at an idle block. -/
theorem hostWriteReg_clears {off : BitVec 8} {v : Word} (ha : alignedOffset off = true) (h : s.err.getLsbD i = true)
    (hc : (hostWriteReg off v s).err.getLsbD i = false) : off = 0x08 ∧ v.getLsbD i = true ∧ s.busy = false := by
  unfold hostWriteReg at hc
  split at hc
  · exact absurd (engineRun_keeps_errSet (s := overrun s) (getLsbD_or_left h _)) (by simp [hc])
  · rename_i hb
    rw [writeReg_err] at hc
    split at hc
    · rename_i hr
      exact ⟨(regAt_eq_some ha .err).1 hr, w1c_clears h hc, by simpa using hb⟩
    · exact absurd h (by simp [hc])

/-- The host accesses that clear a bit of ERR: a reset, and an acknowledgement at an idle block. -/
theorem hostAct_clears {act : HostAct} (ht : hostAct act s = .next t) (h : s.err.getLsbD i = true)
    (hc : t.err.getLsbD i = false) :
    act = .reset ∨ ∃ v : Word, act = .regWrite 0x08 v ∧ v.getLsbD i = true ∧ s.busy = false := by
  have hlost : ¬ t.err.getLsbD i = true := by simp [hc]
  cases act with
  | regWrite off v =>
    simp only [hostAct] at ht
    split at ht
    · rename_i ha
      split at ht
      · exact absurd (issue_keeps_errSet h ht) hlost
      · cases ht
        obtain ⟨rfl, hv, hb⟩ := hostWriteReg_clears ha h hc
        exact .inr ⟨v, rfl, hv, hb⟩
    · cases ht
  | regRead off =>
    simp only [hostAct] at ht
    split at ht <;> cases ht
    obtain ⟨_, _, hread⟩ := hostReadReg_withHost off s
    exact absurd (engineRun_keeps_errSet (hread ▸ h)) hlost
  | oddAccess off bytes => cases ht
  | memWrite a b =>
    simp only [hostAct] at ht
    split at ht
    · cases ht
    · split at ht <;> cases ht
      refine absurd (engineRun_keeps_errSet ?_) hlost
      exact h
  | memRead a =>
    simp only [hostAct] at ht
    split at ht <;> cases ht
    refine absurd (engineRun_keeps_errSet ?_) hlost
    exact h
  | reset => exact .inl rfl

end

/-- Settles O11: a step is a host access or the engine going on, and the engine clears nothing. -/
theorem errorBitsAreSticky : Obligations.ErrorBitsAreSticky := by
  intro s t i ht h hc
  obtain ⟨-, -, hf⟩ | ⟨⟨arr, act⟩, rest, ⟨hhost, -⟩, hs⟩ | ⟨-, hs⟩ := step_cases s
  · rw [hf] at ht
    cases ht
  · rw [hs] at ht
    exact ⟨arr, act, rest, hhost, hostAct_clears (s := { s with host := rest }) ht h hc⟩
  · rw [hs] at ht
    cases ht
    exact absurd (engineRun_keeps_errSet h) (by simp [hc])

end Sys2Proof.Machine
end

section
/-! SUPPORT. A silent command of a ready block, run whole; the frame and its checksum; and the statements about the
chunk codec (41_chunk_codec.md R110 to R115). -/

namespace Sys2Proof.Machine

/-! ### A silent command of a ready block -/

/-- A command that R218 does not refuse runs its plan. -/
theorem exec_of_disjoint {i : Instr} {s : State} (ho : readsAndWrites i = true → regionsOverlap s.regs = false) :
    exec i s = runCommand (planOf i) s := by
  rw [exec_eq]
  split
  · rename_i hrw
    rw [runDisjoint, if_neg (by simp [ho hrw])]
  · rfl

/-- A command without a sound performs its whole plan, whatever the sink is. -/
theorem exec_performed {i : Instr} {s : State} (h : Ready s) (hi : makesSound i = false)
    (ho : readsAndWrites i = true → regionsOverlap s.regs = false) :
    exec i s = .next { completeCmd (perform (planOf i s) (startCmd s)) with todo := [] } := by
  rw [exec_of_disjoint ho, runCommand_performed h (.inr (pushFree_of_planned hi (planned_of_mem i s)))]

/-- A command that plans an error and nothing else raises it. -/
theorem exec_raised {i : Instr} {s : State} {e : ErrKind} (h : Ready s)
    (ho : readsAndWrites i = true → regionsOverlap s.regs = false) (hp : planOf i s = [.record e]) :
    exec i s = .next (failed e s) := by
  rw [exec_of_disjoint ho, runCommand_raised h hp]

/-! ### Frames -/

/-- A frame ends with the checksum of what stands before it (30_encoding.md R87). -/
@[simp] theorem frameCksum_frame (h p : List Byte) : frameCksum (frame h p) = checksum (h ++ p) := by
  simp [frameCksum, frame]

/-- A byte string folds to 0 with its own fold behind it. -/
theorem fold_append_fold (seed : Byte) (bs : List Byte) : fold seed (bs ++ [fold seed bs]) = 0 := by
  rw [fold_append]
  exact BitVec.xor_self

/-- Settles O34: the last byte of a frame is the fold of the others. -/
theorem frameFoldsToZero : Obligations.FrameFoldsToZero :=
  fun h p => ⟨⟨checksum (h ++ p), rfl⟩, fold_append_fold 0xFF (h ++ p)⟩

/-! ### CHUNK_LEN -/

/-- A length register's value and a constant, added in 32 bits. -/
theorem ofNat_add_toNat (k : Nat) (n : Word) : BitVec.ofNat 32 (k + n.toNat) = BitVec.ofNat 32 k + n := by
  rw [BitVec.ofNat_add, BitVec.ofNat_toNat, BitVec.setWidth_eq]

/-- The length of a chunk's payload as a register word (41_chunk_codec.md R112, R114). -/
theorem ofNat_chunkPayloadLength (n : Word) : BitVec.ofNat 32 (chunkPayloadLength n.toNat) = 8 + n + 1 := by
  rw [chunkPayloadLength, BitVec.ofNat_add, ofNat_add_toNat]
  rfl

/-- Settles O32: the plan of CHUNK_LEN is one write to RESULT. -/
theorem chunkLenResult : Obligations.ChunkLenResult := by
  intro s hr
  have hplan : planOf .chunkLen s = [.setResult (8 + s.regs.srcLen + 1)] := by
    rw [← ofNat_chunkPayloadLength]
    rfl
  rw [exec_performed hr rfl (by simp [readsAndWrites]), hplan]
  rfl

/-! ### FRAME_BLOCK -/

theorem planFrameBlock_of_lt {s : State} (h : s.regs.dstLen.toNat < 9 + s.regs.srcLen.toNat) :
    planFrameBlock s = [.record .allocFail] := if_pos h

/-- The plan of a frame that fits, with the length of the frame as a register word. -/
theorem planFrameBlock_of_le {s : State} (h : 9 + s.regs.srcLen.toNat ≤ s.regs.dstLen.toNat) :
    planFrameBlock s =
      loadOps s.mem s.regs.srcBase 0 s.regs.srcLen.toNat ++ storeOps s.regs.dstBase 0 (frameBlockBytes s) ++
        [.setOutLen (9 + s.regs.srcLen), .setResult (9 + s.regs.srcLen),
          .setCksum (frameCksum (frameBlockBytes s))] := by
  have hlen : BitVec.ofNat 32 (9 + s.regs.srcLen.toNat) = 9 + s.regs.srcLen := ofNat_add_toNat 9 _
  have hpay : chunkPayloadLength s.regs.srcLen.toNat = 9 + s.regs.srcLen.toNat := by
    rw [chunkPayloadLength]
    omega
  rw [planFrameBlock, if_neg (by omega), hpay, hlen]

/-- What a frame that fits comes to when its plan is performed: its bytes in the output region, and three registers. -/
theorem perform_planFrameBlock {s : State} (h : 9 + s.regs.srcLen.toNat ≤ s.regs.dstLen.toNat) (t : State) :
    perform (planFrameBlock s) t =
      { t with
        mem := writeBytes t.mem s.regs.dstBase 0 (frameBlockBytes s)
        res :=
          { t.res with
            outLen := 9 + s.regs.srcLen
            result := 9 + s.regs.srcLen
            cksum := frameCksum (frameBlockBytes s) } } := by
  rw [planFrameBlock_of_le h, perform_append, perform_append, perform_loadOps, perform_storeOps]
  rfl

/-- Settles O35: a frame that does not fit raises the error alone; one that fits lies inside the 2^32 addresses, so that
it reads back whole and touches no address but its own. -/
theorem frameBlockFramesThePayload : Obligations.FrameBlockFramesThePayload := by
  intro s hr ho hwf
  refine ⟨fun hshort => exec_raised hr (fun _ => ho) (planFrameBlock_of_lt hshort), fun hfits => ?_⟩
  have hlen := frameBlockBytes_length s
  have hspace : 9 + s.regs.srcLen.toNat ≤ 2 ^ 32 := hfits.trans s.regs.dstLen.isLt.le
  refine ⟨writeBytes s.mem s.regs.dstBase 0 (frameBlockBytes s), ?_, ?_, fun a ha => ?_⟩
  · rw [exec_performed hr rfl fun _ => ho, planOf, perform_planFrameBlock hfits, frameBlockBytes, frameCksum_frame]
    rfl
  · rw [← hlen, memRead_writeBytes hwf _ _ _ (by omega)]
    rfl
  · refine read_writeBytes_other _ _ _ _ fun i hi hai => ha ⟨i, hlen ▸ hi, ?_⟩
    rwa [Nat.zero_add] at hai

end Sys2Proof.Machine
end

section
/-! SUPPORT. The header record read byte by byte, the name in it and its way back through the reader, and the statements
about the block header (42_block_header.md R120 to R122, 43_container_reader.md R137). -/

namespace Sys2Proof.Machine

/-! ### The bytes of a header record -/

/-- Byte i of the name field, for a character or a pad byte (42_block_header.md R121). -/
theorem nameField_getElem? (r : Regs) {i : Nat} (hi : i < 6) :
    (nameField r)[i]? = some (if i < nameLen r then nameChar r i ||| 0x80 else Config.namePad) := by
  rw [nameField, Config.nameBytes, List.getElem?_map, List.getElem?_range hi, Option.map_some]

/-- The name field comes first in a header record. -/
theorem hdr_getElem?_name (r : Regs) (bc bi : Nat) {i : Nat} (hi : i < 6) : (hdr r bc bi)[i]? = (nameField r)[i]? :=
  List.getElem?_append_left (by rwa [nameField_length])

/-- The block count and the block index come behind the name field. -/
theorem hdr_getElem?_count_index (r : Regs) (bc bi i : Nat) :
    (hdr r bc bi)[6 + i]? = [BitVec.ofNat 8 bc, BitVec.ofNat 8 bi][i]? := by
  rw [hdr, List.getElem?_append_right (by simp), nameField_length, Nat.add_sub_cancel_left]

/-- A byte takes its number modulo 256. -/
theorem ofNat_mod_256 (n : Nat) : BitVec.ofNat 8 (n % 256) = BitVec.ofNat 8 n :=
  BitVec.eq_of_toNat_eq (Nat.mod_mod n 256)

/-- Settles O33: six bytes of name, then the count and the index, a byte each. -/
theorem headerRecordBytes : Obligations.HeaderRecordBytes := by
  intro r bc bi
  refine ⟨hdr_length r bc bi, fun i hi => ?_, ?_, ?_⟩
  · rw [hdr_getElem?_name r bc bi hi, nameField_getElem? r hi]
    rfl
  · rw [hdr_getElem?_count_index r bc bi 0, ofNat_mod_256]
    rfl
  · rw [hdr_getElem?_count_index r bc bi 1, ofNat_mod_256]
    rfl

/-! ### BUILD_HEADER -/

theorem planBuildHeader_of_lt {s : State} (h : s.regs.dstLen.toNat < 8) : planBuildHeader s = [.record .allocFail] :=
  if_pos h

/-- What a header that fits comes to when its plan is performed: its bytes in the output region, and OUT_LEN. -/
theorem perform_planBuildHeader {s : State} (h : 8 ≤ s.regs.dstLen.toNat) (t : State) :
    perform (planBuildHeader s) t =
      { t with
        mem := writeBytes t.mem s.regs.dstBase 0 (hdr s.regs (blkCount s.regs) (blkIndex s.regs))
        res := { t.res with outLen := 8 } } := by
  rw [planBuildHeader, if_neg (by omega), perform_append, perform_storeOps]
  rfl

/-- Settles O36: a region too short raises the error alone; otherwise the record reads back whole at DST_BASE and no
other address is touched. -/
theorem buildHeaderWritesTheRecord : Obligations.BuildHeaderWritesTheRecord := by
  intro s hr hwf
  have hone : readsAndWrites .buildHeader = true → regionsOverlap s.regs = false := by simp [readsAndWrites]
  refine ⟨fun hshort => exec_raised hr hone (planBuildHeader_of_lt hshort), fun hfits => ?_⟩
  have hlen := hdr_length s.regs (blkCount s.regs) (blkIndex s.regs)
  refine ⟨writeBytes s.mem s.regs.dstBase 0 (hdr s.regs (blkCount s.regs) (blkIndex s.regs)), ?_, ?_, fun a ha => ?_⟩
  · rw [exec_performed hr rfl hone, planOf, perform_planBuildHeader hfits]
    rfl
  · exact memRead_writeBytes hwf s.regs.dstBase 0 _ (by omega)
  · refine read_writeBytes_other _ _ _ _ fun i hi hai => ha ⟨i, hlen ▸ hi, ?_⟩
    rwa [Nat.zero_add] at hai

/-! ### The name, written and read back -/

/-- Stripping bit 7 undoes setting it, for a 7-bit character. -/
theorem strip_setBit7 {c : Byte} (h : c < 0x80) : (c ||| 0x80) &&& 0x7F = c := by
  have hlow : c &&& 0x7F = c := by
    apply BitVec.eq_of_toNat_eq
    rw [BitVec.toNat_and]
    exact (Nat.and_two_pow_sub_one_eq_mod c.toNat 7).trans (Nat.mod_eq_of_lt h)
  rw [BitVec.and_comm, BitVec.and_or_distrib_left, BitVec.and_comm, hlow]
  exact BitVec.or_zero

/-- The stripped name field: the characters, then spaces, which are the stripped pad bytes. -/
theorem decodedName_nameField {r : Regs} (h : ∀ i, i < nameLen r → nameChar r i < 0x80) :
    decodedName (nameField r) = (List.range 6).map fun i => if i < nameLen r then nameChar r i else 0x20 := by
  rw [decodedName, nameField, List.map_map]
  refine List.map_congr_left fun i _ => ?_
  by_cases hi : i < nameLen r
  · simp only [Function.comp_apply, if_pos hi, strip_setBit7 (h i hi)]
  · simp only [Function.comp_apply, if_neg hi]
    rfl

/-- A list that is f below n and c for the k places from there on. -/
theorem map_range_ite {α : Type} (f : Nat → α) (c : α) (n k : Nat) :
    ((List.range (n + k)).map fun i => if i < n then f i else c) = (List.range n).map f ++ List.replicate k c := by
  rw [List.range_add, List.map_append, List.map_map]
  congr 1
  · exact List.map_congr_left fun i hi => if_pos (List.mem_range.1 hi)
  · refine List.eq_replicate_iff.2 ⟨by simp, fun b hb => ?_⟩
    obtain ⟨i, -, rfl⟩ := List.mem_map.1 hb
    exact if_neg (Nat.not_lt.2 (Nat.le_add_right n i))

/-- A string that ends with k times c, and has no c right before them, has those k trailing c's. -/
theorem takeWhile_reverse_append_replicate {xs : List Byte} {c : Byte} (h : xs.getLast? ≠ some c) (k : Nat) :
    ((xs ++ List.replicate k c).reverse.takeWhile fun b => b == c) = List.replicate k c := by
  have hxs : (xs.reverse.takeWhile fun b => b == c) = [] := by
    rw [← List.head?_reverse] at h
    cases hr : xs.reverse with
    | nil => rfl
    | cons x ys =>
      rw [hr, List.head?_cons, ne_eq, Option.some_inj] at h
      exact List.takeWhile_cons_of_neg (by simpa using h)
  rw [List.reverse_append, List.reverse_replicate, List.takeWhile_append_of_pos, hxs, List.append_nil]
  intro b hb
  simp [List.eq_of_mem_replicate hb]

theorem nameLen_le (r : Regs) : nameLen r ≤ 6 := Nat.min_le_right _ _

/-- The length of a name that does not end in a space is found again (43_container_reader.md R137): the spaces at the
end of the stripped field are its pad bytes, and there are 6 minus the length of them. -/
theorem decodedNameLen_nameField {r : Regs} (h7 : ∀ i, i < nameLen r → nameChar r i < 0x80)
    (hlast : 0 < nameLen r → nameChar r (nameLen r - 1) ≠ 0x20) : decodedNameLen (nameField r) = nameLen r := by
  have hle := nameLen_le r
  have hfield : decodedName (nameField r) =
      (List.range (nameLen r)).map (nameChar r) ++ List.replicate (6 - nameLen r) 0x20 := by
    rw [← map_range_ite, Nat.add_sub_cancel' hle, decodedName_nameField h7]
  have hend : ((List.range (nameLen r)).map (nameChar r)).getLast? ≠ some 0x20 := by
    rw [List.getLast?_map, List.getLast?_range]
    split
    · simp
    · simpa using hlast (by omega)
  rw [decodedNameLen, hfield, takeWhile_reverse_append_replicate hend, List.length_replicate]
  exact Nat.sub_sub_self hle

/-- Settles O44: bit 7 is stripped as it was set, and the pad bytes, which strip to spaces, are counted off. -/
theorem nameSurvivesTheHeader : Obligations.NameSurvivesTheHeader :=
  fun _ h7 hlast => ⟨decodedName_nameField h7, decodedNameLen_nameField h7 hlast⟩

end Sys2Proof.Machine
end

section
/-! SUPPORT. One chunk, at any place of the scan: what its header says, the error it raises and what it does, each where
the checks before it pass, and the two statements about it (43_container_reader.md R132 to R139). -/

namespace Sys2Proof.Machine

/-! ### Bytes read in order -/

/-- A read of n + k bytes is a read of n bytes and one of the k bytes behind them. -/
theorem memRead_add (m : Memory) (base : Word) (off n k : Nat) :
    memRead m base off (n + k) = memRead m base off n ++ memRead m base (off + n) k := by
  simp [memRead, List.range_add, Nat.add_assoc]

/-- A part of a read is a read of that part. -/
theorem take_drop_memRead (m : Memory) (base : Word) (off : Nat) {k n len : Nat} (h : k + n ≤ len) :
    ((memRead m base off len).drop k).take n = memRead m base (off + k) n := by
  obtain ⟨rest, rfl⟩ := Nat.exists_eq_add_of_le h
  rw [Nat.add_assoc, memRead_add, memRead_add, List.drop_left' (memRead_length ..), List.take_left' (memRead_length ..)]

/-- A byte that is there is found the same with a default value and without. -/
theorem getD_eq_iff_getElem? {bs : List Byte} {i : Nat} (hi : i < bs.length) (b d : Byte) :
    bs.getD i d = b ↔ bs[i]? = some b := by
  simp [List.getD_eq_getElem?_getD, List.getElem?_eq_getElem hi]

/-! ### A block 0 (43_container_reader.md R136 to R138) -/

/-- The initial address in the body of a block 0 (30_encoding.md R85). -/
def bodyInit (body : List Byte) : Nat := le16Value (body.getD 8 0) (body.getD 9 0)

/-- The end address in the body of a block 0 (30_encoding.md R85). -/
def bodyLast (body : List Byte) : Nat := le16Value (body.getD 10 0) (body.getD 11 0)

/-- The scanner behind a block 0 of a binary of `size` bytes, at offset `next`. -/
def openedScan (c : Scan) (size next : Nat) : Scan :=
  ⟨next, c.dptr + 20 + size, c.nbin + 1, some ⟨c.dptr, size, 0⟩⟩

/-- The record a block 0 opens for a binary of `size` bytes. -/
def bodyRecord (body : List Byte) (size : Nat) : List Byte :=
  newRecord (body.take 6) (body.getD 6 0) (bodyInit body) (bodyLast body) size

section
variable {r : Regs} {body : List Byte} {c : Scan}

theorem openBinary_of_last_lt (h : bodyLast body < bodyInit body) : openBinary r body c = .stop .invalidBinary := by
  simp only [openBinary]
  rw [← bodyInit, ← bodyLast, rangeSize, if_pos h]

/-- The addresses of a block 0 in order: what is left to check is the room for its record. -/
theorem openBinary_of_init_le (h : bodyInit body ≤ bodyLast body) {size : Nat}
    (hsize : size = bodyLast body - bodyInit body + 1) :
    openBinary r body c =
      if r.dstLen.toNat - c.dptr < 20 + size then .stop .allocFail
      else
        .go
          (storeOps r.dstBase c.dptr (bodyRecord body size) ++
            [.scan (openedScan c size c.off), .setNbin (BitVec.ofNat 32 (c.nbin + 1)),
              .setOutLen (BitVec.ofNat 32 (c.dptr + 20 + size))])
          (openedScan c size c.off) := by
  simp only [openBinary]
  rw [← bodyInit, ← bodyLast, rangeSize, if_neg (Nat.not_lt.2 h), hsize]
  rfl

theorem openBinary_of_no_room (h : bodyInit body ≤ bodyLast body)
    (hroom : r.dstLen.toNat < c.dptr + 20 + (bodyLast body - bodyInit body + 1)) :
    openBinary r body c = .stop .allocFail := by
  rw [openBinary_of_init_le h rfl, if_pos (by omega)]

/-! ### A block with a nonzero index (43_container_reader.md R139) -/

/-- The scanner behind n more bytes for the open record o, at offset `next`. -/
def appendedScan (c : Scan) (o : OpenRec) (n next : Nat) : Scan :=
  { c with off := next, opn := some { o with wr := o.wr + n } }

theorem appendBlock_of_orphan (h : c.opn = none) : appendBlock r body c = .stop .malformedChunk := by
  simp only [appendBlock, h]

/-- With a record open, what is left to check is its size. -/
theorem appendBlock_of_open {o : OpenRec} (h : c.opn = some o) :
    appendBlock r body c =
      if o.size < o.wr + (body.length - 9) then .stop .malformedChunk
      else
        .go
          (storeOps r.dstBase (o.pos + 20 + o.wr) ((body.drop 8).take (body.length - 9)) ++
            [.scan (appendedScan c o (body.length - 9) c.off)] ++
            storeOps r.dstBase (o.pos + 16) (le32 (o.wr + (body.length - 9))))
          (appendedScan c o (body.length - 9) c.off) := by
  simp only [appendBlock, h]
  rfl

/-! ### A DATA chunk (43_container_reader.md R134, R135) -/

/-- The checksum of a body is not checked, or is right (43_container_reader.md R135). -/
def CksumPasses (r : Regs) (body : List Byte) : Prop := r.ctrl.getLsbD 0 = true → fold 0xFF body = 0

theorem dataChunk_of_short (h : body.length < 9) : dataChunk r body c = .stop .malformedChunk := if_pos h

theorem dataChunk_of_mismatch (h : 9 ≤ body.length) (hverify : r.ctrl.getLsbD 0 = true) (hfold : fold 0xFF body ≠ 0) :
    dataChunk r body c = .stop .checksumMismatch := by
  rw [dataChunk, if_neg (Nat.not_lt.2 h), if_pos (by simp_all [verifyCksum, checksum, Config.cksumSeed])]

/-- The check of the checksum, passed. -/
theorem CksumPasses.not_mismatch (hpass : CksumPasses r body) :
    ¬ (verifyCksum r && checksum body != 0) = true := by
  simpa [verifyCksum, checksum, Config.cksumSeed, CksumPasses] using hpass

/-- A body with block index 0 that passes its first checks opens a binary, if its length is right. -/
theorem dataChunk_of_index_zero (h : 9 ≤ body.length) (hpass : CksumPasses r body) (hindex : body[7]? = some 0) :
    dataChunk r body c = if body.length ≠ 13 then .stop .malformedChunk else openBinary r body c := by
  rw [dataChunk, if_neg (Nat.not_lt.2 h), if_neg hpass.not_mismatch,
    if_pos ((getD_eq_iff_getElem? (by omega) 0 0).2 hindex)]

theorem dataChunk_of_header (h : body.length = 13) (hpass : CksumPasses r body) (hindex : body[7]? = some 0) :
    dataChunk r body c = openBinary r body c := by
  rw [dataChunk_of_index_zero (by omega) hpass hindex, if_neg (not_not.2 h)]

/-- A body with another block index that passes its first checks is a continuation. -/
theorem dataChunk_of_continuation (h : 9 ≤ body.length) (hpass : CksumPasses r body) (hindex : body[7]? ≠ some 0) :
    dataChunk r body c = appendBlock r body c := by
  rw [dataChunk, if_neg (Nat.not_lt.2 h), if_neg hpass.not_mismatch,
    if_neg (mt (getD_eq_iff_getElem? (by omega) 0 0).1 hindex)]

end

/-! ### The chunk at the scan offset (43_container_reader.md R132, R133) -/

/-- The tag of the chunk at the scan offset. -/
def chunkTag (s : State) (c : Scan) : List Byte := memRead s.mem s.regs.srcBase c.off 2

/-- The length field of the chunk at the scan offset. -/
def chunkSize (s : State) (c : Scan) : Nat :=
  le16Value (Memory.read s.mem (effAddr s.regs.srcBase (c.off + 2)))
    (Memory.read s.mem (effAddr s.regs.srcBase (c.off + 3)))

/-- The body of the chunk at the scan offset. -/
def chunkBody (s : State) (c : Scan) : List Byte := memRead s.mem s.regs.srcBase (c.off + 4) (chunkSize s c)

@[simp] theorem chunkBody_length (s : State) (c : Scan) : (chunkBody s c).length = chunkSize s c := memRead_length ..

section
variable {s : State} {c : Scan}

theorem scanChunk_of_short_header (h : s.regs.srcLen.toNat - c.off < 4) : scanChunk s c = .stop .truncated := if_pos h

theorem scanChunk_of_short_body (h : s.regs.srcLen.toNat - c.off < 4 + chunkSize s c) :
    scanChunk s c = .stop .truncated := by
  by_cases hheader : s.regs.srcLen.toNat - c.off < 4
  · exact scanChunk_of_short_header hheader
  · simp only [scanChunk, if_neg hheader]
    exact if_pos (Nat.sub_lt_left_of_lt_add (Nat.not_lt.1 hheader) h)

/-- A whole chunk is taken by its tag. -/
theorem scanChunk_of_whole (h : 4 + chunkSize s c ≤ s.regs.srcLen.toNat - c.off) :
    scanChunk s c =
      advance (c.off + 4 + chunkSize s c)
        (if chunkTag s c = tagBytes s.params.tagData then dataChunk s.regs (chunkBody s c) c
        else if chunkTag s c = tagBytes s.params.tagMarker then .go [] c
        else if strictTags s.regs then .stop .unknownTag
        else .go [] c) := by
  simp only [scanChunk]
  rw [if_neg (by omega), ← chunkSize, if_neg (by omega)]
  rfl

theorem scanChunk_of_data (h : 4 + chunkSize s c ≤ s.regs.srcLen.toNat - c.off)
    (htag : chunkTag s c = tagBytes s.params.tagData) :
    scanChunk s c = advance (c.off + 4 + chunkSize s c) (dataChunk s.regs (chunkBody s c) c) := by
  rw [scanChunk_of_whole h, if_pos htag]

theorem scanChunk_of_data_stop (h : 4 + chunkSize s c ≤ s.regs.srcLen.toNat - c.off)
    (htag : chunkTag s c = tagBytes s.params.tagData) {e : ErrKind}
    (hstop : dataChunk s.regs (chunkBody s c) c = .stop e) : scanChunk s c = .stop e := by
  rw [scanChunk_of_data h htag, hstop]
  rfl

theorem scanChunk_of_data_go (h : 4 + chunkSize s c ≤ s.regs.srcLen.toNat - c.off)
    (htag : chunkTag s c = tagBytes s.params.tagData) {ops : List EngineOp} {c₁ : Scan}
    (hgo : dataChunk s.regs (chunkBody s c) c = .go ops c₁) :
    scanChunk s c =
      .go (ops ++ [.scan { c₁ with off := c.off + 4 + chunkSize s c }])
        { c₁ with off := c.off + 4 + chunkSize s c } := by
  rw [scanChunk_of_data h htag, hgo]
  rfl

theorem scanChunk_of_unknown (h : 4 + chunkSize s c ≤ s.regs.srcLen.toNat - c.off)
    (hdata : chunkTag s c ≠ tagBytes s.params.tagData) (hmarker : chunkTag s c ≠ tagBytes s.params.tagMarker)
    (hstrict : s.regs.ctrl.getLsbD 1 = true) : scanChunk s c = .stop .unknownTag := by
  rw [scanChunk_of_whole h, if_neg hdata, if_neg hmarker, strictTags, if_pos hstrict]
  rfl

theorem scanChunk_of_skipped (h : 4 + chunkSize s c ≤ s.regs.srcLen.toNat - c.off)
    (hdata : chunkTag s c ≠ tagBytes s.params.tagData)
    (hskip : chunkTag s c = tagBytes s.params.tagMarker ∨ s.regs.ctrl.getLsbD 1 = false) :
    scanChunk s c =
      .go [.scan { c with off := c.off + 4 + chunkSize s c }] { c with off := c.off + 4 + chunkSize s c } := by
  rw [scanChunk_of_whole h, if_neg hdata]
  by_cases hmarker : chunkTag s c = tagBytes s.params.tagMarker
  · rw [if_pos hmarker]
    rfl
  · rw [if_neg hmarker, strictTags, hskip.resolve_left hmarker]
    rfl

end

/-- Settles O59: the tag, the length and the body are those of `chunkTag`, `chunkSize` and `chunkBody`, and each error
is that of the first check that does not pass. -/
theorem chunkErrors : Obligations.ChunkErrors := by
  intro s c _
  refine ⟨scanChunk_of_short_header, fun _ => scanChunk_of_short_body, fun hwhole htag => ?_, scanChunk_of_unknown⟩
  have hlen : (chunkBody s c).length = chunkSize s c := chunkBody_length s c
  have hstop {e : ErrKind} : dataChunk s.regs (chunkBody s c) c = .stop e → scanChunk s c = .stop e :=
    scanChunk_of_data_stop hwhole htag
  refine ⟨fun h9 => hstop (dataChunk_of_short (hlen.trans_lt h9)),
    fun h9 hverify hfold => hstop (dataChunk_of_mismatch (h9.trans_eq hlen.symm) hverify hfold),
    fun h9 hpass hindex h13 => hstop ?_, fun h13 hpass hindex hlt => hstop ?_,
    fun h13 hpass hindex hle hroom => hstop ?_, fun h9 hpass hindex hopn => hstop ?_,
    fun o h9 hpass hindex hopn hover => hstop ?_⟩
  · exact (dataChunk_of_index_zero (h9.trans_eq hlen.symm) hpass hindex).trans (if_pos (hlen.trans_ne h13))
  · exact (dataChunk_of_header (hlen.trans h13) hpass hindex).trans (openBinary_of_last_lt hlt)
  · exact (dataChunk_of_header (hlen.trans h13) hpass hindex).trans (openBinary_of_no_room hle hroom)
  · exact (dataChunk_of_continuation (h9.trans_eq hlen.symm) hpass hindex).trans (appendBlock_of_orphan hopn)
  · refine (dataChunk_of_continuation (h9.trans_eq hlen.symm) hpass hindex).trans
      ((appendBlock_of_open hopn).trans (if_pos ?_))
    rwa [hlen]

/-! ### What a chunk does -/

/-- The chunk at the scan offset raises nothing, takes every state t to f t, and leaves the scanner c'. -/
def ChunkDoes (s : State) (c : Scan) (f : State → State) (c' : Scan) : Prop :=
  ∃ ops, scanChunk s c = .go ops c' ∧ ∀ t, runOps none ops t = f t

/-- The state behind a skipped chunk. -/
def skipChunk (c' : Scan) (t : State) : State := { t with scan := c', todo := [] }

/-- The state behind a block 0 whose record starts at `pos`. -/
def writeRecord (base : Word) (pos : Nat) (rec : List Byte) (c' : Scan) (t : State) : State :=
  { t with
    mem := writeBytes t.mem base pos rec
    scan := c'
    todo := []
    res := { t.res with outLen := BitVec.ofNat 32 c'.dptr, nbin := BitVec.ofNat 32 c'.nbin } }

/-- Memory behind a continuation of the open record o with payload bs: the payload, then the received field. -/
def appendMem (m : Memory) (base : Word) (o : OpenRec) (bs : List Byte) : Memory :=
  writeBytes (writeBytes m base (o.pos + 20 + o.wr) bs) base (o.pos + 16) (le32 (o.wr + bs.length))

/-- The state behind such a continuation. -/
def appendPayload (base : Word) (o : OpenRec) (bs : List Byte) (c' : Scan) (t : State) : State :=
  { t with mem := appendMem t.mem base o bs, scan := c', todo := [] }

/-- Such a chunk takes a decode one chunk further. -/
theorem ChunkDoes.scanTo {s : State} {c c' : Scan} {f : State → State} {t : State} (h : ChunkDoes s c f c')
    (hscan : ScanTo s c t) (hoff : c.off < s.regs.srcLen.toNat) : ScanTo s c' (f t) := by
  obtain ⟨ops, hgo, hrun⟩ := h
  exact hrun t ▸ hscan.chunk hoff hgo

section
variable {s : State} {c : Scan}

/-- A chunk that is not a DATA chunk, and that CTRL lets pass, is skipped (43_container_reader.md R133). -/
theorem chunkDoes_skip (h : 4 + chunkSize s c ≤ s.regs.srcLen.toNat - c.off)
    (hdata : chunkTag s c ≠ tagBytes s.params.tagData)
    (hskip : chunkTag s c = tagBytes s.params.tagMarker ∨ s.regs.ctrl.getLsbD 1 = false) :
    ChunkDoes s c (skipChunk { c with off := c.off + 4 + chunkSize s c }) { c with off := c.off + 4 + chunkSize s c } :=
  ⟨_, scanChunk_of_skipped h hdata hskip, fun _ => rfl⟩

/-- A block 0 with room for its record writes it and opens its binary (43_container_reader.md R136, R138). -/
theorem chunkDoes_open (h : 4 + chunkSize s c ≤ s.regs.srcLen.toNat - c.off)
    (htag : chunkTag s c = tagBytes s.params.tagData) (hpass : CksumPasses s.regs (chunkBody s c))
    (h13 : chunkSize s c = 13) (hindex : (chunkBody s c)[7]? = some 0)
    (hle : bodyInit (chunkBody s c) ≤ bodyLast (chunkBody s c)) {size : Nat}
    (hsize : size = bodyLast (chunkBody s c) - bodyInit (chunkBody s c) + 1)
    (hroom : c.dptr + 20 + size ≤ s.regs.dstLen.toNat) :
    ChunkDoes s c
      (writeRecord s.regs.dstBase c.dptr (bodyRecord (chunkBody s c) size) (openedScan c size (c.off + 17)))
      (openedScan c size (c.off + 17)) := by
  have hgo := (dataChunk_of_header ((chunkBody_length s c).trans h13) hpass hindex).trans
    ((openBinary_of_init_le (r := s.regs) (c := c) hle hsize).trans (if_neg (by omega)))
  refine ⟨_, (scanChunk_of_data_go h htag hgo).trans (by rw [h13]; rfl), fun t => ?_⟩
  rw [runOps_pushFree (pushFree_append (pushFree_append (pushFree_storeOps _ _ _) (by simp [pushFree]))
    (by simp [pushFree])), perform_append, perform_append, perform_storeOps]
  rfl

/-- A continuation that fits in the open record appends its payload and counts it (43_container_reader.md R139). -/
theorem chunkDoes_append (h : 4 + chunkSize s c ≤ s.regs.srcLen.toNat - c.off)
    (htag : chunkTag s c = tagBytes s.params.tagData) (hpass : CksumPasses s.regs (chunkBody s c))
    (h9 : 9 ≤ chunkSize s c) (hindex : (chunkBody s c)[7]? ≠ some 0) {o : OpenRec} (hopn : c.opn = some o)
    {bs : List Byte} (hbs : bs = ((chunkBody s c).drop 8).take (chunkSize s c - 9))
    (hfits : o.wr + (chunkSize s c - 9) ≤ o.size) :
    ChunkDoes s c (appendPayload s.regs.dstBase o bs (appendedScan c o bs.length (c.off + 4 + chunkSize s c)))
      (appendedScan c o bs.length (c.off + 4 + chunkSize s c)) := by
  have hlen : bs.length = chunkSize s c - 9 := by
    rw [hbs, List.length_take, List.length_drop, chunkBody_length]
    omega
  have hgo := (dataChunk_of_continuation (h9.trans_eq (chunkBody_length s c).symm) hpass hindex).trans
    ((appendBlock_of_open (r := s.regs) hopn).trans (if_neg (by rw [chunkBody_length]; omega)))
  rw [chunkBody_length, ← hbs, ← hlen] at hgo
  refine ⟨_, scanChunk_of_data_go h htag hgo, fun t => ?_⟩
  rw [runOps_pushFree (pushFree_append (pushFree_append (pushFree_append (pushFree_storeOps _ _ _) (by simp [pushFree]))
    (pushFree_storeOps _ _ _)) (by simp [pushFree])), perform_append, perform_append, perform_append, perform_storeOps,
    perform_storeOps]
  rfl

end

/-! ### What a chunk leaves in memory -/

/-- The two bytes of a little-endian number come back. -/
theorem le16_le16Value (lo hi : Byte) : le16 (le16Value lo hi) = [lo, hi] := by
  have hlo := lo.isLt
  have hhi : (lo.toNat + 256 * hi.toNat) / 256 = hi.toNat := by omega
  rw [le16, le16Value, hhi, BitVec.ofNat_toNat, BitVec.setWidth_eq]
  congr 1
  exact BitVec.eq_of_toNat_eq (by rw [BitVec.toNat_ofNat]; omega)

/-- A number of 16 bits comes back from its two bytes. -/
theorem le16Value_ofNat {v : Nat} (h : v < 65536) :
    le16Value (BitVec.ofNat 8 v) (BitVec.ofNat 8 (v / 256)) = v := by
  simp only [le16Value, BitVec.toNat_ofNat]
  omega

/-- The two addresses in the body of a block 0 are four of its bytes. -/
theorem le16_bodyInit_bodyLast {body : List Byte} (h : body.length = 13) :
    le16 (bodyInit body) ++ le16 (bodyLast body) = (body.drop 8).take 4 := by
  rw [bodyInit, bodyLast, le16_le16Value, le16_le16Value]
  match body, h with
  | [_, _, _, _, _, _, _, _, _, _, _, _, _], _ => rfl

/-- The record of a block 0, field by field (30_encoding.md R86). -/
theorem bodyRecord_eq {body : List Byte} (h : body.length = 13) (size : Nat) :
    bodyRecord body size =
      (body.take 6).map (fun b => b &&& 0x7F) ++ [BitVec.ofNat 8 (decodedNameLen (body.take 6))] ++
        [body.getD 6 0] ++ (body.drop 8).take 4 ++ le32 size ++ [0, 0, 0, 0] ++ List.replicate size 0 := by
  have hzero : le32 0 = [0, 0, 0, 0] := rfl
  simp only [bodyRecord, newRecord, decodedName, ← le16_bodyInit_bodyLast h, hzero, List.append_assoc,
    List.cons_append, List.nil_append]

theorem bodyRecord_length {body : List Byte} (h : body.length = 13) (size : Nat) :
    (bodyRecord body size).length = 20 + size := newRecord_length (by simp [h]) ..

/-- The record of a block 0 is in memory when it has been written. -/
theorem memRead_bodyRecord {m : Memory} (hm : Memory.wf m) (base : Word) {body : List Byte} (h : body.length = 13)
    {pos size : Nat} (hroom : pos + 20 + size ≤ 2 ^ 32) :
    memRead (writeBytes m base pos (bodyRecord body size)) base pos (20 + size) = bodyRecord body size := by
  have hlen := bodyRecord_length h size
  have := memRead_writeBytes hm base pos (bodyRecord body size) (by omega)
  rwa [hlen] at this

section
variable {m : Memory} {base : Word} {o : OpenRec} {bs : List Byte}

theorem appendMem_wf (hm : Memory.wf m) : Memory.wf (appendMem m base o bs) :=
  writeBytes_wf (writeBytes_wf hm _ _ _) _ _ _

/-- The received field behind a continuation. -/
theorem memRead_appendMem_received (hm : Memory.wf m) (hroom : o.pos + 20 ≤ 2 ^ 32) :
    memRead (appendMem m base o bs) base (o.pos + 16) 4 = le32 (o.wr + bs.length) :=
  memRead_writeBytes (writeBytes_wf hm _ _ _) base (o.pos + 16) (le32 _) hroom

/-- The payload behind a continuation. -/
theorem memRead_appendMem_payload (hm : Memory.wf m) (hroom : o.pos + 20 + o.wr + bs.length ≤ 2 ^ 32) :
    memRead (appendMem m base o bs) base (o.pos + 20 + o.wr) bs.length = bs := by
  rw [appendMem, memRead_writeBytes_other _ _ (.inr (by rw [le32_length]; omega)) (by rw [le32_length]; omega) hroom,
    memRead_writeBytes hm _ _ _ hroom]

/-- A continuation leaves the bytes in front of the received field alone, and those between it and the payload. -/
theorem memRead_appendMem_other {x n : Nat}
    (hroom : o.pos + 20 + o.wr + bs.length ≤ 2 ^ 32)
    (hapart : x + n ≤ o.pos + 16 ∨ o.pos + 20 ≤ x ∧ x + n ≤ o.pos + 20 + o.wr) :
    memRead (appendMem m base o bs) base x n = memRead m base x n := by
  rw [appendMem, memRead_writeBytes_other _ _ (by rw [le32_length]; omega) (by rw [le32_length]; omega) (by omega),
    memRead_writeBytes_other _ _ (by omega) hroom (by omega)]

/-- A continuation changes the bytes of its payload and of the received field only. -/
theorem read_appendMem_other {a : Nat} (hpay : ¬ ∃ i < bs.length, a = effAddr base (o.pos + 20 + o.wr + i))
    (hrec : ¬ ∃ i < 4, a = effAddr base (o.pos + 16 + i)) :
    Memory.read (appendMem m base o bs) a = Memory.read m a := by
  rw [appendMem, read_writeBytes_other _ _ _ (le32 _) fun i hi ha => hrec ⟨i, hi, ha⟩,
    read_writeBytes_other _ _ _ _ fun i hi ha => hpay ⟨i, hi, ha⟩]

end

/-- Settles O60: each chunk that raises nothing is one of the three of `ChunkDoes`, and the laws of memory say what its
stores leave. -/
theorem chunkEffects : Obligations.ChunkEffects := by
  intro s c _ tag len body base init last size n hwhole
  have hdst := s.regs.dstLen.isLt
  refine ⟨chunkDoes_skip hwhole, fun htag hpass => ⟨fun h13 hindex hle hroom => ?_,
    fun o h9 hindex hopn hfits hroom => ?_⟩⟩
  · have hbody : body.length = 13 := (chunkBody_length s c).trans h13
    obtain ⟨ops, hgo, hrun⟩ := chunkDoes_open hwhole htag hpass h13 hindex hle rfl hroom
    refine ⟨ops, hgo, fun t hwf => ⟨_, hrun t, ?_, fun a ha => read_writeBytes_other _ _ _ _ fun i hi heq =>
      ha ⟨i, bodyRecord_length hbody size ▸ hi, heq⟩⟩⟩
    exact (memRead_bodyRecord hwf base hbody (size := size) (by omega)).trans (bodyRecord_eq hbody size)
  · have hbs : (body.drop 8).take n = memRead s.mem s.regs.srcBase (c.off + 12) n :=
      take_drop_memRead _ _ _ (by omega)
    have hlen : (memRead s.mem s.regs.srcBase (c.off + 12) n).length = n := memRead_length ..
    obtain ⟨ops, hgo, hrun⟩ := chunkDoes_append hwhole htag hpass h9 hindex hopn hbs.symm hfits
    rw [hlen] at hgo hrun
    refine ⟨ops, hgo, fun t hwf => ⟨_, hrun t, ?_, ?_, fun a hpay hrec =>
      read_appendMem_other (by rwa [hlen]) hrec⟩⟩
    · have hpay := memRead_appendMem_payload (base := base) (o := o)
        (bs := memRead s.mem s.regs.srcBase (c.off + 12) n) hwf (by omega)
      rwa [hlen] at hpay
    · have hrec := memRead_appendMem_received (base := base) (o := o)
        (bs := memRead s.mem s.regs.srcBase (c.off + 12) n) hwf (by omega)
      rwa [hlen] at hrec

end Sys2Proof.Machine
end

section
/-! SUPPORT. A decode, run chunk by chunk: what it comes to after any whole chunks, that it always completes, and what
its first chunk decides (43_container_reader.md R130, R131, R140, R141). -/

namespace Sys2Proof.Machine

/-! ### The magic -/

theorem planDecodeContainer_of_short {s : State} (h : s.regs.srcLen.toNat < 4) :
    planDecodeContainer s = [.record .invalidMagic] := if_pos h

theorem planDecodeContainer_of_no_magic {s : State} (hlen : 4 ≤ s.regs.srcLen.toNat)
    (h : memRead s.mem s.regs.srcBase 0 4 ≠ magicBytes s.params.magic) :
    planDecodeContainer s = loadOps s.mem s.regs.srcBase 0 4 ++ [.record .invalidMagic] := by
  rw [planDecodeContainer, if_neg (Nat.not_lt.2 hlen), if_pos h]

theorem planDecodeContainer_of_magic {s : State} (hlen : 4 ≤ s.regs.srcLen.toNat)
    (h : memRead s.mem s.regs.srcBase 0 4 = magicBytes s.params.magic) :
    planDecodeContainer s =
      loadOps s.mem s.regs.srcBase 0 4 ++ ([.scan scanStart] ++ scanLoop s s.regs.srcLen.toNat scanStart) := by
  rw [planDecodeContainer, if_neg (Nat.not_lt.2 hlen), if_neg (not_not.2 h)]
  rfl

/-- An error after reads only is an error before any other effect. -/
theorem completeCmd_recordErr (e : ErrKind) (s : State) :
    { completeCmd (recordErr e (startCmd s)) with todo := [] } = failed e s := by
  simp [failed, finished, completeCmd, recordErr, startCmd]

/-- Settles O40: an input too short for the magic is not read, and one with other first bytes is read and
nothing else. -/
theorem decodeChecksTheMagic : Obligations.DecodeChecksTheMagic := by
  intro s hr ho h
  by_cases hlen : s.regs.srcLen.toNat < 4
  · exact exec_raised hr (fun _ => ho) (planDecodeContainer_of_short hlen)
  · rw [exec_performed hr rfl fun _ => ho, planOf,
      planDecodeContainer_of_no_magic (Nat.not_lt.1 hlen) (h.resolve_left hlen), perform_append, perform_loadOps]
    exact congrArg _ (completeCmd_recordErr _ s)

/-! ### The scan loop -/

/-- Steps that push nothing are performed before the rest of the run. -/
theorem runOps_append_of_pushFree {as : List EngineOp} (h : pushFree as) (bs : List EngineOp) (s : State) :
    runOps none (as ++ bs) s = runOps none bs (runOps none as s) := by
  induction as generalizing s with
  | nil => exact (runOps_todo none bs s []).symm
  | cons op as ih =>
    have ha : applyOp op s = some (performOp s op) := applyOp_eq_performOp (.inr (h op (by simp)))
    rw [List.cons_append, runOps_cons ha, runOps_cons ha, ih fun o ho => h o (by simp [ho])]

/-- The reads of a chunk leave the rest of the run as it is. -/
theorem runOps_chunkLoads (s : State) (c : Scan) (ops : List EngineOp) (t : State) :
    runOps none (chunkLoads s c ++ ops) t = runOps none ops t := by
  rw [runOps_append_of_pushFree (pushFree_chunkLoads s c), runOps_pushFree (pushFree_chunkLoads s c),
    perform_chunkLoads, runOps_todo]

/-- The scanner of a decode is sound after any whole chunks. -/
theorem scanTo_sound {s : State} {c : Scan} {t : State} (h : ScanTo s c t) : ScanSound s.regs c := by
  induction h with
  | start hlen _ => exact scanStart_sound hlen
  | chunk _ _ hgo ih => exact scanChunk_sound ih hgo

theorem pushFree_chunk {s : State} {c c' : Scan} {ops : List EngineOp} (hc : ScanSound s.regs c)
    (hgo : scanChunk s c = .go ops c') : pushFree ops :=
  pushFree_of_planned rfl (planned_chunk hc (scanChunk_go hgo))

theorem scanLoop_of_end {s : State} {c : Scan} (h : s.regs.srcLen.toNat ≤ c.off) :
    scanLoop s s.regs.srcLen.toNat c = [] := by
  rw [scanLoop_step (Nat.sub_le ..), if_neg (Nat.not_lt.2 h)]

theorem scanLoop_of_stop {s : State} {c : Scan} {e : ErrKind} (hoff : c.off < s.regs.srcLen.toNat)
    (h : scanChunk s c = .stop e) :
    scanLoop s s.regs.srcLen.toNat c = chunkLoads s c ++ [.record e] := by
  rw [scanLoop_step (Nat.sub_le ..), if_pos hoff, h]

theorem scanLoop_of_go {s : State} {c c' : Scan} {ops : List EngineOp} (hoff : c.off < s.regs.srcLen.toNat)
    (h : scanChunk s c = .go ops c') :
    scanLoop s s.regs.srcLen.toNat c = chunkLoads s c ++ (ops ++ scanLoop s s.regs.srcLen.toNat c') := by
  rw [scanLoop_step (Nat.sub_le ..), if_pos hoff, h]

/-- After any whole chunks, what is left of a decode is the scan loop from there on and the completion. -/
theorem exec_decodeContainer_of_scanTo {s : State} {c : Scan} {t : State} (hr : Ready s)
    (ho : regionsOverlap s.regs = false) (h : ScanTo s c t) :
    exec .decodeContainer s = .next (runOps none (scanLoop s s.regs.srcLen.toNat c ++ [.complete]) t) := by
  induction h with
  | start hlen hmagic =>
    rw [exec_of_disjoint fun _ => ho, runCommand_ready hr, planOf, planDecodeContainer_of_magic hlen hmagic,
      List.append_assoc, List.append_assoc, runOps_append_of_pushFree (pushFree_loadOps _ _ _ _),
      runOps_pushFree (pushFree_loadOps _ _ _ _), perform_loadOps, runOps_todo]
    exact congrArg _ (runOps_todo none _ { startCmd s with scan := scanStart } []).symm
  | chunk h hoff hgo ih =>
    rw [ih, scanLoop_of_go hoff hgo, List.append_assoc, runOps_chunkLoads, List.append_assoc,
      runOps_append_of_pushFree (pushFree_chunk (scanTo_sound h) hgo)]

/-- Settles O57: what is left is the completion, or the reads of the chunk, its error and the completion. -/
theorem decodeRunsChunkByChunk : Obligations.DecodeRunsChunkByChunk := by
  intro s c t hr ho h
  rw [exec_decodeContainer_of_scanTo hr ho h]
  refine ⟨fun hend => ?_, fun e hoff hstop => ?_⟩
  · rw [scanLoop_of_end hend]
    rfl
  · rw [scanLoop_of_stop hoff hstop, List.append_assoc, runOps_chunkLoads]
    rfl

/-! ### The errors of the reader -/

/-- The errors a chunk can raise (43_container_reader.md R132 to R139). -/
def chunkErrKinds : List ErrKind :=
  [.truncated, .allocFail, .checksumMismatch, .invalidBinary, .malformedChunk, .unknownTag]

theorem openBinary_stop {r : Regs} {body : List Byte} {c : Scan} {e : ErrKind} (h : openBinary r body c = .stop e) :
    e ∈ chunkErrKinds := by
  by_cases hlt : bodyLast body < bodyInit body
  · rw [openBinary_of_last_lt hlt] at h
    cases h
    decide
  · rw [openBinary_of_init_le (Nat.not_lt.1 hlt) rfl] at h
    split at h
    · cases h
      decide
    · simp at h

theorem appendBlock_stop {r : Regs} {body : List Byte} {c : Scan} {e : ErrKind} (h : appendBlock r body c = .stop e) :
    e ∈ chunkErrKinds := by
  cases hopn : c.opn with
  | none =>
    rw [appendBlock_of_orphan hopn] at h
    cases h
    decide
  | some o =>
    rw [appendBlock_of_open hopn] at h
    split at h
    · cases h
      decide
    · simp at h

theorem dataChunk_stop {r : Regs} {body : List Byte} {c : Scan} {e : ErrKind} (h : dataChunk r body c = .stop e) :
    e ∈ chunkErrKinds := by
  rw [dataChunk] at h
  split at h
  · cases h
    decide
  split at h
  · cases h
    decide
  split at h
  · split at h
    · cases h
      decide
    · exact openBinary_stop h
  · exact appendBlock_stop h

/-- A chunk raises one of six errors. -/
theorem scanChunk_stop_mem {s : State} {c : Scan} {e : ErrKind} (h : scanChunk s c = .stop e) : e ∈ chunkErrKinds := by
  by_cases hwhole : 4 + chunkSize s c ≤ s.regs.srcLen.toNat - c.off
  · by_cases hdata : chunkTag s c = tagBytes s.params.tagData
    · rw [scanChunk_of_data hwhole hdata] at h
      cases hres : dataChunk s.regs (chunkBody s c) c with
      | stop e' =>
        rw [hres] at h
        cases h
        exact dataChunk_stop hres
      | go ops c₁ => simp [hres, advance] at h
    · by_cases hskip : chunkTag s c = tagBytes s.params.tagMarker ∨ s.regs.ctrl.getLsbD 1 = false
      · simp [scanChunk_of_skipped hwhole hdata hskip] at h
      · obtain ⟨hmarker, hstrict⟩ := not_or.1 hskip
        rw [scanChunk_of_unknown hwhole hdata hmarker (by simpa using hstrict)] at h
        cases h
        decide
  · rw [scanChunk_of_short_body (Nat.not_le.1 hwhole)] at h
    cases h
    decide

/-! ### A decode always completes -/

/-- Every scan comes to the end of the input or to a chunk that raises an error, since every chunk moves it on. -/
theorem scanTo_ends {s : State} {c : Scan} {t : State} (h : ScanTo s c t) :
    ∃ c' t', ScanTo s c' t' ∧
      (s.regs.srcLen.toNat ≤ c'.off ∨ c'.off < s.regs.srcLen.toNat ∧ ∃ e, scanChunk s c' = .stop e) := by
  induction hn : s.regs.srcLen.toNat - c.off using Nat.strong_induction_on generalizing c t with
  | _ n ih =>
    by_cases hoff : c.off < s.regs.srcLen.toNat
    · cases hres : scanChunk s c with
      | stop e => exact ⟨c, t, h, .inr ⟨hoff, e, hres⟩⟩
      | go ops c' =>
        have := scanChunk_advances hres
        exact ih _ (by omega) (h.chunk hoff hres) rfl
    · exact ⟨c, t, h, .inl (Nat.not_lt.1 hoff)⟩

/-- What a chunk does to the memory and the counters of a decode, whatever the memory is. -/
theorem chunk_framed {s : State} {c c' : Scan} {ops : List EngineOp} (m : Memory) (hc : ScanSound s.regs c)
    (hgo : ChunkGo s.regs c ops c') :
    ∃ m', runOps none ops (scanned s c m) = scanned s c' m' ∧ c.dptr ≤ c'.dptr ∧
      c'.nbin + c.dptr ≤ c.nbin + c'.dptr ∧
      ∀ a, (¬ ∃ i < c'.dptr, a = effAddr s.regs.dstBase i) → Memory.read m' a = Memory.read m a := by
  rw [runOps_pushFree (pushFree_of_planned rfl (planned_chunk hc hgo))]
  cases hgo with
  | skip next => exact ⟨m, rfl, le_rfl, le_rfl, fun _ _ => rfl⟩
  | @opens c₁ raw bc init last size next hraw hroom hc₁ =>
    subst hc₁
    refine ⟨writeBytes m s.regs.dstBase c.dptr (newRecord raw bc init last size), by simp [perform_append, scanned],
      by dsimp only; omega, by dsimp only; omega, fun a ha => read_writeBytes_outside ?_ ha⟩
    rw [newRecord_length hraw, Nat.add_assoc]
  | @appends o bs c₁ next hopn hfits hc₁ =>
    subst hc₁
    obtain ⟨-, hlast⟩ := hc.openLast o hopn
    refine ⟨appendMem m s.regs.dstBase o bs, by simp [perform_append, scanned, appendMem], le_rfl, le_rfl,
      fun a ha => ?_⟩
    change ¬ ∃ i < c.dptr, a = _ at ha
    rw [appendMem, read_writeBytes_outside (by rw [le32_length]; omega) ha, read_writeBytes_outside (by omega) ha]

/-- The state of a decode after any whole chunks, whatever the memory is: only memory below the write offset, the
scanner and two result registers have changed, and there are no more records than bytes written. -/
theorem scanTo_framed {s : State} {c : Scan} {t : State} (h : ScanTo s c t) :
    ∃ m, t = scanned s c m ∧ c.nbin ≤ c.dptr ∧
      ∀ a, (¬ ∃ i < c.dptr, a = effAddr s.regs.dstBase i) → Memory.read m a = Memory.read s.mem a := by
  induction h with
  | start => exact ⟨s.mem, rfl, le_rfl, fun _ _ => rfl⟩
  | chunk h hoff hgo ih =>
    obtain ⟨m, rfl, hnbin, hm⟩ := ih
    obtain ⟨m', hrun, hdptr, hcount, hm'⟩ := chunk_framed m (scanTo_sound h) (scanChunk_go hgo)
    refine ⟨m', hrun, by omega, fun a ha => (hm' a ha).trans (hm a ?_)⟩
    rintro ⟨i, hi, heq⟩
    exact ha ⟨i, by omega, heq⟩

/-- The state of a completed decode whose scan has come to scanner c and memory m, with the given LAST_ERR. -/
def decoded (s : State) (c : Scan) (m : Memory) (bits : Word) : State :=
  { finished s with
    mem := m
    scan := c
    lastErr := bits
    err := s.err ||| bits
    res := { (finished s).res with outLen := BitVec.ofNat 32 c.dptr, nbin := BitVec.ofNat 32 c.nbin } }

theorem exec_decodeContainer_of_end {s : State} {c : Scan} {m : Memory} (hr : Ready s)
    (ho : regionsOverlap s.regs = false) (h : ScanTo s c (scanned s c m)) (hend : s.regs.srcLen.toNat ≤ c.off) :
    exec .decodeContainer s = .next (decoded s c m 0) := by
  have herr : s.err ||| 0 = s.err := BitVec.or_zero
  rw [(decodeRunsChunkByChunk s c _ hr ho h).1 hend, decoded, herr]
  rfl

theorem exec_decodeContainer_of_stop {s : State} {c : Scan} {m : Memory} {e : ErrKind} (hr : Ready s)
    (ho : regionsOverlap s.regs = false) (h : ScanTo s c (scanned s c m)) (hoff : c.off < s.regs.srcLen.toNat)
    (hstop : scanChunk s c = .stop e) : exec .decodeContainer s = .next (decoded s c m (errBit e)) := by
  have hlast : (scanned s c m).lastErr ||| errBit e = errBit e := BitVec.zero_or
  rw [(decodeRunsChunkByChunk s c _ hr ho h).2 e hoff hstop, hlast]
  rfl

/-- The bits an error of a chunk leaves in LAST_ERR (60_exceptions.md R190). -/
theorem errBit_of_mem_chunkErrKinds :
    ∀ e ∈ chunkErrKinds, errBit e ∈ ([0x002, 0x004, 0x020, 0x040, 0x080, 0x100] : List Word) := by decide

/-- Settles O41: without the magic the command raises its error alone; with it, the scan ends at the end of the input or
at an error, and `scanTo_framed` says what the chunks before have left. -/
theorem decodeContainerCompletes : Obligations.DecodeContainerCompletes := by
  intro s hr ho
  by_cases hmagic : s.regs.srcLen.toNat < 4 ∨ memRead s.mem s.regs.srcBase 0 4 ≠ magicBytes s.params.magic
  · exact ⟨_, decodeChecksTheMagic s hr ho hmagic, rfl, .tail _ (.head _), Nat.zero_le _, nofun, fun _ _ => rfl⟩
  obtain ⟨hlen, hmagic⟩ := not_or.1 hmagic
  obtain ⟨c, t, hscan, hend⟩ := scanTo_ends (.start (Nat.not_lt.1 hlen) (not_not.1 hmagic))
  obtain ⟨m, rfl, hnbin, hm⟩ := scanTo_framed hscan
  obtain ⟨bits, hexec, hbits, hzero⟩ : ∃ bits : Word, exec .decodeContainer s = .next (decoded s c m bits) ∧
      bits ∈ ([0x000, 0x001, 0x002, 0x004, 0x020, 0x040, 0x080, 0x100] : List Word) ∧
      (bits = 0 → s.regs.srcLen.toNat ≤ c.off) := by
    rcases hend with hend | ⟨hoff, e, hstop⟩
    · exact ⟨0, exec_decodeContainer_of_end hr ho hscan hend, by decide, fun _ => hend⟩
    · have hbit := errBit_of_mem_chunkErrKinds e (scanChunk_stop_mem hstop)
      refine ⟨errBit e, exec_decodeContainer_of_stop hr ho hscan hoff hstop, .tail _ (.tail _ hbit), fun h0 => ?_⟩
      rw [h0] at hbit
      exact absurd hbit (by decide)
  have hsound := scanTo_sound hscan
  have hdst := s.regs.dstLen.isLt
  have hdptr : (BitVec.ofNat 32 c.dptr).toNat = c.dptr :=
    Nat.mod_eq_of_lt (hsound.insideOutput.trans_lt hdst)
  have hcount : (BitVec.ofNat 32 c.nbin).toNat = c.nbin :=
    Nat.mod_eq_of_lt ((hnbin.trans hsound.insideOutput).trans_lt hdst)
  refine ⟨_, hexec, rfl, hbits, hdptr.trans_le hsound.insideOutput,
    fun h0 => ⟨le_antisymm hsound.insideInput (hzero h0), hdptr.symm, hcount.symm⟩, fun a ha => hm a ?_⟩
  rintro ⟨i, hi, heq⟩
  exact ha ⟨i, hi.trans_eq hdptr.symm, heq⟩

/-! ### The first chunk -/

/-- A first chunk that raises an error is all there is to the decode. -/
theorem exec_decodeContainer_of_first_stop {s : State} {e : ErrKind} (hr : Ready s)
    (ho : regionsOverlap s.regs = false) (hlen : 4 < s.regs.srcLen.toNat)
    (hmagic : memRead s.mem s.regs.srcBase 0 4 = magicBytes s.params.magic) (hstop : scanChunk s scanStart = .stop e) :
    ∃ c : Scan, exec .decodeContainer s = .next { failed e s with scan := c } :=
  ⟨scanStart, exec_decodeContainer_of_stop (m := s.mem) hr ho (.start hlen.le hmagic) hlen hstop⟩

/-- Settles O42: the errors of `chunkErrors`, for the scanner at offset 4 and no open binary. -/
theorem decodeFirstChunkErrors : Obligations.DecodeFirstChunkErrors := by
  intro s hr ho hlen hmagic n tag len body stops
  have hstop {e : ErrKind} : scanChunk s scanStart = .stop e → stops e :=
    exec_decodeContainer_of_first_stop hr ho hlen hmagic
  have hleft {k : Nat} (h : 8 + k ≤ n) : 4 + k ≤ n - 4 := by omega
  have hshort {k : Nat} (h : n < 8 + k) : n - 4 < 4 + k := by omega
  obtain ⟨hheader, hbody, hdata, hunknown⟩ := chunkErrors s scanStart hlen
  refine ⟨fun h => hstop (hheader (hshort (k := 0) h)), fun h h' => hstop (hbody (hleft (k := 0) h) (hshort h')),
    fun h htag => ?_, fun h htag => ?_, fun h htag => ?_, fun h htag => ?_, fun h htag h13 hpass hindex => ?_,
    fun _ h htag hmarker hstrict => hstop (hunknown (hleft h) htag hmarker hstrict)⟩
  · obtain ⟨hbelow, -⟩ := hdata (hleft h) htag
    exact fun h9 => hstop (hbelow h9)
  · obtain ⟨-, hcksum, -⟩ := hdata (hleft h) htag
    exact fun h9 hverify hfold => hstop (hcksum h9 hverify hfold)
  · obtain ⟨-, -, -, -, -, horphan, -⟩ := hdata (hleft h) htag
    exact fun h9 hpass hindex => hstop (horphan h9 hpass hindex rfl)
  · obtain ⟨-, -, hlength, -⟩ := hdata (hleft h) htag
    exact fun h9 hpass hindex h13 => hstop (hlength h9 hpass hindex h13)
  · have hfits : 8 + len ≤ n := by rwa [h13]
    obtain ⟨-, -, -, hrange, hroom, -⟩ := hdata (hleft hfits) htag
    exact ⟨fun hlt => hstop (hrange h13 hpass hindex hlt),
      fun hle hfull => hstop (hroom h13 hpass hindex hle hfull)⟩

/-- A chunk header says the tag and the length of its chunk (30_encoding.md R82). -/
theorem chunk_of_header {s : State} {c : Scan} {tag : Tag} {n : Nat} (hn : n < 65536)
    (h : memRead s.mem s.regs.srcBase c.off 4 = tagBytes tag ++ le16 n) :
    chunkTag s c = tagBytes tag ∧ chunkSize s c = n := by
  rw [memRead_add _ _ c.off 2 2] at h
  obtain ⟨htag, hlen⟩ := List.append_inj h (memRead_length ..)
  obtain ⟨hlo, hhi⟩ : Memory.read s.mem (effAddr s.regs.srcBase (c.off + 2)) = BitVec.ofNat 8 n ∧
      Memory.read s.mem (effAddr s.regs.srcBase (c.off + 3)) = BitVec.ofNat 8 (n / 256) := by
    simpa [memRead, le16, List.range_succ] using hlen
  refine ⟨htag, ?_⟩
  rw [chunkSize, hlo, hhi, le16Value_ofNat hn]

theorem openedScan_scanStart (size next : Nat) :
    openedScan scanStart size next = ⟨next, 20 + size, 1, some ⟨0, size, 0⟩⟩ := by
  simp [openedScan, scanStart]

/-- Settles O43: the header is that of a 13-byte DATA chunk, and what its block 0 comes to is said for any scanner. -/
theorem decodeOpensABinary : Obligations.DecodeOpensABinary := by
  intro s hr ho hwf hlen hhead body hpass hindex init last size
  rw [memRead_add _ _ 0 4 4, List.append_assoc] at hhead
  obtain ⟨hmagic, hheader⟩ := List.append_inj hhead (memRead_length ..)
  obtain ⟨htag, hsize⟩ := chunk_of_header (c := scanStart) (n := 13) (by decide) hheader
  have hbody : chunkBody s scanStart = body := congrArg (memRead s.mem s.regs.srcBase 8) hsize
  have hwhole : 4 + chunkSize s scanStart ≤ s.regs.srcLen.toNat - scanStart.off := by
    rw [hsize]
    exact Nat.le_sub_of_add_le hlen
  have h4 : 4 < s.regs.srcLen.toNat := Nat.lt_of_lt_of_le (by decide) hlen
  have h13 : body.length = 13 := memRead_length ..
  have hopen {c : Scan} : dataChunk s.regs body c = openBinary s.regs body c := dataChunk_of_header h13 hpass hindex
  have hstop {e : ErrKind} (h : openBinary s.regs body scanStart = .stop e) :
      ∃ c : Scan, exec .decodeContainer s = .next { failed e s with scan := c } :=
    exec_decodeContainer_of_first_stop hr ho h4 hmagic
      (scanChunk_of_data_stop hwhole htag (by rw [hbody, hopen, h]))
  refine ⟨fun hlt => hstop (openBinary_of_last_lt hlt), fun hle hfull => hstop (openBinary_of_no_room hle hfull),
    fun hle hroom => ?_⟩
  have hdoes := chunkDoes_open (size := size) hwhole htag (by rwa [hbody]) hsize (by rwa [hbody]) (by rwa [hbody])
    (by rw [hbody]; rfl) (by rwa [scanStart, Nat.zero_add])
  rw [hbody] at hdoes
  have hscan := hdoes.scanTo (.start h4.le hmagic) h4
  rw [openedScan_scanStart] at hscan
  have hfit : 20 + size ≤ 2 ^ 32 := hroom.trans s.regs.dstLen.isLt.le
  refine ⟨writeBytes s.mem s.regs.dstBase 0 (bodyRecord body size), ?_, fun h21 => ?_, ?_, fun a ha => ?_⟩
  · exact hscan
  · have hend : s.regs.srcLen.toNat ≤ 21 := by rw [h21]; decide
    have herr : s.err ||| 0 = s.err := BitVec.or_zero
    rw [exec_decodeContainer_of_end hr ho hscan hend, decoded, herr]
    rfl
  · exact (memRead_bodyRecord hwf _ h13 (by rwa [Nat.zero_add])).trans (bodyRecord_eq h13 size)
  · refine read_writeBytes_other _ _ _ _ fun i hi heq => ha ⟨i, bodyRecord_length h13 size ▸ hi, ?_⟩
    rwa [Nat.zero_add] at heq

end Sys2Proof.Machine
end

section
/-! SUPPORT. The container image, block by block, and its frames as the reader sees them (44_container_writer.md R151,
R154, 43_container_reader.md R134 to R139). -/

namespace Sys2Proof.Machine

/-! ### The image up to a block -/

/-- The payload bytes the first k data blocks of a binary of `size` bytes carry (44_container_writer.md R151). -/
def carried (size k : Nat) : Nat := min (256 * k) size

@[simp] theorem carried_zero (size : Nat) : carried size 0 = 0 := Nat.zero_min size

theorem carried_le (size k : Nat) : carried size k ≤ size := Nat.min_le_right ..

theorem carried_of_lt {size k : Nat} (h : 1 ≤ size) (hk : k < blockCount size) : carried size k = 256 * k := by
  obtain ⟨hlt, -, -⟩ := blockCount_spec h
  exact Nat.min_eq_left (by omega)

theorem carried_blockCount {size : Nat} (h : 1 ≤ size) : carried size (blockCount size) = size :=
  Nat.min_eq_right (blockCount_spec h).2.1

/-- The next block carries its `n_k` bytes more. -/
theorem carried_succ {size k : Nat} (h : 1 ≤ size) (hk : k < blockCount size) :
    carried size (k + 1) = carried size k + blockLen size (k + 1) := by
  rw [carried_of_lt h hk, blockLen, Config.blockBytes]
  split
  · rename_i hk1
    rw [carried_of_lt h hk1, Nat.mul_succ]
  · have hlast : k + 1 = blockCount size := by omega
    obtain ⟨hlt, -, -⟩ := blockCount_spec h
    rw [hlast, carried_blockCount h]
    omega

/-- The payload of the next block is the part of the data behind the bytes carried so far. -/
theorem take_carried_succ {size k : Nat} (data : List Byte) (h : 1 ≤ size) (hk : k < blockCount size) :
    data.take (carried size (k + 1)) = data.take (carried size k) ++ blockPayload size data (k + 1) := by
  rw [carried_succ h hk, List.take_add, carried_of_lt h hk]
  rfl

/-- The image of a binary as far as its first k data blocks go. -/
def imagePrefix (p : Params) (r : Regs) (size : Nat) (data : List Byte) (k : Nat) : List Byte :=
  magicBytes p.magic ++ markedChunk p (frame0 r size) ++
    (List.range k).flatMap fun j => markedChunk p (frameK r size data (j + 1))

section
variable (p : Params) (r : Regs) (size : Nat) (data : List Byte)

theorem imagePrefix_zero : imagePrefix p r size data 0 = magicBytes p.magic ++ markedChunk p (frame0 r size) := by
  simp [imagePrefix]

theorem imagePrefix_succ (k : Nat) :
    imagePrefix p r size data (k + 1) = imagePrefix p r size data k ++ markedChunk p (frameK r size data (k + 1)) := by
  simp [imagePrefix, List.range_succ]

theorem imagePrefix_mono {k n : Nat} (hk : k ≤ n) : imagePrefix p r size data k <+: imagePrefix p r size data n := by
  induction hk with
  | refl => exact List.prefix_refl _
  | step _ ih =>
    rw [imagePrefix_succ]
    exact ih.trans (List.prefix_append ..)

/-- The image begins with each of them. -/
theorem imagePrefix_prefix {k : Nat} (hk : k ≤ blockCount size) : imagePrefix p r size data k <+: image p r size data :=
  imagePrefix_mono p r size data hk

theorem imagePrefix_length {size : Nat} {data : List Byte} (h : 1 ≤ size) (hd : data.length = size) {k : Nat}
    (hk : k ≤ blockCount size) : (imagePrefix p r size data k).length = 25 + 17 * k + carried size k := by
  induction k with
  | zero => simp [imagePrefix_zero]
  | succ k ih =>
    rw [imagePrefix_succ, List.length_append, ih (Nat.le_of_succ_le hk), markedChunk_length,
      frameK_length h hd (Nat.le_add_left 1 k) hk, carried_succ h hk]
    omega

end

/-- A part of a byte string that stands in memory stands there at its place. -/
theorem memRead_part {m : Memory} {base : Word} {before part whole : List Byte} (h : before ++ part <+: whole)
    (hm : memRead m base 0 whole.length = whole) : memRead m base before.length part.length = part := by
  obtain ⟨rest, rfl⟩ := h
  rw [List.length_append, List.length_append, Nat.add_assoc, memRead_add, memRead_add, List.append_assoc] at hm
  obtain ⟨-, hm⟩ := List.append_inj hm (memRead_length ..)
  rw [Nat.zero_add] at hm
  exact (List.append_inj hm (memRead_length ..)).1

/-! ### Frames as chunk bodies -/

/-- A frame passes the check of its checksum (43_container_reader.md R135). -/
theorem cksumPasses_frame (r : Regs) (h q : List Byte) : CksumPasses r (frame h q) :=
  fun _ => fold_append_fold 0xFF (h ++ q)

theorem frame0_index (r : Regs) (size : Nat) : (frame0 r size)[7]? = some 0 := rfl

theorem bodyInit_frame0 (r : Regs) (size : Nat) : bodyInit (frame0 r size) = addrInit r :=
  le16Value_ofNat (r.addr.extractLsb' 0 16).isLt

theorem bodyLast_frame0 (r : Regs) (size : Nat) : bodyLast (frame0 r size) = addrEnd r :=
  le16Value_ofNat (r.addr.extractLsb' 16 16).isLt

/-- The first 16 bytes of the record of a binary: name, name length, block count, addresses, size (30_encoding.md
R86). -/
def recordHead (r : Regs) (size : Nat) : List Byte :=
  decodedName (nameField r) ++ [BitVec.ofNat 8 (decodedNameLen (nameField r)), BitVec.ofNat 8 (blockCount size)] ++
    le16 (addrInit r) ++ le16 (addrEnd r) ++ le32 size

@[simp] theorem recordHead_length (r : Regs) (size : Nat) : (recordHead r size).length = 16 := by simp [recordHead]

/-- The record frame 0 opens. -/
theorem bodyRecord_frame0 (r : Regs) (size : Nat) :
    bodyRecord (frame0 r size) size = recordHead r size ++ (le32 0 ++ List.replicate size 0) := by
  rw [bodyRecord, bodyInit_frame0, bodyLast_frame0, ← List.append_assoc]
  rfl

/-- Frame k is that of a continuation, for a block number of one byte that is not 0. -/
theorem frameK_index (r : Regs) (size : Nat) (data : List Byte) {k : Nat} (h1 : 1 ≤ k) (h255 : k ≤ 255) :
    (frameK r size data k)[7]? ≠ some 0 := by
  have hindex : (frameK r size data k)[7]? = some (BitVec.ofNat 8 k) := by
    rw [frameK, frame, List.append_assoc, List.getElem?_append_left (by simp)]
    exact hdr_getElem?_count_index r (blockCount size) k 1
  intro h0
  have := congrArg BitVec.toNat (Option.some.inj (hindex.symm.trans h0))
  simp only [BitVec.toNat_ofNat, BitVec.ofNat_eq_ofNat] at this
  omega

/-- The payload of a frame, found by the length of the frame. -/
theorem payload_of_frame {h q : List Byte} (hh : h.length = 8) :
    ((frame h q).drop 8).take ((frame h q).length - 9) = q := by
  have hlen : (h ++ (q ++ [checksum (h ++ q)])).length - 9 = q.length := by
    simp only [List.length_append, List.length_singleton, hh]
    omega
  rw [frame, List.append_assoc, hlen, List.drop_left' hh, List.take_left' rfl]

end Sys2Proof.Machine
end

section
/-! SUPPORT. The round trip: a container written by ENCODE_CONTAINER, decoded block by block, and the statement about it
(43_container_reader.md R142, 44_container_writer.md R155). -/

namespace Sys2Proof.Machine

/-! ### ENCODE_CONTAINER -/

theorem validSize_of_le {r : Regs} (hrange : addrInit r ≤ addrEnd r)
    (hlen : r.srcLen.toNat = addrEnd r - addrInit r + 1) : validSize r = some (addrEnd r - addrInit r + 1) := by
  simp only [validSize, binarySize, rangeSize, if_neg (Nat.not_lt.2 hrange), hlen, if_true]

/-- The plan of a binary that is whole and whose image fits. -/
theorem planEncodeContainer_of_fits {s : State} {size : Nat} (hsize : validSize s.regs = some size)
    (hroom : reqSize size ≤ s.regs.dstLen.toNat) :
    planEncodeContainer s =
      loadOps s.mem s.regs.srcBase 0 size ++ storeOps s.regs.dstBase 0 (image s.params s.regs size (payload s)) ++
        [.setOutLen (BitVec.ofNat 32 (reqSize size)), .setResult (BitVec.ofNat 32 (reqSize size)),
          .setCksum (frameCksum (frameK s.regs size (payload s) (blockCount size)))] := by
  simp only [planEncodeContainer, hsize, if_neg (Nat.not_lt.2 hroom)]

/-- Output written: memory, and the three registers that speak of it. -/
def withOutput (m : Memory) (outLen result : Word) (cksum : Byte) (t : State) : State :=
  { t with mem := m, res := { t.res with outLen := outLen, result := result, cksum := cksum } }

section
variable (m : Memory) (outLen result : Word) (cksum : Byte) (t : State)

@[simp] theorem withOutput_mem : (withOutput m outLen result cksum t).mem = m := rfl
@[simp] theorem withOutput_regs : (withOutput m outLen result cksum t).regs = t.regs := rfl
@[simp] theorem withOutput_params : (withOutput m outLen result cksum t).params = t.params := rfl
@[simp] theorem withOutput_busy : (withOutput m outLen result cksum t).busy = t.busy := rfl
@[simp] theorem withOutput_host : (withOutput m outLen result cksum t).host = t.host := rfl

end

theorem perform_output (m : Memory) (src base : Word) (n : Nat) (bs : List Byte) (outLen result : Word) (cksum : Byte)
    (t : State) :
    perform (loadOps m src 0 n ++ storeOps base 0 bs ++ [.setOutLen outLen, .setResult result, .setCksum cksum]) t =
      withOutput (writeBytes t.mem base 0 bs) outLen result cksum t := by
  rw [perform_append, perform_append, perform_loadOps, perform_storeOps]
  rfl

theorem completeCmd_withOutput (m : Memory) (outLen result : Word) (cksum : Byte) (s : State) :
    { completeCmd (withOutput m outLen result cksum (startCmd s)) with todo := [] } =
      withOutput m outLen result cksum (finished s) := rfl

/-- A binary that is whole and whose image fits is written, and three registers say so (44_container_writer.md R155). -/
theorem exec_encodeContainer_of_fits {s : State} {size : Nat} (hr : Ready s) (ho : regionsOverlap s.regs = false)
    (hsize : validSize s.regs = some size) (hroom : reqSize size ≤ s.regs.dstLen.toNat) :
    exec .encodeContainer s =
      .next
        (withOutput (writeBytes s.mem s.regs.dstBase 0 (image s.params s.regs size (payload s)))
          (BitVec.ofNat 32 (reqSize size)) (BitVec.ofNat 32 (reqSize size))
          (frameCksum (frameK s.regs size (payload s) (blockCount size))) (finished s)) := by
  rw [exec_performed hr rfl fun _ => ho, planOf, planEncodeContainer_of_fits hsize hroom, perform_output,
    completeCmd_withOutput, startCmd_mem]

/-- The encoder leaves a ready block with the image in its output region. -/
theorem exec_encodeContainer_image {s : State} {size : Nat} (hr : Ready s) (ho : regionsOverlap s.regs = false)
    (hwf : Memory.wf s.mem) (hsize : validSize s.regs = some size) (hroom : reqSize size ≤ s.regs.dstLen.toNat) :
    ∃ t, exec .encodeContainer s = .next t ∧ Ready t ∧ t.params = s.params ∧ t.regs = s.regs ∧ Memory.wf t.mem ∧
      memRead t.mem s.regs.dstBase 0 (reqSize size) = image s.params s.regs size (payload s) := by
  obtain ⟨hpos, hlen⟩ := validSize_eq_some hsize
  have himage := image_length (p := s.params) (r := s.regs) hpos ((payload_length s).trans hlen)
  have hfit := hroom.trans s.regs.dstLen.isLt.le
  refine ⟨_, exec_encodeContainer_of_fits hr ho hsize hroom, ⟨by simp, by simpa using hr.2⟩, by simp, by simp, ?_, ?_⟩
  · rw [withOutput_mem]
    exact writeBytes_wf hwf _ _ _
  · rw [withOutput_mem, ← himage]
    exact memRead_writeBytes hwf s.regs.dstBase 0 _ (by rwa [himage, Nat.zero_add])

/-! ### A marked chunk in the input -/

/-- A marker chunk and the DATA chunk behind it, taken apart. -/
theorem memRead_markedChunk {m : Memory} {base : Word} {off : Nat} {p : Params} {f : List Byte}
    (h : memRead m base off (markedChunk p f).length = markedChunk p f) :
    memRead m base off 4 = tagBytes p.tagMarker ++ le16 0 ∧
      memRead m base (off + 4) 4 = tagBytes p.tagData ++ le16 f.length ∧
      memRead m base (off + 8) f.length = f := by
  rw [markedChunk_length, memRead_add, memRead_add _ _ off 4 4, markedChunk, List.append_assoc _ _ (le16 f.length)] at h
  obtain ⟨hheads, hbody⟩ := List.append_inj h (by simp [memRead_length])
  obtain ⟨hmarker, hdata⟩ := List.append_inj hheads (by simp [memRead_length])
  exact ⟨hmarker, hdata, hbody⟩

/-- Tags that differ have different bytes. -/
theorem tagBytes_inj {a b : Tag} (h : tagBytes a = tagBytes b) : a = b := by
  cases a
  cases b
  simpa [tagBytes] using h

section
variable {u : State} {c : Scan} {t : State} {f : List Byte}

/-- The scanner behind a marker chunk, at the DATA chunk. -/
def pastMarker (c : Scan) : Scan := { c with off := c.off + 4 }

/-- The marker chunk is skipped in any mode of CTRL, and the DATA chunk behind it carries its frame. -/
theorem scanTo_marker (hp : u.params.wellFormed = true) (h : ScanTo u c t) (hf : f.length < 65536)
    (hin : memRead u.mem u.regs.srcBase c.off (markedChunk u.params f).length = markedChunk u.params f)
    (hfit : c.off + (8 + f.length) ≤ u.regs.srcLen.toNat) :
    ScanTo u (pastMarker c) (skipChunk (pastMarker c) t) ∧
      chunkTag u (pastMarker c) = tagBytes u.params.tagData ∧ chunkSize u (pastMarker c) = f.length ∧
      chunkBody u (pastMarker c) = f := by
  obtain ⟨hmarker, hdata, hbody⟩ := memRead_markedChunk hin
  obtain ⟨htag, hsize⟩ := chunk_of_header (by decide) hmarker
  obtain ⟨htag', hsize'⟩ := chunk_of_header (c := pastMarker c) hf hdata
  have hne : chunkTag u c ≠ tagBytes u.params.tagData := by
    rw [htag]
    exact mt tagBytes_inj (by simpa [Params.wellFormed] using hp)
  have hdoes := chunkDoes_skip (by rw [hsize]; omega) hne (.inl htag)
  rw [hsize] at hdoes
  exact ⟨hdoes.scanTo h (by omega), htag', hsize', by rw [chunkBody, hsize']; exact hbody⟩

/-- A continuation frame appends its payload to the open record. -/
theorem chunkDoes_append_frame {h q : List Byte} (hh : h.length = 8) (hindex : (frame h q)[7]? ≠ some 0)
    (hfit : c.off + (4 + (frame h q).length) ≤ u.regs.srcLen.toNat) (htag : chunkTag u c = tagBytes u.params.tagData)
    (hsize : chunkSize u c = (frame h q).length) (hbody : chunkBody u c = frame h q) {o : OpenRec}
    (hopn : c.opn = some o) (hroom : o.wr + q.length ≤ o.size) :
    ChunkDoes u c (appendPayload u.regs.dstBase o q (appendedScan c o q.length (c.off + 13 + q.length)))
      (appendedScan c o q.length (c.off + 13 + q.length)) := by
  have hlen : (frame h q).length = 9 + q.length := by rw [frame_length, hh, Nat.add_right_comm]
  have hq : q = ((chunkBody u c).drop 8).take (chunkSize u c - 9) := by rw [hbody, hsize, payload_of_frame hh]
  have hdoes := chunkDoes_append (o := o) (by omega) htag (by rw [hbody]; exact cksumPasses_frame _ _ _) (by omega)
    (by rwa [hbody]) hopn hq (by omega)
  rwa [hsize, hlen, ← Nat.add_assoc] at hdoes

end

/-! ### The image, block by block -/

/-- What memory holds in a state of a scan that is given by its scanner and its memory. -/
theorem scannedMemory_of_scanTo {s : State} {c : Scan} {m : Memory} (hwf : Memory.wf s.mem)
    (h : ScanTo s c (scanned s c m)) : ScannedMemory s c m := by
  obtain ⟨m', heq, -, hm⟩ := scanTo_scanned hwf h
  obtain rfl : m = m' := congrArg State.mem heq
  exact hm

/-- The input of the block is the image of a whole binary of at most 255 blocks, and its record fits in the output. -/
structure ImageIn (u : State) (r : Regs) (size : Nat) (data : List Byte) : Prop where
  canonical : Memory.wf u.mem
  tagsDiffer : u.params.wellFormed = true
  range : addrInit r ≤ addrEnd r
  size_eq : size = addrEnd r - addrInit r + 1
  size_le : size ≤ 65280
  data_length : data.length = size
  image_in : memRead u.mem u.regs.srcBase 0 (reqSize size) = image u.params r size data
  srcLen_eq : u.regs.srcLen.toNat = reqSize size
  room : 20 + size ≤ u.regs.dstLen.toNat

/-- The scanner of the decode of an image behind its first k data blocks. -/
def blockScan (size k : Nat) : Scan :=
  ⟨25 + 17 * k + carried size k, 20 + size, 1, some ⟨0, size, carried size k⟩⟩

/-- What the output region holds there: the head of the record, and as much of the data as has been carried. -/
structure BlocksDecoded (u : State) (r : Regs) (size : Nat) (data : List Byte) (k : Nat) (m : Memory) : Prop where
  scan : ScanTo u (blockScan size k) (scanned u (blockScan size k) m)
  head : memRead m u.regs.dstBase 0 16 = recordHead r size
  data : memRead m u.regs.dstBase 20 (carried size k) = data.take (carried size k)

section
variable {u : State} {r : Regs} {size : Nat} {data : List Byte}

theorem ImageIn.size_pos (h : ImageIn u r size data) : 1 ≤ size := by
  rw [h.size_eq]
  exact Nat.le_add_left ..

theorem ImageIn.blockCount_le (h : ImageIn u r size data) : blockCount size ≤ 255 := by
  have := h.size_le
  simp only [blockCount, Config.blockBytes]
  omega

/-- A part of the image is in the input at its place. -/
theorem ImageIn.memRead_part (h : ImageIn u r size data) {before part : List Byte}
    (hpart : before ++ part <+: image u.params r size data) :
    memRead u.mem u.regs.srcBase before.length part.length = part := by
  refine Machine.memRead_part hpart ?_
  rw [image_length h.size_pos h.data_length, h.image_in]

/-- A part of the image lies inside the input. -/
theorem ImageIn.part_le (h : ImageIn u r size data) {before part : List Byte}
    (hpart : before ++ part <+: image u.params r size data) :
    before.length + part.length ≤ u.regs.srcLen.toNat := by
  rw [h.srcLen_eq, ← image_length (p := u.params) (r := r) h.size_pos h.data_length, ← List.length_append]
  exact hpart.length_le

/-- The marked chunk of frame 0 is in the input, behind the magic. -/
theorem ImageIn.frame0_in (h : ImageIn u r size data) :
    memRead u.mem u.regs.srcBase 0 4 = magicBytes u.params.magic ∧
      memRead u.mem u.regs.srcBase 4 (markedChunk u.params (frame0 r size)).length =
        markedChunk u.params (frame0 r size) := by
  have hpart := imagePrefix_prefix u.params r size data (Nat.zero_le (blockCount size))
  rw [imagePrefix_zero] at hpart
  exact ⟨h.memRead_part (before := []) ((List.prefix_append ..).trans hpart), h.memRead_part hpart⟩

/-- Frame 0 opens the binary. -/
theorem ImageIn.scanTo_zero (h : ImageIn u r size data) :
    ScanTo u (blockScan size 0)
      (scanned u (blockScan size 0) (writeBytes u.mem u.regs.dstBase 0 (bodyRecord (frame0 r size) size))) := by
  obtain ⟨hmagic, hchunk⟩ := h.frame0_in
  have hlen : 25 ≤ u.regs.srcLen.toNat := by
    rw [h.srcLen_eq, reqSize]
    omega
  obtain ⟨hscan, htag, hsize, hbody⟩ := scanTo_marker (c := scanStart) h.tagsDiffer (.start (by omega) hmagic)
    (by rw [frame0_length]; decide) hchunk (by rw [frame0_length]; exact Nat.le_trans (by decide) hlen)
  rw [frame0_length] at hsize
  have hdoes := chunkDoes_open (size := size) (by rw [hsize]; exact Nat.le_sub_of_add_le hlen) htag
    (by rw [hbody]; exact cksumPasses_frame _ _ _) hsize (by rw [hbody]; rfl)
    (by rw [hbody, bodyInit_frame0, bodyLast_frame0]; exact h.range)
    (by rw [hbody, bodyInit_frame0, bodyLast_frame0]; exact h.size_eq)
    (by simpa [pastMarker, scanStart] using h.room)
  have hblock : openedScan (pastMarker scanStart) size ((pastMarker scanStart).off + 17) = blockScan size 0 := by
    simp [openedScan, pastMarker, scanStart, blockScan]
  rw [hbody, hblock] at hdoes
  have hopen := hdoes.scanTo hscan (show 8 < _ by omega)
  exact hopen

/-- Before the first block: the head of the record, and no data. -/
theorem ImageIn.decoded_zero (h : ImageIn u r size data) : ∃ m, BlocksDecoded u r size data 0 m := by
  refine ⟨_, h.scanTo_zero, ?_, by simp [memRead]⟩
  have hfit : 0 + 20 + size ≤ 2 ^ 32 := by
    rw [Nat.zero_add]
    exact h.room.trans u.regs.dstLen.isLt.le
  have hrec := memRead_bodyRecord h.canonical u.regs.dstBase (frame0_length r size) hfit
  rw [show 20 + size = 16 + (4 + size) by omega, memRead_add, bodyRecord_frame0] at hrec
  rw [bodyRecord_frame0]
  exact (List.append_inj hrec (by simp [memRead_length])).1

/-- The marked chunk of the next block is in the input, at the scan offset. -/
theorem ImageIn.frameK_in (h : ImageIn u r size data) {k : Nat} (hk : k < blockCount size) :
    memRead u.mem u.regs.srcBase (blockScan size k).off (markedChunk u.params (frameK r size data (k + 1))).length =
        markedChunk u.params (frameK r size data (k + 1)) ∧
      (blockScan size k).off + (markedChunk u.params (frameK r size data (k + 1))).length ≤ u.regs.srcLen.toNat := by
  have hpart := imagePrefix_prefix u.params r size data (Nat.succ_le_of_lt hk)
  have hoff : (imagePrefix u.params r size data k).length = (blockScan size k).off :=
    imagePrefix_length u.params r h.size_pos h.data_length hk.le
  rw [Nat.succ_eq_add_one, imagePrefix_succ] at hpart
  exact hoff ▸ ⟨h.memRead_part hpart, h.part_le hpart⟩

/-- The frame of the next block appends its payload. -/
theorem ImageIn.scanTo_succ (h : ImageIn u r size data) {k : Nat} {m : Memory} (hk : k < blockCount size)
    (hscan : ScanTo u (blockScan size k) (scanned u (blockScan size k) m)) :
    ScanTo u (blockScan size (k + 1))
      (scanned u (blockScan size (k + 1))
        (appendMem m u.regs.dstBase ⟨0, size, carried size k⟩ (blockPayload size data (k + 1)))) := by
  obtain ⟨hchunk, hfit⟩ := h.frameK_in hk
  have hlen := frameK_length (r := r) h.size_pos h.data_length (Nat.le_add_left 1 k) hk
  have hpay := blockPayload_length h.size_pos h.data_length (Nat.le_add_left 1 k) hk
  have hnext := carried_succ h.size_pos hk
  have hle := carried_le size (k + 1)
  have hmax := h.size_le
  have hblocks := h.blockCount_le
  rw [markedChunk_length] at hfit
  obtain ⟨hscan', htag, hsize, hbody⟩ := scanTo_marker h.tagsDiffer hscan (by omega) hchunk hfit
  have hoff : (pastMarker (blockScan size k)).off = (blockScan size k).off + 4 := rfl
  have hfit' : (pastMarker (blockScan size k)).off + (4 + (frameK r size data (k + 1)).length) ≤
      u.regs.srcLen.toNat := by omega
  have hdoes := chunkDoes_append_frame (o := ⟨0, size, carried size k⟩) (hdr_length ..)
    (frameK_index r size data (Nat.le_add_left 1 k) (by omega)) hfit' htag hsize hbody rfl
    (by rw [hpay, ← hnext]; exact hle)
  have hblock : appendedScan (pastMarker (blockScan size k)) ⟨0, size, carried size k⟩
      (blockPayload size data (k + 1)).length
      ((pastMarker (blockScan size k)).off + 13 + (blockPayload size data (k + 1)).length) =
      blockScan size (k + 1) := by
    simp only [appendedScan, pastMarker, blockScan, hpay, hnext, Scan.mk.injEq, and_true]
    omega
  rw [hblock] at hdoes
  exact hdoes.scanTo hscan' (by omega)

/-- One more block: the head of the record stays, and the data grows by the payload. -/
theorem ImageIn.decoded_succ (h : ImageIn u r size data) {k : Nat} {m : Memory} (hk : k < blockCount size)
    (hm : BlocksDecoded u r size data k m) : ∃ m', BlocksDecoded u r size data (k + 1) m' := by
  have hpay := blockPayload_length h.size_pos h.data_length (Nat.le_add_left 1 k) hk
  have hnext := carried_succ h.size_pos hk
  have hroom : 0 + 20 + carried size k + (blockPayload size data (k + 1)).length ≤ 2 ^ 32 := by
    have := carried_le size (k + 1)
    have := h.size_le
    omega
  have hwf := (scannedMemory_of_scanTo h.canonical hm.scan).canonical
  refine ⟨_, h.scanTo_succ hk hm.scan, ?_, ?_⟩
  · rw [memRead_appendMem_other hroom (.inl (by omega)), hm.head]
  · rw [take_carried_succ data h.size_pos hk, hnext, ← hpay, memRead_add,
      memRead_appendMem_other hroom (.inr (by dsimp only; omega)), hm.data]
    exact congrArg _ (memRead_appendMem_payload (o := ⟨0, size, carried size k⟩) hwf hroom)

/-- Any number of blocks, by induction over them. -/
theorem ImageIn.decoded (h : ImageIn u r size data) {k : Nat} (hk : k ≤ blockCount size) :
    ∃ m, BlocksDecoded u r size data k m := by
  induction k with
  | zero => exact h.decoded_zero
  | succ k ih =>
    obtain ⟨m, hm⟩ := ih (Nat.le_of_succ_le hk)
    exact h.decoded_succ hk hm

/-- The decode of the image completes with the whole record. -/
theorem ImageIn.exec_decodeContainer (h : ImageIn u r size data) (hr : Ready u) (ho : regionsOverlap u.regs = false) :
    ∃ m, exec .decodeContainer u = .next (Machine.decoded u (blockScan size (blockCount size)) m 0) ∧
      memRead m u.regs.dstBase 0 (20 + size) = recordHead r size ++ le32 size ++ data := by
  obtain ⟨m, hm⟩ := h.decoded le_rfl
  have hcarried := carried_blockCount h.size_pos
  have hend : u.regs.srcLen.toNat ≤ (blockScan size (blockCount size)).off := by
    rw [h.srcLen_eq, blockScan, hcarried, reqSize]
  refine ⟨m, exec_decodeContainer_of_end hr ho hm.scan hend, ?_⟩
  have hreceived : memRead m u.regs.dstBase 16 4 = le32 (carried size (blockCount size)) :=
    (scannedMemory_of_scanTo h.canonical hm.scan).received _ rfl
  have hdata := hm.data
  rw [hcarried, ← h.data_length, List.take_length] at hdata
  rw [memRead_add, memRead_add _ _ 0 16 4, hm.head, Nat.zero_add, Nat.zero_add, hreceived, hcarried, ← h.data_length,
    hdata]

end

/-- Settles O45: the encoder leaves the image in its output region, and decoding it keeps `BlocksDecoded` from block to
block. -/
theorem decodeInvertsEncodeContainer : Obligations.DecodeInvertsEncodeContainer := by
  intro s hr ho hwf hp hrange size hmax hlen hroom h7 hlast
  obtain ⟨t, hexec, hready, hparams, hregs, hcanonical, himage⟩ :=
    exec_encodeContainer_image hr ho hwf (validSize_of_le hrange hlen) hroom
  refine ⟨t, hexec, ?_⟩
  intro base len ctrl u hou hrec
  have hin : ImageIn u s.regs size (payload s) := {
    canonical := hcanonical
    tagsDiffer := hparams ▸ hp
    range := hrange
    size_eq := rfl
    size_le := hmax
    data_length := (payload_length s).trans hlen
    image_in := by
      change memRead t.mem t.regs.dstBase 0 _ = image t.params _ _ _
      rw [hparams, hregs]
      exact himage
    srcLen_eq := (BitVec.toNat_ofNat _ _).trans (Nat.mod_eq_of_lt (hroom.trans_lt s.regs.dstLen.isLt))
    room := hrec }
  obtain ⟨m, hdecode, hmem⟩ := hin.exec_decodeContainer hready hou
  refine ⟨_, hdecode, rfl, rfl, Nat.mod_eq_of_lt (hrec.trans_lt len.isLt), hmem.trans ?_⟩
  rw [recordHead, decodedName_nameField h7, decodedNameLen_nameField h7 hlast, payload, hlen]

end Sys2Proof.Machine
end

section
/-! SUPPORT. The container writer: the size ADDR describes, the layout of the image part by part, and the statements about
REQ_SIZE and ENCODE_CONTAINER (44_container_writer.md R150 to R157). -/

namespace Sys2Proof.Machine

/-! ### The size of the binary -/

/-- An address range holds at most 65536 bytes (44_container_writer.md R150). -/
theorem addrRange_size_le (r : Regs) : addrEnd r - addrInit r + 1 ≤ 65536 := by
  have hend : addrEnd r < 65536 := (r.addr.extractLsb' 16 16).isLt
  omega

section
variable {r : Regs}

theorem binarySize_of_last_lt (h : addrEnd r < addrInit r) : binarySize r = none := if_pos h

theorem binarySize_of_init_le (h : addrInit r ≤ addrEnd r) : binarySize r = some (addrEnd r - addrInit r + 1) :=
  if_neg (Nat.not_lt.2 h)

theorem validSize_of_last_lt (h : addrEnd r < addrInit r) : validSize r = none := by
  rw [validSize, binarySize_of_last_lt h]

theorem validSize_of_wrong_length (h : addrInit r ≤ addrEnd r) (hlen : r.srcLen.toNat ≠ addrEnd r - addrInit r + 1) :
    validSize r = none := by
  simp only [validSize, binarySize_of_init_le h, if_neg hlen]

end

/-- No size of an address range needs more than a register word for its image (44_container_writer.md R153). -/
theorem toNat_ofNat_reqSize {size : Nat} (h : size ≤ 65536) : (BitVec.ofNat 32 (reqSize size)).toNat = reqSize size := by
  have hlt : reqSize size < 2 ^ 32 := by
    simp only [reqSize, blockCount, Config.blockBytes]
    omega
  rw [BitVec.toNat_ofNat, Nat.mod_eq_of_lt hlt]

/-! ### REQ_SIZE -/

theorem planReqSize_of_last_lt {s : State} (h : addrEnd s.regs < addrInit s.regs) :
    planReqSize s = [.record .invalidBinary] := by
  rw [planReqSize, binarySize_of_last_lt h]

theorem planReqSize_of_init_le {s : State} (h : addrInit s.regs ≤ addrEnd s.regs) :
    planReqSize s = [.setResult (BitVec.ofNat 32 (reqSize (addrEnd s.regs - addrInit s.regs + 1)))] := by
  rw [planReqSize, binarySize_of_init_le h]

/-- Settles O37: the range is checked, and the size of the image written to RESULT, which is wide enough for it. -/
theorem reqSizeResult : Obligations.ReqSizeResult := by
  intro s hr init last
  have hone : readsAndWrites .reqSize = true → regionsOverlap s.regs = false := by simp [readsAndWrites]
  refine ⟨fun hbad => exec_raised hr hone (planReqSize_of_last_lt hbad), fun hrange => ?_⟩
  refine ⟨_, ?_, toNat_ofNat_reqSize (addrRange_size_le s.regs)⟩
  rw [exec_performed hr rfl hone, planOf, planReqSize_of_init_le hrange]
  rfl

/-! ### The parts of the image -/

/-- A part of a byte string is found behind the bytes before it. -/
theorem take_drop_of_prefix {before part whole : List Byte} (h : before ++ part <+: whole) :
    (whole.drop before.length).take part.length = part := by
  obtain ⟨rest, rfl⟩ := h
  rw [List.append_assoc, List.drop_left, List.take_left]

/-- The two bytes of a 16-bit field of a register word. -/
theorem le16_extractLsb' (v : Word) (i : Nat) :
    le16 (v.extractLsb' i 16).toNat = [v.extractLsb' i 8, v.extractLsb' (i + 8) 8] := by
  have hlo : BitVec.ofNat 8 (v.extractLsb' i 16).toNat = v.extractLsb' i 8 := by
    apply BitVec.eq_of_toNat_eq
    simp only [BitVec.toNat_ofNat, BitVec.extractLsb'_toNat]
    omega
  have hhi : BitVec.ofNat 8 ((v.extractLsb' i 16).toNat / 256) = v.extractLsb' (i + 8) 8 := by
    apply BitVec.eq_of_toNat_eq
    simp only [BitVec.toNat_ofNat, BitVec.extractLsb'_toNat, Nat.shiftRight_add]
    omega
  rw [le16, hlo, hhi]

/-- The address record is the ADDR register, byte by byte (30_encoding.md R85). -/
theorem le16_addrInit_addrEnd (r : Regs) :
    le16 (addrInit r) ++ le16 (addrEnd r) =
      [r.addr.extractLsb' 0 8, r.addr.extractLsb' 8 8, r.addr.extractLsb' 16 8, r.addr.extractLsb' 24 8] := by
  rw [addrInit, addrEnd, le16_extractLsb', le16_extractLsb']
  rfl

/-- A framed chunk spelled out: the marker chunk, the DATA chunk header, the frame (30_encoding.md R82, R83, R87). -/
theorem markedChunk_frame (p : Params) {h q : List Byte} {n : Nat} (hn : (frame h q).length = n) :
    markedChunk p (frame h q) =
      [p.tagMarker.b0, p.tagMarker.b1, 0, 0, p.tagData.b0, p.tagData.b1, BitVec.ofNat 8 n, BitVec.ofNat 8 (n / 256)] ++
        (h ++ q ++ [fold 0xFF (h ++ q)]) := by
  subst hn
  rfl

section
variable (p : Params) (r : Regs) {size : Nat} {data : List Byte}

/-- The first 25 bytes of an image: the magic and frame 0 in its chunk. -/
theorem image_take_head : (image p r size data).take 25 = magicBytes p.magic ++ markedChunk p (frame0 r size) := by
  have hpart := imagePrefix_prefix p r size data (Nat.zero_le _)
  rw [imagePrefix_zero] at hpart
  have hlen : (magicBytes p.magic ++ markedChunk p (frame0 r size)).length = 25 := by simp
  rw [List.prefix_iff_eq_take, hlen] at hpart
  exact hpart.symm

/-- Block k of an image stands behind the 25 bytes of its head and k - 1 full blocks of 273 bytes. -/
theorem image_take_block (h : 1 ≤ size) (hd : data.length = size) {k : Nat} (h1 : 1 ≤ k) (hk : k ≤ blockCount size) :
    ((image p r size data).drop (25 + 273 * (k - 1))).take (17 + blockLen size k) =
      markedChunk p (frameK r size data k) := by
  obtain ⟨j, rfl⟩ := Nat.exists_eq_add_of_le' h1
  have hpart := imagePrefix_prefix p r size data hk
  rw [imagePrefix_succ] at hpart
  have hoff : (imagePrefix p r size data j).length = 25 + 273 * j := by
    rw [imagePrefix_length p r h hd (Nat.le_of_succ_le hk), carried_of_lt h hk]
    omega
  have htake := take_drop_of_prefix hpart
  rwa [hoff, markedChunk_length, frameK_length h hd h1 hk, ← Nat.add_assoc] at htake

end

/-- Settles O38: the image is counted block by block, and each of its parts found behind the ones before it. -/
theorem imageHasTheRequiredSize : Obligations.ImageHasTheRequiredSize := by
  intro p r size data hpos _ hd img blocks len heads framed addrs
  refine ⟨image_length hpos hd, ?_, fun k h1 hk => ⟨blockPayload_length hpos hd h1 hk, ?_⟩⟩
  · rw [image_take_head, frame0, le16_addrInit_addrEnd, markedChunk_frame p (frame_length ..)]
    rfl
  · exact (image_take_block p r hpos hd h1 hk).trans (markedChunk_frame p (frameK_length hpos hd h1 hk))

/-! ### ENCODE_CONTAINER -/

theorem planEncodeContainer_of_invalid {s : State} (h : validSize s.regs = none) :
    planEncodeContainer s = [.record .invalidBinary] := by
  rw [planEncodeContainer, h]

theorem planEncodeContainer_of_no_room {s : State} {size : Nat} (h : validSize s.regs = some size)
    (hroom : s.regs.dstLen.toNat < reqSize size) : planEncodeContainer s = [.record .allocFail] := by
  simp only [planEncodeContainer, h, if_pos hroom]

/-- Block k lies inside the payload (44_container_writer.md R151). -/
theorem blockLen_le {size k : Nat} (h : 1 ≤ size) (h1 : 1 ≤ k) (hk : k ≤ blockCount size) :
    256 * (k - 1) + blockLen size k ≤ size := by
  obtain ⟨j, rfl⟩ := Nat.exists_eq_add_of_le' h1
  rw [Nat.add_sub_cancel, ← carried_of_lt h hk, ← carried_succ h hk]
  exact carried_le ..

/-- The payload of a block, read from memory. -/
theorem blockPayload_memRead (m : Memory) (base : Word) {size k : Nat} (h : 1 ≤ size) (h1 : 1 ≤ k)
    (hk : k ≤ blockCount size) :
    blockPayload size (memRead m base 0 size) k = memRead m base (256 * (k - 1)) (blockLen size k) := by
  rw [blockPayload, Config.blockBytes, take_drop_memRead m base 0 (blockLen_le h h1 hk), Nat.zero_add]

/-- A part of a byte string written to memory reads back at its place. -/
theorem memRead_writeBytes_part {m : Memory} (hm : Memory.wf m) (base : Word) {bs : List Byte}
    (hspace : bs.length ≤ 2 ^ 32) {k n : Nat} (hpart : k + n ≤ bs.length) :
    memRead (writeBytes m base 0 bs) base k n = (bs.drop k).take n := by
  have hwhole := memRead_writeBytes hm base 0 bs (by rwa [Nat.zero_add])
  have hread := take_drop_memRead (writeBytes m base 0 bs) base 0 hpart
  rwa [hwhole, Nat.zero_add, eq_comm] at hread

/-- Block k of an image ends inside it. -/
theorem blockEnd_le_reqSize {size k : Nat} (h : 1 ≤ size) (h1 : 1 ≤ k) (hk : k ≤ blockCount size) :
    25 + 273 * (k - 1) + (17 + blockLen size k) ≤ reqSize size := by
  have := blockLen_le h h1 hk
  rw [reqSize]
  omega

/-- The checksum byte of frame k covers the header and the payload of block k (44_container_writer.md R154). -/
theorem frameCksum_frameK (r : Regs) (size : Nat) (data : List Byte) (k : Nat) :
    frameCksum (frameK r size data k) = checksum (hdr r (blockCount size) k ++ blockPayload size data k) :=
  frameCksum_frame ..

/-- Settles O39: the checks in their order, each raising its error alone; an image that fits lies inside the 2^32
addresses, so that each of its parts reads back at the place O38 gives it. -/
theorem encodeContainerWritesTheImage : Obligations.EncodeContainerWritesTheImage := by
  intro s hr ho hwf init last size
  refine ⟨fun hbad => ?_, fun hrange hbad => ?_, fun hrange hlen hshort => ?_, fun hrange hlen hroom => ?_⟩
  · exact exec_raised hr (fun _ => ho) (planEncodeContainer_of_invalid (validSize_of_last_lt hbad))
  · exact exec_raised hr (fun _ => ho) (planEncodeContainer_of_invalid (validSize_of_wrong_length hrange hbad))
  · exact exec_raised hr (fun _ => ho) (planEncodeContainer_of_no_room (validSize_of_le hrange hlen) hshort)
  intro blocks len p heads framed block addrs
  have hpos : 1 ≤ size := Nat.le_add_left 1 _
  obtain ⟨-, -, hblocks⟩ := blockCount_spec hpos
  have hvalid : validSize s.regs = some size := validSize_of_le hrange hlen
  have hexec := exec_encodeContainer_of_fits hr ho hvalid hroom
  rw [payload, hlen, frameCksum_frameK, blockPayload_memRead _ _ hpos hblocks le_rfl] at hexec
  obtain ⟨-, hhead, hparts⟩ := imageHasTheRequiredSize p s.regs size (memRead s.mem s.regs.srcBase 0 size) hpos
    (addrRange_size_le s.regs) (memRead_length ..)
  have hsize : (image p s.regs size (memRead s.mem s.regs.srcBase 0 size)).length = reqSize size :=
    image_length hpos (memRead_length ..)
  have hread {k n : Nat} (hpart : k + n ≤ reqSize size) :=
    memRead_writeBytes_part hwf s.regs.dstBase (hsize ▸ hroom.trans s.regs.dstLen.isLt.le) (hsize ▸ hpart)
  refine ⟨_, hexec, ?_, (hread ?_).trans hhead, fun k h1 hk => ?_, fun a ha => ?_⟩
  · exact (hread (Nat.zero_add _).le).trans (List.take_of_length_le hsize.le)
  · rw [reqSize]
    omega
  · obtain ⟨-, hpart⟩ := hparts k h1 hk
    have hblock : blockPayload size (memRead s.mem s.regs.srcBase 0 size) k = block k :=
      blockPayload_memRead _ _ hpos h1 hk
    rw [← hblock]
    exact (hread (blockEnd_le_reqSize hpos h1 hk)).trans hpart
  · refine read_writeBytes_other _ _ _ _ fun i hi hai => ha ⟨i, hsize ▸ hi, ?_⟩
    rwa [Nat.zero_add] at hai

end Sys2Proof.Machine
end

section
/-! SUPPORT. The levels of a tone: the high length, the amplitude, the two waves and the sample that carries a level, and
the statements about them (45_tone.md R162 to R167). -/

namespace Sys2Proof.Machine

/-! ### The high length (45_tone.md R162) -/

/-- Settles O46: the high length is the floor of (L * D + 128) / 256, and L * D is at most 256 * L. -/
theorem highLengthRoundsHalfUp : Obligations.HighLengthRoundsHalfUp := by
  intro len duty hduty
  have hcap : len * duty ≤ len * 256 := Nat.mul_le_mul_left len hduty
  unfold highLength
  omega

/-! ### The amplitude (45_tone.md R164) -/

theorem amplitude_eq (r : Regs) : amplitude r = volume r * (if bps16 r then 32767 else 127) / 256 := rfl

theorem amplitude_le_127 {r : Regs} (hv : volume r ≤ 256) (hb : bps16 r = false) : amplitude r ≤ 127 := by
  rw [amplitude_eq, if_neg (by simp [hb])]
  omega

theorem amplitude_le_32767 {r : Regs} (hv : volume r ≤ 256) (hb : bps16 r = true) : amplitude r ≤ 32767 := by
  rw [amplitude_eq, if_pos hb]
  omega

/-! ### The waves (45_tone.md R163, R166, R167) -/

/-- Law (a). -/
@[simp] theorem sine_zero (amp len : Nat) : Config.sine amp 0 len = 0 := rfl

/-- Law (b). -/
theorem sine_bounds (amp k len : Nat) : -(amp : Int) ≤ Config.sine amp k len ∧ Config.sine amp k len ≤ amp := by
  unfold Config.sine
  split <;> omega

theorem level_sine {r : Regs} (h : waveSine r = true) (len duty k : Nat) :
    level r len duty k =
      if invert r then -Config.sine (amplitude r) k len else Config.sine (amplitude r) k len := by
  simp only [level, h, if_true]

/-- A square wave is high for the first H samples, or after them when it is inverted. -/
theorem level_square {r : Regs} (h : waveSine r = false) (len duty k : Nat) :
    level r len duty k =
      if decide (k < highLength len duty) != invert r then (amplitude r : Int) else -(amplitude r : Int) := by
  by_cases hk : k < highLength len duty <;> cases hi : invert r <;> simp [level, squareLevel, h, hk, hi]

/-- A level lies within the amplitude, whatever the wave. -/
theorem level_bounds (r : Regs) (len duty k : Nat) :
    -(amplitude r : Int) ≤ level r len duty k ∧ level r len duty k ≤ amplitude r := by
  cases hw : waveSine r with
  | true =>
    have hsine := sine_bounds (amplitude r) k len
    rw [level_sine hw]
    split <;> omega
  | false =>
    rw [level_square hw]
    split <;> omega

/-! ### Samples (45_tone.md R165, 20_memory.md R62) -/

theorem encSample_toNat {r : Regs} (hb : bps16 r = false) {v : Int} (h1 : -128 ≤ v) (h2 : v ≤ 127) :
    ((encSample r v).toNat : Int) = 128 + v := by
  rw [encSample, if_neg (by simp [hb]), BitVec.toNat_setWidth, BitVec.toNat_ofInt]
  omega

theorem encSample_toInt {r : Regs} (hb : bps16 r = true) {v : Int} (h1 : -32768 ≤ v) (h2 : v ≤ 32767) :
    (encSample r v).toInt = v := by
  rw [encSample, if_pos hb, BitVec.toInt_ofInt, Int.bmod_eq_of_le (by omega) (by omega)]

/-- An 8-bit sample of a tone is its level around 128. -/
theorem encSample_level_toNat {r : Regs} (hv : volume r ≤ 256) (hb : bps16 r = false) (len duty k : Nat) :
    ((encSample r (level r len duty k)).toNat : Int) = 128 + level r len duty k := by
  have hamp := amplitude_le_127 hv hb
  have hlevel := level_bounds r len duty k
  exact encSample_toNat hb (by omega) (by omega)

/-- A 16-bit sample of a tone is its level, signed. -/
theorem encSample_level_toInt {r : Regs} (hv : volume r ≤ 256) (hb : bps16 r = true) (len duty k : Nat) :
    (encSample r (level r len duty k)).toInt = level r len duty k := by
  have hamp := amplitude_le_32767 hv hb
  have hlevel := level_bounds r len duty k
  exact encSample_toInt hb (by omega) (by omega)

/-- Settles O48: a sample carries its level, and the level of a sine wave is SINE's value, inverted or not. -/
theorem sineSampleLevels : Obligations.SineSampleLevels := by
  intro r len duty k hv hw amp v x
  have hlevel : level r len duty k = v := level_sine hw len duty k
  exact ⟨fun hb => hlevel ▸ encSample_level_toNat hv hb len duty k,
    fun hb => hlevel ▸ encSample_level_toInt hv hb len duty k⟩

/-- Settles O49: a sample carries its level, and the level of a square wave is the amplitude up or down. -/
theorem squareSampleLevels : Obligations.SquareSampleLevels := by
  intro r len duty k hv hw high x
  have hlevel : level r len duty k = if high then (amplitude r : Int) else -(amplitude r : Int) :=
    level_square hw len duty k
  refine ⟨fun hb => ?_, fun hb => ?_⟩
  · have hx : (x.toNat : Int) = 128 + level r len duty k := encSample_level_toNat hv hb len duty k
    have hcap := amplitude_le_127 hv hb
    have hamp : amplitude r = volume r * 127 / 256 := by rw [amplitude_eq, if_neg (by simp [hb])]
    rw [hlevel] at hx
    rw [← hamp]
    split <;> rename_i hhigh
    · rw [if_pos hhigh] at hx
      omega
    · rw [if_neg hhigh] at hx
      omega
  · have hamp : amplitude r = volume r * 32767 / 256 := by rw [amplitude_eq, if_pos hb]
    rw [← hamp, ← hlevel]
    exact encSample_level_toInt hv hb len duty k

/-- Settles O47: the two clauses of `Config.sine` are the laws, and a sample of a sine wave carries its level, which lies
within the amplitude and is 0 at the start of a cycle. -/
theorem sineObeysItsLaws : Obligations.SineObeysItsLaws := by
  refine ⟨sine_zero, sine_bounds, ?_⟩
  intro r len duty k hv hw amp x x0
  have hbounds : -(amp : Int) ≤ level r len duty k ∧ level r len duty k ≤ amp := level_bounds r len duty k
  have hzero : level r len duty 0 = 0 := by simp [level_sine hw]
  refine ⟨fun hb => ?_, fun hb => ?_⟩
  · have hx : (x.toNat : Int) = 128 + level r len duty k := encSample_level_toNat hv hb len duty k
    have hx0 : (x0.toNat : Int) = 128 + level r len duty 0 := encSample_level_toNat hv hb len duty 0
    omega
  · have hx : x.toInt = level r len duty k := encSample_level_toInt hv hb len duty k
    have hx0 : x0.toInt = level r len duty 0 := encSample_level_toInt hv hb len duty 0
    omega

end Sys2Proof.Machine
end

section
/-! SUPPORT. A command of sound steps at a ready block whose sink answers, run whole, and the statements about RENDER_TONE
and RENDER_SILENCE (45_tone.md R168 to R172). -/

namespace Sys2Proof.Machine

/-! ### A command of sound steps (45_tone.md R172) -/

/-- What a completed command leaves that has offered the samples `xs` and recorded the errors `bits` besides rejections,
and has moved to these places in a tone and in a tape. -/
def sounded (s : State) (xs : List Sample) (bits : Word) (tone : TonePos) (tape : TapePos) : State :=
  { finished s with
    port := (pushesOf xs s.sink).reverse ++ s.port
    sink := sinkAfter xs.length s.sink
    tone := tone
    tape := tape
    lastErr := bits ||| rejectBits xs.length s.sink
    err := s.err ||| (bits ||| rejectBits xs.length s.sink)
    res :=
      { (finished s).res with
        sampleCount := BitVec.ofNat 32 xs.length
        result := BitVec.ofNat 32 (acceptedOf xs.length s.sink) } }

@[simp] theorem offered_sounded (s : State) (xs : List Sample) (bits : Word) (tone : TonePos) (tape : TapePos) :
    offered (sounded s xs bits tone tape) = offered s ++ xs :=
  (offered_pushed rfl).1

@[simp] theorem delivered_sounded (s : State) (xs : List Sample) (bits : Word) (tone : TonePos) (tape : TapePos) :
    delivered (sounded s xs bits tone tape) = delivered s ++ acceptedSamples xs s.sink :=
  (offered_pushed rfl).2

/-- A command that plans sound steps performs its whole plan, where the sink answers. -/
theorem exec_audible {i : Instr} {s : State} (h : Ready s) (hk : sinkLive s.sink = true)
    (hi : readsAndWrites i = false) (ha : Audible (planOf i s)) :
    let t := perform (planOf i s) (startCmd s)
    exec i s = .next (sounded s (samplesOf (planOf i s)) (recordedBits (planOf i s)) t.tone t.tape) := by
  intro t
  have ht := perform_audible ha (s := startCmd s) (sinkLive_answered hk _)
  rw [exec_of_disjoint (by simp [hi]), runCommand_performed h (.inl hk), ht]
  simp [sounded, finished, completeCmd, startCmd, t]

/-- Without errors of its own, a sound records WRITE_FAIL exactly when a sample was rejected. -/
theorem sounded_zero (s : State) {xs : List Sample} {n : Nat} (hn : xs.length = n) (tone : TonePos) (tape : TapePos) :
    let fail : Word := if acceptedOf n s.sink < n then 0x008 else 0x000
    sounded s xs 0 tone tape =
      { finished s with
        port := (pushesOf xs s.sink).reverse ++ s.port
        sink := sinkAfter n s.sink
        tone := tone
        tape := tape
        lastErr := fail
        err := s.err ||| fail
        res :=
          { (finished s).res with
            sampleCount := BitVec.ofNat 32 n
            result := BitVec.ofNat 32 (acceptedOf n s.sink) } } := by
  have hbits : 0 ||| rejectBits n s.sink = if acceptedOf n s.sink < n then 0x008 else 0x000 := BitVec.zero_or
  simp only [sounded, hn, hbits]

/-! ### Places that stay (log entry 9) -/

/-- What every step of a list keeps, performing the list keeps. -/
theorem perform_keeps {α : Type} {f : State → α} {ops : List EngineOp}
    (h : ∀ op ∈ ops, ∀ s, f (performOp s op) = f s) (s : State) : f (perform ops s) = f s := by
  induction ops generalizing s with
  | nil => rfl
  | cons op ops ih => exact (ih (fun o ho => h o (by simp [ho])) _).trans (h op (by simp) s)

/-- Only a tape moves the place in a tape. -/
theorem performOp_tape_of_ne {op : EngineOp} (h : ∀ p, op ≠ .tape p) (s : State) : (performOp s op).tape = s.tape := by
  cases op with
  | tape p => exact absurd rfl (h p)
  | push pos x => simp only [performOp, applyOp]; split <;> rfl
  | countAnswer => simp
  | load | store | countOffer | record | setResult | setOutLen | setCksum | setNbin | scan | complete => rfl

/-- An emission keeps the place in a tape. -/
theorem performOp_tape_of_emit {pos : Option TonePos} {x : Sample} {op : EngineOp} (h : op ∈ emitOps pos x) (s : State) :
    (performOp s op).tape = s.tape := by
  refine performOp_tape_of_ne (fun p hp => ?_) s
  simp [emitOps, hp] at h

/-- An emission without a place in a tone keeps the place in a tone. -/
theorem performOp_tone_of_emit_none {x : Sample} {op : EngineOp} (h : op ∈ emitOps none x) (s : State) :
    (performOp s op).tone = s.tone := by
  simp only [emitOps, List.mem_cons, List.not_mem_nil, or_false] at h
  obtain rfl | rfl | rfl := h
  · simp only [performOp, applyOp]
    split <;> rfl
  · rfl
  · exact countAnswer_tone s

theorem perform_toneOps_tape (r : Regs) (f n duty : Nat) (s : State) :
    (perform (toneOps r f n duty) s).tape = s.tape := by
  refine perform_keeps (f := State.tape) (fun op hop u => ?_) s
  unfold toneOps at hop
  split at hop
  · rw [List.mem_singleton.1 hop, performOp_record, recordErr_tape]
  · simp only [cycleOps, List.mem_flatMap] at hop
    obtain ⟨c, -, k, -, hemit⟩ := hop
    exact performOp_tape_of_emit hemit u

/-- A silence has no place in a tone and none in a tape: it moves neither. -/
theorem perform_silenceOps_places (r : Regs) (ms : Nat) (s : State) :
    (perform (silenceOps r ms) s).tone = s.tone ∧ (perform (silenceOps r ms) s).tape = s.tape := by
  have hemit (op : EngineOp) (hop : op ∈ silenceOps r ms) : op ∈ emitOps none (encSample r 0) := by
    obtain ⟨ops, hops, hin⟩ := List.mem_flatten.1 hop
    rwa [List.eq_of_mem_replicate hops] at hin
  exact ⟨perform_keeps (f := State.tone) (fun op hop => performOp_tone_of_emit_none (hemit op hop)) s,
    perform_keeps (f := State.tape) (fun op hop => performOp_tape_of_emit (hemit op hop)) s⟩

/-! ### RENDER_TONE -/

theorem cycleLen_eq_zero_iff (r : Regs) (f : Nat) : cycleLen r f = 0 ↔ f = 0 ∨ r.sampleRate.toNat < f := by
  rw [cycleLen, Nat.div_eq_zero_iff]

/-- Settles O50: a frequency without a cycle length plans the error and nothing else. -/
theorem renderToneInvalidFrequency : Obligations.RenderToneInvalidFrequency := by
  intro s hr hfreq
  have hlen : cycleLen s.regs s.regs.freq.toNat = 0 := by
    rw [cycleLen_eq_zero_iff]
    exact hfreq.imp_left fun h => by rw [h]; rfl
  exact exec_raised hr (by simp [readsAndWrites]) (if_pos hlen)

/-- Settles O51: a tone with a cycle length records nothing by itself, and its steps offer its samples. -/
theorem renderToneOffersEverySample : Obligations.RenderToneOffersEverySample := by
  intro s hr hk hpos hle samples n fail
  have hlen : cycleLen s.regs s.regs.freq.toNat ≠ 0 := by
    rw [Ne, cycleLen_eq_zero_iff, not_or, not_lt]
    exact ⟨fun h => hpos (BitVec.eq_of_toNat_eq h), hle⟩
  have hcount : samples.length = n := (toneSamples_length ..).trans (Nat.mul_comm ..)
  have hexec := exec_audible (i := .renderTone) hr hk rfl (audible_toneOps ..)
  simp only [planOf, planRenderTone, samplesOf_toneOps, recordedBits_toneOps, if_neg hlen, perform_toneOps_tape] at hexec
  exact ⟨_, hexec, sounded_zero s hcount .., offered_sounded .., hcount, delivered_sounded ..⟩

/-! ### RENDER_SILENCE -/

/-- Settles O52: a silence records nothing by itself, its steps offer its samples, and it moves no place. -/
theorem renderSilenceOffersTheCentre : Obligations.RenderSilenceOffersTheCentre := by
  intro s hr hk n samples fail
  have hcount : samples.length = n := List.length_replicate
  have hexec := exec_audible (i := .renderSilence) hr hk rfl (audible_silenceOps ..)
  simp only [planOf, planRenderSilence, samplesOf_silenceOps, recordedBits_silenceOps, perform_silenceOps_places] at hexec
  exact ⟨_, hexec, sounded_zero s hcount .., offered_sounded .., delivered_sounded ..⟩

end Sys2Proof.Machine
end

section
/-! SUPPORT. A tape run whole and its samples counted, and the statements about ENCODE_TAPE (46_tape.md R180 to R187). -/

namespace Sys2Proof.Machine

/-! ### Validation (46_tape.md R180) -/

theorem planEncodeTape_of_invalid {s : State} (h : validSize s.regs = none) :
    planEncodeTape s = [.record .invalidBinary] := by
  rw [planEncodeTape, h]

theorem planEncodeTape_of_valid {s : State} {size : Nat} (h : validSize s.regs = some size) :
    planEncodeTape s =
      loadOps s.mem s.regs.srcBase 0 size ++ tapeOps s.params.bitCycles s.regs size (payload s) ++
        [.setCksum (frameCksum (frameK s.regs size (payload s) (blockCount size)))] := by
  simp only [planEncodeTape, h]

/-- The two checks of a binary: its range, then its length. -/
theorem validSize_of_invalid {r : Regs} (h : addrEnd r < addrInit r ∨ r.srcLen.toNat ≠ addrEnd r - addrInit r + 1) :
    validSize r = none := by
  rcases Nat.lt_or_ge (addrEnd r) (addrInit r) with hlt | hle
  · exact validSize_of_last_lt hlt
  · exact validSize_of_wrong_length hle (h.resolve_left (Nat.not_lt.2 hle))

/-- Settles O54: a binary that fails a check plans the error and nothing else. -/
theorem encodeTapeValidatesFirst : Obligations.EncodeTapeValidatesFirst := by
  intro s hr init last hbad
  exact exec_raised hr (by simp [readsAndWrites]) (planEncodeTape_of_invalid (validSize_of_invalid hbad))

/-! ### A tape, run whole (46_tape.md R184 to R186) -/

/-- The state with CKSUM set. -/
def withCksum (b : Byte) (s : State) : State := { s with res := { s.res with cksum := b } }

@[simp] theorem offered_withCksum (b : Byte) (s : State) : offered (withCksum b s) = offered s := rfl
@[simp] theorem delivered_withCksum (b : Byte) (s : State) : delivered (withCksum b s) = delivered s := rfl

/-- Performing the plan of a valid binary comes to performing its tape, and then setting CKSUM. -/
theorem perform_planEncodeTape {s : State} {size : Nat} (h : validSize s.regs = some size) (t : State) :
    perform (planEncodeTape s) t =
      withCksum (frameCksum (frameK s.regs size (payload s) (blockCount size)))
        (perform (tapeOps s.params.bitCycles s.regs size (payload s)) t) := by
  rw [planEncodeTape_of_valid h, perform_append, perform_append, perform_loadOps]
  rfl

/-- A valid binary is played, where the sink answers: its samples are offered, INVALID_FREQ is recorded as `tapeBit`
says, and CKSUM is that of the last frame. -/
theorem exec_encodeTape_of_valid {s : State} {size : Nat} (hr : Ready s) (hk : sinkLive s.sink = true)
    (h : validSize s.regs = some size) :
    let t := perform (tapeOps s.params.bitCycles s.regs size (payload s)) (startCmd s)
    exec .encodeTape s =
      .next (withCksum (frameCksum (frameK s.regs size (payload s) (blockCount size)))
        (sounded s (tapeSamples s.params.bitCycles s.regs size (payload s)) (tapeBit s.regs) t.tone t.tape)) := by
  intro t
  have ht := perform_audible (audible_tapeOps s.params.bitCycles s.regs size (payload s)) (s := startCmd s)
    (sinkLive_answered hk _)
  simp only [samplesOf_tapeOps, recordedBits_tapeOps] at ht
  rw [exec_of_disjoint (by simp [readsAndWrites]), runCommand_performed hr (.inl hk), planOf, perform_planEncodeTape h,
    ht]
  simp [withCksum, sounded, finished, completeCmd, startCmd, t]

/-- The payload of a binary that is whole has its size. -/
theorem payload_of_length {s : State} {size : Nat} (h : s.regs.srcLen.toNat = size) :
    payload s = memRead s.mem s.regs.srcBase 0 size := by
  rw [payload, h]

/-- The last block carries all that the blocks before it leave (44_container_writer.md R151). -/
theorem blockPayload_last {size : Nat} {data : List Byte} (hd : data.length = size) :
    blockPayload size data (blockCount size) = data.drop (256 * (blockCount size - 1)) := by
  rw [blockPayload, blockLen, if_neg (lt_irrefl _), Config.blockBytes]
  exact List.take_of_length_le (by rw [List.length_drop, hd])

/-- The checksum byte of the last frame (46_tape.md R185). -/
theorem frameCksum_last (r : Regs) {size : Nat} {data : List Byte} (hd : data.length = size) :
    frameCksum (frameK r size data (blockCount size)) =
      fold 0xFF (hdr r (blockCount size) (blockCount size) ++ data.drop (256 * (blockCount size - 1))) := by
  rw [frameCksum_frameK, blockPayload_last hd]
  rfl

/-- The sync tone of 2000 Hz has no cycle length exactly when SAMPLE_RATE is below 2000 (46_tape.md R186). -/
theorem tapeBit_eq (r : Regs) : tapeBit r = if r.sampleRate.toNat < 2000 then 0x010 else 0x000 := by
  simp only [tapeBit, cycleLen_eq_zero_iff, OfNat.ofNat_ne_zero, false_or]
  rfl

/-- Settles O55: the whole state of a played tape, with its error bits and its checksum as the statement writes them. -/
theorem encodeTapePlaysTheSequence : Obligations.EncodeTapePlaysTheSequence := by
  intro s hr hk hrange size hlen data samples blocks n errs
  have hexec := exec_encodeTape_of_valid hr hk (validSize_of_le hrange hlen)
  rw [payload_of_length hlen, frameCksum_last _ (memRead_length ..)] at hexec
  have herrs : tapeBit s.regs ||| rejectBits n s.sink = errs := congrArg (· ||| _) (tapeBit_eq s.regs)
  refine ⟨_, hexec, ?_, ?_, ?_⟩
  · simp only [← herrs]
    rfl
  · rw [offered_withCksum, offered_sounded]
  · rw [delivered_withCksum, delivered_sounded]

/-! ### The samples of a tape, counted (46_tape.md R187) -/

@[simp] theorem frameBits_length (f : List Byte) : (frameBits f).length = 8 * f.length := by
  simp [frameBits, List.length_flatMap, Nat.mul_comm]

@[simp] theorem preambleSamples_length (r : Regs) :
    (preambleSamples r).length = 30 * cycleLen r 720 + cycleLen r 2000 := by
  simp [preambleSamples]

/-- Each 1 offers BIT_CYCLES cycles of 1000 Hz, each 0 as many of 2000 Hz (46_tape.md R182). -/
theorem frameSamples_length (cyc : Nat) (r : Regs) (f : List Byte) :
    (frameSamples cyc r f).length =
      cyc * ((frameBits f).count true * cycleLen r 1000 + (frameBits f).count false * cycleLen r 2000) := by
  unfold frameSamples
  induction frameBits f with
  | nil => simp
  | cons b bs ih =>
    rw [List.flatMap_cons, List.length_append, ih]
    cases b with
    | false =>
      rw [if_neg Bool.false_ne_true, toneSamples_length, List.count_cons_self, List.count_cons_of_ne (by decide)]
      ring
    | true =>
      rw [if_pos rfl, toneSamples_length, List.count_cons_self, List.count_cons_of_ne (by decide)]
      ring

/-- The samples of some frames on tape, each with its preamble. -/
theorem framesSamples_length (cyc : Nat) (r : Regs) (fs : List (List Byte)) :
    (fs.flatMap fun f => preambleSamples r ++ frameSamples cyc r f).length =
      fs.length * (30 * cycleLen r 720 + cycleLen r 2000) +
        cyc * ((fs.flatMap frameBits).count true * cycleLen r 1000 +
          (fs.flatMap frameBits).count false * cycleLen r 2000) := by
  induction fs with
  | nil => simp
  | cons f fs ih =>
    simp only [List.flatMap_cons, List.length_append, List.count_append, List.length_cons, preambleSamples_length,
      frameSamples_length, ih]
    ring

@[simp] theorem tapeFrames_length (r : Regs) (size : Nat) (data : List Byte) :
    (tapeFrames r size data).length = blockCount size + 1 := by
  simp [tapeFrames]

/-- A tape has as many samples as 46_tape.md R187 says. -/
theorem tapeSamples_length (cyc : Nat) (r : Regs) (size : Nat) (data : List Byte) :
    (tapeSamples cyc r size data).length =
      r.sampleRate.toNat * 100 / 1000 + 1000 * cycleLen r 1000 +
        (blockCount size + 1) * (30 * cycleLen r 720 + cycleLen r 2000) +
        cyc * ((tapeBits r size data).count true * cycleLen r 1000 +
          (tapeBits r size data).count false * cycleLen r 2000) +
        2 * cycleLen r 100 + r.sampleRate.toNat * 200 / 1000 := by
  simp only [tapeSamples, List.length_append, silenceSamples_length, toneSamples_length, framesSamples_length,
    tapeFrames_length, tapeBits, Nat.add_assoc]

/-- The bits of a tape are those of the bytes of its frames: 13 of the header, 9 and the payload of each block. -/
theorem tapeBits_length (r : Regs) {size : Nat} {data : List Byte} (h : 1 ≤ size) (hd : data.length = size) :
    (tapeBits r size data).length =
      8 * (13 + ((List.range (blockCount size)).map fun j => 9 + blockLen size (j + 1)).sum) := by
  have hframes : (List.range (blockCount size)).map (fun j => 8 * (frameK r size data (j + 1)).length) =
      (List.range (blockCount size)).map fun j => 8 * (9 + blockLen size (j + 1)) := by
    refine List.map_congr_left fun j hj => ?_
    rw [frameK_length h hd (Nat.le_add_left 1 j) (List.mem_range.1 hj)]
  rw [tapeBits, tapeFrames, List.flatMap_cons, List.length_append, List.flatMap_map, List.length_flatMap]
  simp only [frameBits_length, frame0_length, hframes, List.sum_map_mul_left, ← Nat.mul_add]

/-- Settles O56: a played tape offers its samples and counts them, and its samples are as many as its tones and silences
have. -/
theorem tapeSampleCount : Obligations.TapeSampleCount := by
  intro s hr hk hrange size hlen data rate blocks ones zeros n
  have hexec := exec_encodeTape_of_valid hr hk (validSize_of_le hrange hlen)
  rw [payload_of_length hlen] at hexec
  have hn : (tapeSamples s.params.bitCycles s.regs size data).length = n := tapeSamples_length ..
  refine ⟨?_, _, hexec, ?_, ?_, ?_⟩
  · rw [List.count_true_add_count_false]
    exact tapeBits_length s.regs (Nat.le_add_left ..) (memRead_length ..)
  · rw [offered_withCksum, offered_sounded, List.length_append, hn]
  · rw [← hn]
    rfl
  · rw [← hn]
    rfl

end Sys2Proof.Machine
end

section
/-! SUPPORT. No step faults: no host access ends in a fault, and a busy block with a coherent sequencer has work left
(40_command.md R102, 60_exceptions.md R194). -/

namespace Sys2Proof.Machine

theorem runCommand_ne_fault (plan : State → List EngineOp) (s : State) (r : Fault) : runCommand plan s ≠ .fault r := by
  unfold runCommand
  split <;> nofun

theorem runDisjoint_ne_fault (plan : State → List EngineOp) (s : State) (r : Fault) :
    runDisjoint plan s ≠ .fault r := by
  unfold runDisjoint
  split
  · nofun
  · exact runCommand_ne_fault plan s r

theorem exec_ne_fault (i : Instr) (s : State) (r : Fault) : exec i s ≠ .fault r := by
  rw [exec_eq]
  split
  · exact runDisjoint_ne_fault (planOf i) s r
  · exact runCommand_ne_fault (planOf i) s r

/-- A word written to CMD is no fault, whether it is a command or not (40_command.md R108). -/
theorem issue_ne_fault (w : Word) (s : State) (r : Fault) : issue w s ≠ .fault r := by
  cases hd : decode w with
  | ok i => exact issue_of_decode hd s ▸ exec_ne_fault i s r
  | error e => exact issue_of_reject hd s ▸ runCommand_ne_fault _ s r

/-- A host access is performed or refused: no state, coherent or not, makes it a fault. -/
theorem hostAct_ne_fault (act : HostAct) (s : State) (r : Fault) : hostAct act s ≠ .fault r := by
  cases act with
  | regWrite off v =>
    simp only [hostAct]
    split
    · split
      · exact issue_ne_fault v s r
      · nofun
    · nofun
  | regRead off =>
    simp only [hostAct]
    split <;> nofun
  | memWrite a b =>
    simp only [hostAct]
    split
    · nofun
    · split <;> nofun
  | memRead a =>
    simp only [hostAct]
    split <;> nofun
  | oddAccess | reset => nofun

/-- A busy block with a coherent sequencer has at least its completion left to perform (40_command.md R102). -/
theorem todo_ne_nil_of_busy {s : State} (h : seqLegal s) (hb : s.busy = true) : s.todo ≠ [] := by
  obtain ⟨hidle, hrun⟩ := h
  cases hs : s.seq with
  | idle => simp [(hidle hs).1] at hb
  | run =>
    obtain ⟨-, -, hlegal⟩ := hrun hs
    obtain ⟨plan, htodo, -⟩ := todoLegal_iff.1 hlegal
    simp [htodo]

/-- Settles O22: the one fault of a step is that of a busy block without work, which a coherent sequencer rules out. -/
theorem noStepFaults : Obligations.NoStepFaults := by
  intro s r h
  obtain ⟨hb, hnil, -⟩ | ⟨e, rest, -, hs⟩ | ⟨-, hs⟩ := step_cases s
  · exact absurd hnil (todo_ne_nil_of_busy h hb)
  · rw [hs]
    exact hostAct_ne_fault e.act { s with host := rest } r
  · rw [hs]
    nofun

end Sys2Proof.Machine
end

section
/-! SUPPORT. Reset and the accesses and launches that are refused, and the statements about them
(70_reset_and_hazards.md R210 to R212, R216 to R218). -/

namespace Sys2Proof.Machine

/-! ### Register accesses of another form (70_reset_and_hazards.md R216) -/

theorem alignedOffset_iff (off : BitVec 8) : alignedOffset off = true ↔ off.toNat % 4 = 0 := by
  simp [alignedOffset, ← BitVec.toNat_inj, BitVec.extractLsb'_toNat]

/-- Settles O15: the due access is the step, and only its form is looked at. -/
theorem oddRegisterAccessIsRefused : Obligations.OddRegisterAccessIsRefused := by
  intro s e rest hdue
  rw [step_due hdue]
  refine ⟨fun off bytes hact => by rw [hact]; rfl, fun off hoff => ?_⟩
  have hodd : ¬ alignedOffset off = true := mt (alignedOffset_iff off).1 hoff
  exact ⟨fun hact => by rw [hact, hostAct, if_neg hodd], fun v hact => by rw [hact, hostAct, if_neg hodd]⟩

/-! ### Memory accesses while a command runs (70_reset_and_hazards.md R217) -/

theorem hostAct_memWrite_inInput {s : State} {a : Word} (hb : s.busy = true) (h : inInput s a = true) (b : Byte) :
    hostAct (.memWrite a b) s = .refused .inputRegionBusy := by
  rw [hostAct, if_pos (by simp [hb, h])]

theorem hostAct_memRead_inOutput {s : State} {a : Word} (hb : s.busy = true) (h : inOutput s a = true) :
    hostAct (.memRead a) s = .refused .outputRegionBusy := by
  rw [hostAct, if_pos (by simp [hb, h])]

/-- A store to the output region is refused for the input region where the address lies in both. -/
theorem hostAct_memWrite_inOutput {s : State} {a : Word} (hb : s.busy = true) (h : inOutput s a = true) (b : Byte) :
    hostAct (.memWrite a b) s = .refused (if inInput s a then .inputRegionBusy else .outputRegionBusy) := by
  cases hin : inInput s a with
  | true => exact hostAct_memWrite_inInput hb hin b
  | false =>
    rw [hostAct, if_neg (by simp [hin]), if_pos (by simp [hb, h])]
    rfl

/-- Settles O16: the byte of a region's offset lies in the region, and a due access to it is refused. -/
theorem regionAccessWhileBusyIsRefused : Obligations.RegionAccessWhileBusyIsRefused := by
  intro s e rest a hb hdue
  rw [step_due hdue]
  refine ⟨fun b hact ⟨i, hi, ha⟩ => ?_, fun ⟨i, hi, ha⟩ => ?_⟩
  · have hin : inInput s a = true := by rw [inInput, ha]; exact inRegion_effAddr hi
    rw [hact]
    exact hostAct_memWrite_inInput (s := { s with host := rest }) hb hin b
  · have hout : inOutput s a = true := by rw [inOutput, ha]; exact inRegion_effAddr hi
    refine ⟨fun hact => ?_, fun b hact => ?_⟩
    · rw [hact]
      exact hostAct_memRead_inOutput (s := { s with host := rest }) hb hout
    · rw [hact]
      exact ⟨_, hostAct_memWrite_inOutput (s := { s with host := rest }) hb hout b⟩

/-! ### Launches with overlapping regions (70_reset_and_hazards.md R218) -/

/-- A base that lies inside another region is the address of one of its offsets. -/
theorem effAddr_sub (base start : Word) : effAddr base (start - base).toNat = effAddr start 0 := by
  have := base.isLt
  have := start.isLt
  simp only [effAddr, BitVec.toNat_sub]
  omega

/-- The check of a launch says what it is for: some byte of the input and some byte of the output region have one
address. -/
theorem regionsOverlap_iff (r : Regs) :
    regionsOverlap r = true ↔
      ∃ i j, i < r.srcLen.toNat ∧ j < r.dstLen.toNat ∧ effAddr r.srcBase i = effAddr r.dstBase j := by
  constructor
  · intro h
    simp only [regionsOverlap, Bool.and_eq_true, Bool.or_eq_true, bne_iff_ne, decide_eq_true_eq, ne_eq,
      ← BitVec.toNat_inj] at h
    obtain ⟨⟨hsrc, hdst⟩, hstart | hstart⟩ := h
    · exact ⟨_, 0, hstart, Nat.pos_of_ne_zero hdst, effAddr_sub ..⟩
    · exact ⟨0, _, Nat.pos_of_ne_zero hsrc, hstart, (effAddr_sub ..).symm⟩
  · rintro ⟨i, j, hi, hj, haddr⟩
    by_contra ho
    exact ne_of_not_overlap (Bool.not_eq_true _ ▸ ho) (inRegion_effAddr hi) (inRegion_effAddr hj) haddr

theorem exec_overlap {i : Instr} {s : State} (hb : s.busy = false) (hi : readsAndWrites i = true)
    (ho : regionsOverlap s.regs = true) : exec i s = .refused .regionOverlap := by
  rw [exec_eq, if_pos hi, runDisjoint, if_pos (by simp [hb, ho])]

theorem runCommand_ne_refused (plan : State → List EngineOp) (s : State) (r : Refusal) :
    runCommand plan s ≠ .refused r := by
  unfold runCommand
  split <;> nofun

/-- A command is refused for overlapping regions or not at all. -/
theorem exec_refused {i : Instr} {s : State} {r : Refusal} (h : exec i s = .refused r) :
    readsAndWrites i = true ∧ regionsOverlap s.regs = true := by
  by_contra hno
  rw [exec_of_disjoint fun hi => by simpa [hi] using hno] at h
  exact runCommand_ne_refused _ _ _ h

theorem readsAndWrites_iff (i : Instr) :
    readsAndWrites i = true ↔ i = .frameBlock ∨ i = .decodeContainer ∨ i = .encodeContainer := by
  cases i <;> decide

/-- Settles O17: the three commands that read one region and write the other check for a shared address, and there is
no other refusal. -/
theorem overlappingLaunchIsRefused : Obligations.OverlappingLaunchIsRefused := by
  intro s hb
  refine ⟨fun hshared => ?_, fun i r h => ?_⟩
  · have ho := (regionsOverlap_iff s.regs).2 hshared
    exact ⟨exec_overlap hb rfl ho, exec_overlap hb rfl ho, exec_overlap hb rfl ho⟩
  · obtain ⟨hi, ho⟩ := exec_refused h
    exact ⟨(readsAndWrites_iff i).1 hi, (regionsOverlap_iff s.regs).1 ho⟩

/-! ### Reset (70_reset_and_hazards.md R210 to R212) -/

/-- Settles O19: the due reset is the step, and what it leaves is `State.reset` but for what the outside world and the
builder hold. -/
theorem resetReturnsEveryRegister : Obligations.ResetReturnsEveryRegister := by
  intro s e rest hdue hact
  refine ⟨resetBlock { s with host := rest }, ?_, ?_⟩
  · rw [step_due hdue, hact]
    rfl
  · and_intros <;> rfl

/-- Whatever the free bytes are, the two tags of a machine differ (00_scope.md R6). -/
theorem launchParams_wellFormed : Config.launchParams.wellFormed = true := by
  rw [Params.wellFormed, bne_iff_ne]
  simp only [Config.launchParams]
  split
  · intro h
    simpa using congrArg (fun t => t.b0.getLsbD 0) h
  · assumption

/-- Settles O20: the registers hold fixed values, nothing is left to do, and the tags are those of `launchParams`. -/
theorem resetMeetsTheInvariant : Obligations.ResetMeetsTheInvariant := by
  have hmem : Memory.wf [] := ⟨.nil, nofun⟩
  have hregs : regsLegal Regs.reset := by decide
  exact ⟨hmem, hregs, ⟨BitVec.zero_and, BitVec.zero_and⟩, ⟨fun _ => ⟨rfl, rfl⟩, nofun⟩, ⟨rfl, nofun⟩,
    launchParams_wellFormed⟩

end Sys2Proof.Machine
end

section
/-! SUPPORT. Runs that are cut short, by the host or by a sink that stops answering, and the statements about them
(70_reset_and_hazards.md R212, R221, 45_tone.md R172). -/

namespace Sys2Proof.Machine

/-- Settles O29: what a run leaves in `todo`, wherever it was cut, is what is left of the uncut run. -/
theorem engineRunSplitsAnywhere : Obligations.EngineRunSplitsAnywhere :=
  fun n ops s => runOps_resume (some n) ops s

/-! ### A sink that stops answering -/

/-- A block whose next step is a push the sink does not answer stays as it is while the host waits. -/
theorem step_stalled {t : State} {pos : Option TonePos} {x : Sample} {ops : List EngineOp} (hb : t.busy = true)
    (hrun : t.seq = .run) (hw : stepLimit t.host = none) (htodo : t.todo = .push pos x :: ops)
    (hsink : sinkAnswer t.sink = .silent) : step t = .next t := by
  obtain ⟨-, hnil, -⟩ | ⟨⟨arrival, act⟩, rest, ⟨hhost, harr, -⟩, -⟩ | ⟨-, hstep⟩ := step_cases t
  · simp [htodo] at hnil
  · rw [hhost] at hw
    cases arrival <;> simp [arrived, hb, stepLimit] at harr hw
  · rw [hstep, engineRun_waits hrun hw, htodo, runOps]
    simp [applyOp, hsink, ← htodo]

/-- What a command launched at `s` has come to that is stuck with the first m of its samples answered. -/
def StuckAfter (s : State) (m : Nat) (samples : List Sample) (t : State) : Prop :=
  t.busy = true ∧ t.done = false ∧ t.port = (pushesOf (samples.take m) s.sink).reverse ++ s.port ∧
    t.res.sampleCount = BitVec.ofNat 32 m ∧ t.res.result = BitVec.ofNat 32 (acceptedOf m s.sink) ∧ step t = .next t

section

variable {s : State} {m : Nat} (hr : Ready s) (hk : Answered m s.sink) (hq : sinkAnswer (sinkAfter m s.sink) = .silent)
include hr hk hq

/-- Sound steps, run from the start effects on, get stuck at the first push the sink does not answer. -/
theorem runOps_stuckAfter {ops : List EngineOp} (ha : Audible ops) (rest : List EngineOp)
    (hm : m < (samplesOf ops).length) :
    StuckAfter s m (samplesOf ops) (runOps none (ops ++ rest) (startCmd s)) := by
  obtain ⟨pre, pos, x, post, -, hpre, hsamples, hstall⟩ := runOps_stalls ha rest (s := startCmd s) hm hk hq
  have hlen : (samplesOf pre).length = m := by rw [hsamples, List.length_take_of_le hm.le]
  have hdone := perform_audible hpre (s := startCmd s) (by rwa [hlen])
  simp only [hlen] at hdone
  rw [hsamples] at hdone
  have hsink : sinkAnswer (perform pre (startCmd s)).sink = .silent := by rw [hdone]; exact hq
  have hwait : stepLimit (perform pre (startCmd s)).host = none := by rw [hdone]; exact hr.2
  rw [hstall]
  refine ⟨congrArg State.busy hdone, congrArg State.done hdone, congrArg State.port hdone, ?_, ?_, ?_⟩
  · exact (congrArg (·.res.sampleCount) hdone).trans (BitVec.zero_add _)
  · exact (congrArg (·.res.result) hdone).trans (BitVec.zero_add _)
  · exact step_stalled (congrArg State.busy hdone) (congrArg State.seq hdone) hwait rfl hsink

/-- A command whose plan is reads, then sound steps, then any others, gets stuck in its sound. -/
theorem exec_stuckAfter {i : Instr} {loads ops rest : List EngineOp} (hi : readsAndWrites i = false)
    (hplan : planOf i s = loads ++ ops ++ rest) (hfree : pushFree loads) (hreads : ∀ t, perform loads t = t)
    (ha : Audible ops) (hm : m < (samplesOf ops).length) :
    ∃ t, exec i s = .next t ∧ StuckAfter s m (samplesOf ops) t := by
  refine ⟨_, ?_, runOps_stuckAfter hr hk hq ha (rest ++ [.complete]) hm⟩
  rw [exec_of_disjoint (by simp [hi]), runCommand_ready hr, hplan, List.append_assoc, List.append_assoc,
    runOps_append_of_pushFree hfree, runOps_pushFree hfree, hreads, runOps_todo, runOps_todo]

end

/-- Settles O53: each of the three plans is sound steps, behind the reads of the payload for a tape. -/
theorem silentSinkLeavesTheCommandBusy : Obligations.SilentSinkLeavesTheCommandBusy := by
  intro s m hr hk hq stuck
  refine ⟨fun hm => ?_, fun hm => ?_, ?_⟩
  · rw [← samplesOf_toneOps] at hm ⊢
    exact exec_stuckAfter hr hk hq (loads := []) rfl (List.append_nil _).symm nofun (fun _ => rfl)
      (audible_toneOps ..) hm
  · rw [← samplesOf_silenceOps] at hm ⊢
    exact exec_stuckAfter hr hk hq (loads := []) rfl (List.append_nil _).symm nofun (fun _ => rfl)
      (audible_silenceOps ..) hm
  · intro hrange size hlen hm
    rw [← payload_of_length hlen, ← samplesOf_tapeOps] at hm ⊢
    exact exec_stuckAfter hr hk hq rfl (planEncodeTape_of_valid (validSize_of_le hrange hlen))
      (pushFree_loadOps _ _ _ _) (perform_loadOps _ _ _ _) (audible_tapeOps ..) hm

end Sys2Proof.Machine
end
